-- ==== Sys2Proof/Word.lean ====
section
/-! DEFINITION. The word types of the block: bytes, byte sequences and the 32-bit words of SHA-1
(00_scope.md R8). Every quantity of the block is unsigned. -/

namespace Sys2Proof

/-- A byte: 8 bits, bit 7 the most significant (R8, 20_memory.md R65). -/
abbrev Byte := BitVec 8

/-- A finite sequence of bytes, indexed from 0 (R8). -/
abbrev Bytes := List Byte

/-- `U32`, the word of SHA-1 (45_handshake.md R277). -/
abbrev Word32 := BitVec 32

/-- A close code or extended length of 16 bits (R8). -/
abbrev U16 := BitVec 16

/-- An extended length of 64 bits (R8). -/
abbrev U64 := BitVec 64

end Sys2Proof
end

