-- ==== Sys2Proof/Config.lean ====
section
/-! DEFINITION. The implementation parameters of 00_scope.md R6. The three that are open are a record
that every connection carries in its state; the fixed ones are constants. CLOSE_TIMEOUT is "not used by
any rule" and has no counterpart. -/

namespace Sys2Proof

/-- The parameters a connection is created with (R6, 10_state.md R39). They are sampled once and never
change afterwards. -/
structure Params where
  /-- `MAX_PAYLOAD`: bounds the received payload of a frame and of a reassembled message. -/
  maxPayload : Nat
  /-- `ACCEPTED_VERSIONS`: the protocol versions the handshake admits. -/
  acceptedVersions : List Nat
  /-- `TEXT_UTF8_CHECK`: whether a completed ill-formed text message fails with 1007. -/
  textUtf8Check : Bool
  deriving DecidableEq, Repr

namespace Config

/-- The parameters of `State.reset`. ACCEPTED_VERSIONS is the default R6 states. DESIGN CHOICE (unsafe,
entry 1): 1024 and `false` are those of the spec's test vectors; the spec leaves both open, and
`State.create` takes any. -/
def defaultParams : Params where
  maxPayload := 1024
  acceptedVersions := [13, 8]
  textUtf8Check := false

/-- `REQUIRE_MASK`, fixed true: the server requires MASK = 1 of its clients. -/
def requireMask : Bool := true

/-- `LEN_BITS`, fixed 63: a 64-bit length whose top bit is 1 is a protocol error. -/
def lenBits : Nat := 63

/-- `KEY_BYTES`, fixed 4. -/
def keyBytes : Nat := 4

/-- `CONTROL_MAX`, fixed 125: the largest payload of a control frame. -/
def controlMax : Nat := 125

/-- `NONCE_BYTES`, fixed 16: the size of the decoded `Sec-WebSocket-Key`. -/
def nonceBytes : Nat := 16

/-- `DIGEST_BYTES`, fixed 20: the size of a SHA-1 digest. -/
def digestBytes : Nat := 20

/-- The bytes of an ASCII text. -/
def ascii (s : String) : Bytes := s.toList.map fun ch => BitVec.ofNat 8 ch.toNat

/-- `GUID`, 36 ASCII bytes. -/
def guid : Bytes := ascii "258EAFA5-E914-47DA-95CA-C5AB0DC85B11"

end Config

end Sys2Proof
end

