-- ==== Sys2Proof/Syntax.lean ====
section
/-! DEFINITION. The instruction set: one constructor for each row of opcode_table.json. An instruction is
one frame, received (`RXF`) or transmitted (`TXF`). Register and opcode numbers are turned into
constructors here, so that the machine never sees raw encodings. -/

namespace Sys2Proof

/-- The four masking-key bytes in wire order (10_state.md R30, 30_encoding.md R95). -/
structure Key where
  k0 : Byte
  k1 : Byte
  k2 : Byte
  k3 : Byte
  deriving DecidableEq, Repr

/-- The three length forms of a frame (30_encoding.md R92, R106). A received frame may use a longer form
than its payload needs (R104). -/
inductive LenForm where
  | len7
  | len16
  | len64
  deriving DecidableEq, Repr

/-- The frames. `payload` is always the plain payload, that is after unmasking in a received frame
(30_encoding.md R96). A received control frame has only the form `len7` (R102) and a transmitted frame
only the shortest form (43_encoder.md R201), so these carry no form. -/
inductive Instr where
  /-- `CONT`, received continuation frame. -/
  | cont (fin : Bool) (form : LenForm) (key : Key) (payload : Bytes)
  /-- `TEXT`, received text frame. -/
  | text (fin : Bool) (form : LenForm) (key : Key) (payload : Bytes)
  /-- `BINARY`, received binary frame. -/
  | binary (fin : Bool) (form : LenForm) (key : Key) (payload : Bytes)
  /-- `CLOSE`, received close frame. -/
  | close (key : Key) (payload : Bytes)
  /-- `PING`, received ping frame. -/
  | ping (key : Key) (payload : Bytes)
  /-- `PONG`, received pong frame. -/
  | pong (key : Key) (payload : Bytes)
  /-- `TX_CONT`, transmitted continuation frame. -/
  | txCont (fin : Bool) (payload : Bytes)
  /-- `TX_TEXT`, transmitted text frame. -/
  | txText (fin : Bool) (payload : Bytes)
  /-- `TX_BINARY`, transmitted binary frame. -/
  | txBinary (fin : Bool) (payload : Bytes)
  /-- `TX_CLOSE`, transmitted close frame. -/
  | txClose (payload : Bytes)
  /-- `TX_PING`, transmitted ping frame. -/
  | txPing (payload : Bytes)
  /-- `TX_PONG`, transmitted pong frame. -/
  | txPong (payload : Bytes)
  deriving DecidableEq, Repr

/-- The payload of a frame. -/
def Instr.payload : Instr → Bytes
  | .cont _ _ _ p => p
  | .text _ _ _ p => p
  | .binary _ _ _ p => p
  | .close _ p => p
  | .ping _ p => p
  | .pong _ p => p
  | .txCont _ p => p
  | .txText _ p => p
  | .txBinary _ p => p
  | .txClose p => p
  | .txPing p => p
  | .txPong p => p

/-- The FIN bit of a frame; a control frame always has FIN = 1 (30_encoding.md R102). -/
def Instr.fin : Instr → Bool
  | .cont f _ _ _ => f
  | .text f _ _ _ => f
  | .binary f _ _ _ => f
  | .close _ _ => true
  | .ping _ _ => true
  | .pong _ _ => true
  | .txCont f _ => f
  | .txText f _ => f
  | .txBinary f _ => f
  | .txClose _ => true
  | .txPing _ => true
  | .txPong _ => true

/-- The 4-bit opcode of a frame (30_encoding.md R97). -/
def Instr.opcode : Instr → BitVec 4
  | .cont _ _ _ _ => 0
  | .text _ _ _ _ => 1
  | .binary _ _ _ _ => 2
  | .close _ _ => 8
  | .ping _ _ => 9
  | .pong _ _ => 10
  | .txCont _ _ => 0
  | .txText _ _ => 1
  | .txBinary _ _ => 2
  | .txClose _ => 8
  | .txPing _ => 9
  | .txPong _ => 10

/-- Whether the frame is one the block receives (format `RXF`) or one it transmits (`TXF`). -/
def Instr.received : Instr → Bool
  | .cont _ _ _ _ => true
  | .text _ _ _ _ => true
  | .binary _ _ _ _ => true
  | .close _ _ => true
  | .ping _ _ => true
  | .pong _ _ => true
  | .txCont _ _ => false
  | .txText _ _ => false
  | .txBinary _ _ => false
  | .txClose _ => false
  | .txPing _ => false
  | .txPong _ => false

/-- The masking key of a received frame (30_encoding.md R95); a transmitted frame has none. -/
def Instr.key? : Instr → Option Key
  | .cont _ _ k _ => some k
  | .text _ _ k _ => some k
  | .binary _ _ k _ => some k
  | .close k _ => some k
  | .ping k _ => some k
  | .pong k _ => some k
  | .txCont _ _ => none
  | .txText _ _ => none
  | .txBinary _ _ => none
  | .txClose _ => none
  | .txPing _ => none
  | .txPong _ => none

end Sys2Proof
end

