-- ==== Sys2Proof/WellFormed.lean ====
section
/-! DEFINITION. Which instruction terms are frames the wire format can hold: the payload fits its length
form (30_encoding.md R92, R94, R103, R106) and a control payload has at most 125 bytes (R102). -/

namespace Sys2Proof

/-- A length fits its form: 7-bit values are 0..125, 16-bit values 0..65535, 64-bit values below
`2^63` (R94, R103). Longer forms than needed are legal in a received frame (R104). -/
def LenForm.fits : LenForm → Nat → Bool
  | .len7, n => n ≤ 125
  | .len16, n => n < 2 ^ 16
  | .len64, n => n < 2 ^ Config.lenBits

/-- A control payload has at most `CONTROL_MAX` bytes (R102). -/
def controlFits (p : Bytes) : Bool := p.length ≤ Config.controlMax

/-- A transmitted data payload has fewer than `2^63` bytes (43_encoder.md R200). -/
def sendFits (p : Bytes) : Bool := p.length < 2 ^ Config.lenBits

/-- The instruction is a frame of the wire format. -/
def Instr.wf : Instr → Bool
  | .cont _ form _ p => form.fits p.length
  | .text _ form _ p => form.fits p.length
  | .binary _ form _ p => form.fits p.length
  | .close _ p => controlFits p
  | .ping _ p => controlFits p
  | .pong _ p => controlFits p
  | .txCont _ p => sendFits p
  | .txText _ p => sendFits p
  | .txBinary _ p => sendFits p
  | .txClose p => controlFits p
  | .txPing p => controlFits p
  | .txPong p => controlFits p

end Sys2Proof
end

