-- ==== Sys2Proof/Decode.lean ====
section
/-! DEFINITION. The wire format: byte order, field extraction, masking, the decoder (total on any bytes,
rejecting by name) and the encoder, both written from the tables of 30_encoding.md. The machine's
micro-steps (Machine/Decoder.lean) use the field functions of this file; that the machine runs the frame
this decoder reads is a statement of its own. -/

namespace Sys2Proof

/-! ### Numbers and byte order -/

/-- `be(s)`: the unsigned number whose base-256 digits are the bytes of `s`, first byte most significant
(00_scope.md R8, 20_memory.md R64). -/
def be (s : Bytes) : Nat := s.foldl (fun acc b => acc * 256 + b.toNat) 0

/-- `to_be(n, v)`: the `n`-byte sequence `s` with `be(s) = v`, for `v < 256^n` (00_scope.md R8). For a larger
`v` the spec leaves `to_be` undefined; this total function then gives the bytes of `v mod 256^n`, DESIGN CHOICE
(safe, entry 21): no step applies it there. -/
def toBe : Nat → Nat → Bytes
  | 0, _ => []
  | n + 1, v => BitVec.ofNat 8 (v / 256 ^ n) :: toBe n v

/-! ### Masking -/

/-- `key[i mod 4]` (41_decoder.md R162). -/
def Key.byte (key : Key) (i : Nat) : Byte :=
  match i % 4 with
  | 0 => key.k0
  | 1 => key.k1
  | 2 => key.k2
  | _ => key.k3

/-- The four key bytes in wire order (30_encoding.md R95). -/
def Key.bytes (key : Key) : Bytes := [key.k0, key.k1, key.k2, key.k3]

/-- Masking from payload index `i` on. -/
def unmaskFrom (key : Key) : Nat → Bytes → Bytes
  | _, [] => []
  | i, b :: rest => (b ^^^ key.byte i) :: unmaskFrom key (i + 1) rest

/-- `unmask(w, key)`: byte `i` is `w[i] XOR key[i mod 4]`, `i` counted from the first payload byte of the
frame (41_decoder.md R162). Masking is the same function. -/
def unmask (w : Bytes) (key : Key) : Bytes := unmaskFrom key 0 w

/-! ### The base header -/

/-- The fields of the two base-header bytes (30_encoding.md R91). -/
structure BaseHeader where
  fin : Bool
  rsv : BitVec 3
  opcode : BitVec 4
  masked : Bool
  rawLen7 : BitVec 7
  deriving DecidableEq, Repr

/-- `byte0`: FIN is bit 7, RSV1..3 bits 6..4, OPCODE bits 3..0; `byte1`: MASK is bit 7, LEN7 bits 6..0
(R91, 41_decoder.md R151). -/
def baseHeader (b0 b1 : Byte) : BaseHeader where
  fin := b0.getLsbD 7
  rsv := b0.extractLsb' 4 3
  opcode := b0.extractLsb' 0 4
  masked := b1.getLsbD 7
  rawLen7 := b1.extractLsb' 0 7

/-- The first header byte with RSV1..3 = 0: `FIN * 128 + OPCODE` (R106). -/
def headerByte0 (fin : Bool) (opcode : BitVec 4) : Byte :=
  BitVec.ofNat 8 (fin.toNat * 128 + opcode.toNat)

/-- The second header byte: `MASK * 128 + LEN7` (R91). -/
def headerByte1 (masked : Bool) (len7 : Nat) : Byte :=
  BitVec.ofNat 8 (masked.toNat * 128 + len7)

/-- The legal opcodes: continuation 0, text 1, binary 2, close 8, ping 9, pong 10 (R97). -/
def legalOpcode (op : BitVec 4) : Bool :=
  op == 0 || op == 1 || op == 2 || op == 8 || op == 9 || op == 10

/-- A control frame's opcode: 8, 9 or 10 (R97). -/
def controlOpcode (op : BitVec 4) : Bool := op == 8 || op == 9 || op == 10

/-- Why bytes are not a frame. -/
inductive DecodeError where
  /-- The bytes end inside the frame (more are needed; 41_decoder.md R164). -/
  | truncated
  /-- A reserved bit is set (R100). -/
  | rsvSet
  /-- The opcode is 3..7 or 11..15 (R97). -/
  | reservedOpcode
  /-- A received frame with MASK = 0 (R101). -/
  | notMasked
  /-- A transmitted frame with MASK = 1 (R106, R107). -/
  | masked
  /-- A control frame with FIN = 0 (R102). -/
  | controlFragmented
  /-- A control frame with LEN7 = 126 or 127 (R102). -/
  | controlTooLong
  /-- A 64-bit length with its top bit set (R103). -/
  | lengthTopBit
  /-- A transmitted frame whose length is not in the shortest form (43_encoder.md R201). -/
  | nonMinimalLength
  deriving DecidableEq, Repr

/-- The reserved-bit and opcode checks, the first two of 41_decoder.md R152 to R155. -/
def fieldFault (h : BaseHeader) : Option DecodeError :=
  if h.rsv ≠ 0 then some .rsvSet
  else if !legalOpcode h.opcode then some .reservedOpcode
  else none

/-- The control-frame check (41_decoder.md R155). -/
def controlFault (h : BaseHeader) : Option DecodeError :=
  if controlOpcode h.opcode then
    if !h.fin then some .controlFragmented
    else if h.rawLen7.toNat > Config.controlMax then some .controlTooLong
    else none
  else none

/-- The four header checks of a received frame, in the order RSV, opcode, mask, control
(41_decoder.md R152 to R155). -/
def headerFault (h : BaseHeader) : Option DecodeError :=
  match fieldFault h with
  | some e => some e
  | none =>
    if Config.requireMask && !h.masked then some .notMasked
    else controlFault h

/-- The header checks of a transmitted frame: the same with MASK = 0 in place of MASK = 1 (R106, R107). -/
def txHeaderFault (h : BaseHeader) : Option DecodeError :=
  match fieldFault h with
  | some e => some e
  | none =>
    if h.masked then some .masked
    else controlFault h

/-! ### Fields of known length -/

/-- The first `n` bytes and the rest, or nothing when fewer than `n` are there. -/
def takeExact (n : Nat) (bs : Bytes) : Option (Bytes × Bytes) :=
  if n ≤ bs.length then some (bs.take n, bs.drop n) else none

/-- The length form, the payload length and the bytes after the length (30_encoding.md R94). -/
def readLength (len7 : BitVec 7) (bs : Bytes) : Except DecodeError (LenForm × Nat × Bytes) :=
  if len7.toNat ≤ 125 then .ok (.len7, len7.toNat, bs)
  else if len7.toNat = 126 then
    match takeExact 2 bs with
    | some (e, rest) => .ok (.len16, be e, rest)
    | none => .error .truncated
  else
    match takeExact 8 bs with
    | some (e, rest) =>
      if be e < 2 ^ Config.lenBits then .ok (.len64, be e, rest) else .error .lengthTopBit
    | none => .error .truncated

/-- The four key bytes (30_encoding.md R95). -/
def readKey : Bytes → Option (Key × Bytes)
  | k0 :: k1 :: k2 :: k3 :: rest => some (⟨k0, k1, k2, k3⟩, rest)
  | _ => none

/-- The received frame with these fields; only for the six legal opcodes (30_encoding.md R98). -/
def rxInstr (op : BitVec 4) (fin : Bool) (form : LenForm) (key : Key) (p : Bytes) : Option Instr :=
  if op = 0 then some (.cont fin form key p)
  else if op = 1 then some (.text fin form key p)
  else if op = 2 then some (.binary fin form key p)
  else if op = 8 then some (.close key p)
  else if op = 9 then some (.ping key p)
  else if op = 10 then some (.pong key p)
  else none

/-- The transmitted frame with these fields; only for the six legal opcodes (30_encoding.md R107). -/
def txInstr (op : BitVec 4) (fin : Bool) (p : Bytes) : Option Instr :=
  if op = 0 then some (.txCont fin p)
  else if op = 1 then some (.txText fin p)
  else if op = 2 then some (.txBinary fin p)
  else if op = 8 then some (.txClose p)
  else if op = 9 then some (.txPing p)
  else if op = 10 then some (.txPong p)
  else none

/-- The shortest length form of a payload length (43_encoder.md R201). -/
def LenForm.shortest (n : Nat) : LenForm :=
  if n ≤ 125 then .len7 else if n ≤ 65535 then .len16 else .len64

/-! ### The decoder -/

/-- A received frame and the bytes after it (30_encoding.md R91 to R96, R98). -/
def decodeRx : Bytes → Except DecodeError (Instr × Bytes)
  | b0 :: b1 :: rest =>
    let h := baseHeader b0 b1
    match headerFault h with
    | some e => .error e
    | none =>
      match readLength h.rawLen7 rest with
      | .error e => .error e
      | .ok (form, len, rest) =>
        match readKey rest with
        | none => .error .truncated
        | some (key, rest) =>
          match takeExact len rest with
          | none => .error .truncated
          | some (w, rest) =>
            match rxInstr h.opcode h.fin form key (unmask w key) with
            | none => .error .reservedOpcode
            | some i => .ok (i, rest)
  | _ => .error .truncated

/-- A transmitted frame and the bytes after it (30_encoding.md R106, R107). -/
def decodeTx : Bytes → Except DecodeError (Instr × Bytes)
  | b0 :: b1 :: rest =>
    let h := baseHeader b0 b1
    match txHeaderFault h with
    | some e => .error e
    | none =>
      match readLength h.rawLen7 rest with
      | .error e => .error e
      | .ok (form, len, rest) =>
        if form ≠ LenForm.shortest len then .error .nonMinimalLength
        else
          match takeExact len rest with
          | none => .error .truncated
          | some (p, rest) =>
            match txInstr h.opcode h.fin p with
            | none => .error .reservedOpcode
            | some i => .ok (i, rest)
  | _ => .error .truncated

/-- The instruction at the head of the bytes. MASK, bit 7 of the second byte, tells the direction: a
received frame has MASK = 1 and a transmitted frame MASK = 0 (30_encoding.md R98, R107). -/
def decode (bs : Bytes) : Except DecodeError (Instr × Bytes) :=
  match bs with
  | b0 :: b1 :: rest =>
    if b1.getLsbD 7 then decodeRx (b0 :: b1 :: rest) else decodeTx (b0 :: b1 :: rest)
  | _ => .error .truncated

/-! ### The encoder -/

/-- The LEN7 field of a length in a form (30_encoding.md R92). -/
def LenForm.field : LenForm → Nat → Nat
  | .len7, n => n
  | .len16, _ => 126
  | .len64, _ => 127

/-- The extended-length bytes of a length in a form (30_encoding.md R92). -/
def LenForm.ext : LenForm → Nat → Bytes
  | .len7, _ => []
  | .len16, n => toBe 2 n
  | .len64, n => toBe 8 n

/-- The bytes of a received frame (30_encoding.md R92, R96). -/
def rxFrame (fin : Bool) (op : BitVec 4) (form : LenForm) (key : Key) (p : Bytes) : Bytes :=
  headerByte0 fin op :: headerByte1 true (form.field p.length) ::
    (form.ext p.length ++ (key.bytes ++ unmask p key))

/-- `encodeFrame(fin, opcode, payload)`: the bytes of one transmitted frame (43_encoder.md R200), in the
shortest length form (R201). -/
def encodeFrame (fin : Bool) (op : BitVec 4) (payload : Bytes) : Bytes :=
  let b0 := headerByte0 fin op
  let len := payload.length
  let hdr :=
    if len ≤ 125 then [b0, headerByte1 false len]
    else if len ≤ 65535 then [b0, headerByte1 false 126] ++ toBe 2 len
    else [b0, headerByte1 false 127] ++ toBe 8 len
  hdr ++ payload

/-- The bytes of an instruction (30_encoding.md R98, R107). -/
def encode : Instr → Bytes
  | .cont fin form key p => rxFrame fin 0 form key p
  | .text fin form key p => rxFrame fin 1 form key p
  | .binary fin form key p => rxFrame fin 2 form key p
  | .close key p => rxFrame true 8 .len7 key p
  | .ping key p => rxFrame true 9 .len7 key p
  | .pong key p => rxFrame true 10 .len7 key p
  | .txCont fin p => encodeFrame fin 0 p
  | .txText fin p => encodeFrame fin 1 p
  | .txBinary fin p => encodeFrame fin 2 p
  | .txClose p => encodeFrame true 8 p
  | .txPing p => encodeFrame true 9 p
  | .txPong p => encodeFrame true 10 p

/-! ### The opcode table's numbering -/

/-- The bytes of an instruction whose bits are `w`, numbered as opcode_table.json numbers them: `hdr16 =
byte0 * 256 + byte1` is one 16-bit word, stored high byte first (30_encoding.md R91, R98); a later word's
bits count on. -/
def tableWordBytes : Nat → Nat → Bytes
  | 0, _ => []
  | words + 1, w =>
    BitVec.ofNat 8 (w / 256) :: BitVec.ofNat 8 w :: tableWordBytes words (w / 65536)

/-- The number of bytes of the frame whose header stands at the head of `bs`, with missing bytes read as
zero: header, extended length, key when MASK = 1, payload (30_encoding.md R92, R106). -/
def frameLength (bs : Bytes) : Nat :=
  match bs ++ List.replicate 14 0 with
  | b0 :: b1 :: rest =>
    let h := baseHeader b0 b1
    let keyLen := if h.masked then Config.keyBytes else 0
    if h.rawLen7.toNat ≤ 125 then 2 + keyLen + h.rawLen7.toNat
    else if h.rawLen7.toNat = 126 then 4 + keyLen + be (rest.take 2)
    else 10 + keyLen + be (rest.take 8)
  | _ => 0

/-- The whole frame whose first `nbits` bits are `w` and whose other bits are zero. -/
def tableFrame (nbits w : Nat) : Bytes :=
  let bs := tableWordBytes ((nbits + 15) / 16) w
  let len := frameLength bs
  (bs ++ List.replicate len 0).take len

/-- The instruction the decoder reads from the frame whose bits are `w`, numbered as opcode_table.json
numbers them; every bit above `nbits` is zero. -/
def decodeTableWord (nbits w : Nat) : Option Instr :=
  match decode (tableFrame nbits w) with
  | .ok (i, _) => some i
  | .error _ => none

end Sys2Proof
end

