-- ==== Sys2Proof/Machine/State.lean ====
section
/-! DEFINITION. The state of one connection, as plain data, and its value at creation (10_state.md). Every
line of the spec's own inventory (R21) is a field; `inputs` alone is the model's own. -/

namespace Sys2Proof.Machine

/-! ### Enumerations -/

/-- `K.state`, the connection state and mode register (10_state.md R36; the spec's OPEN is `opened`). The
spec gives no numeric encoding. -/
inductive ConnState where
  | connecting
  | opened
  | closing
  | closed
  deriving DecidableEq, Repr

/-- `D.state`, the decoder state register (10_state.md R25). -/
inductive DecState where
  | awaitingHeader
  | awaitingExtLen16
  | awaitingExtLen64
  | awaitingMaskKey
  | awaitingPayload
  | failed
  deriving DecidableEq, Repr

/-- `Kind`, the class of a failure (10_state.md R31). -/
inductive Kind where
  | protocolViolation
  | payloadTooLarge
  | invalidPayload
  | transportError
  | handshakeRejected
  deriving DecidableEq, Repr

/-- The opcode of a Message: text or binary (10_state.md R33, R48). -/
inductive MsgKind where
  | text
  | binary
  deriving DecidableEq, Repr

/-! ### Ports -/

/-- The events of the application port `EV` (10_state.md R48). -/
inductive Event where
  | connectionOpened
  | message (opcode : MsgKind) (bytes : Bytes)
  | ping (bytes : Bytes)
  | pong (bytes : Bytes)
  | close (code : Option U16) (reason : Bytes)
  | error (kind : Kind)
  deriving DecidableEq, Repr

/-- One output of the block, an entry of the output trace `OUT` (00_scope.md R10). -/
inductive Output where
  /-- `TX.write(bytes)` (10_state.md R47). -/
  | txWrite (bytes : Bytes)
  /-- `TX.end()` (R47). -/
  | txEnd
  /-- A change of the level `RX_PAUSE` (R51). -/
  | rxPause (level : Bool)
  /-- `emit EV.event` (R48). -/
  | ev (event : Event)
  deriving DecidableEq, Repr

/-- A header map: lower-cased names and byte-string values; an absent header has no entry
(10_state.md R50). -/
abbrev Headers := List (Bytes × Bytes)

/-- The input events, one per step (10_state.md R49). `txFrame` is the MODEL'S OWN input (DESIGN CHOICE,
entry 5): the encoder's operation taken by itself, so that each transmitted frame can be run as one
instruction. -/
inductive Input where
  | hsRequest (method : Bytes) (headers : Headers)
  | rxChunk (bytes : Bytes)
  | rxEnd
  | rxError
  | timerExpire
  /-- The opcode is a 4-bit number, so that one "other than text or binary" can be given (43_encoder.md
  R214). -/
  | sendMessage (opcode : BitVec 4) (payload : Bytes) (frag : Option Nat)
  | sendPing (payload : Bytes)
  | sendPong (payload : Bytes)
  | close (code : U16) (reason : Bytes)
  | pause
  | resume
  | txFrame (bytes : Bytes)
  deriving DecidableEq, Repr

/-! ### The registers -/

/-- The ByteCursor `C` (10_state.md R22, R24): the chunk queue, front first, the number of consumed bytes
of the front chunk, the running total of buffered bytes, and the ghost stream position. -/
structure Cursor where
  chunks : List Bytes
  off : Nat
  total : Nat
  pos : Nat
  deriving DecidableEq, Repr

/-- The FrameDecoder's state register and failure record (R25, R31). -/
structure Decoder where
  state : DecState
  failCode : Option U16
  failKind : Option Kind
  deriving DecidableEq, Repr

/-- The header register file `H` (R26): `rsv` holds wire bits 6..4 of byte 0, `effLen` 63 bits (R29). -/
structure Header where
  fin : Bool
  rsv : BitVec 3
  opcode : BitVec 4
  masked : Bool
  rawLen7 : BitVec 7
  extLen : Option U64
  effLen : BitVec 63
  key : Key
  deriving DecidableEq, Repr

/-- The fragmentation accumulator `A` (R33). `opcode = none` is the spec's "no value" (R34, 42_dispatch.md
R184). -/
structure Accumulator where
  active : Bool
  opcode : Option MsgKind
  buf : Bytes
  deriving DecidableEq, Repr

/-- The connection registers `K` (R36, R38). `paused` is also the level `RX_PAUSE` (R51). -/
structure Connection where
  state : ConnState
  closeSent : Bool
  closeRecv : Bool
  timerArmed : Bool
  paused : Bool
  deriving DecidableEq, Repr

/-- The handshake's SHA-1 working registers (R40): the chaining values, the message schedule `W[0..79]`
and the five working registers. -/
structure Sha1Regs where
  h0 : Word32
  h1 : Word32
  h2 : Word32
  h3 : Word32
  h4 : Word32
  w : List Word32
  a : Word32
  b : Word32
  c : Word32
  d : Word32
  e : Word32
  deriving DecidableEq, Repr

/-- The state of one connection (R20, R21). -/
structure State where
  /-- `CFG`, read-only after creation (R39). -/
  cfg : Params
  /-- `K`. -/
  k : Connection
  /-- `C`. -/
  c : Cursor
  /-- `D`. -/
  d : Decoder
  /-- `H`. -/
  h : Header
  /-- `A`. -/
  a : Accumulator
  /-- The SHA-1 working registers. -/
  sha : Sha1Regs
  /-- `OUT`, the output trace, oldest first (00_scope.md R10). -/
  out : List Output
  /-- The input events the environment has ready, oldest first. The MODEL'S OWN field (entry 4): a step
  takes the first (R11). -/
  inputs : List Input
  deriving DecidableEq, Repr

/-! ### Values at creation -/

/-- An empty ByteCursor (R45). -/
def Cursor.created : Cursor := ⟨[], 0, 0, 0⟩

/-- The decoder at handshake success (R45, 70_reset_and_hazards.md R342). -/
def Decoder.created : Decoder := ⟨.awaitingHeader, none, none⟩

/-- The header registers at handshake success. DESIGN CHOICE (unsafe, entry 2): the spec leaves them
without a value; no behaviour depends on them. -/
def Header.created : Header := ⟨false, 0, 0, false, 0, none, 0, ⟨0, 0, 0, 0⟩⟩

/-- The accumulator at handshake success (R45). -/
def Accumulator.created : Accumulator := ⟨false, none, []⟩

/-- The connection registers at creation (R45, 70_reset_and_hazards.md R341). -/
def Connection.created : Connection := ⟨.connecting, false, false, false, false⟩

/-- The SHA-1 registers at creation: the constants of 45_handshake.md R272; the schedule and the working
registers have no stated value, DESIGN CHOICE zero (unsafe, entry 3). -/
def Sha1Regs.created : Sha1Regs where
  h0 := 0x67452301
  h1 := 0xEFCDAB89
  h2 := 0x98BADCFE
  h3 := 0x10325476
  h4 := 0xC3D2E1F0
  w := List.replicate 80 0
  a := 0
  b := 0
  c := 0
  d := 0
  e := 0

/-- A connection created with the parameters `cfg` (70_reset_and_hazards.md R341). The spec says that C, D,
H and A do not exist yet; the model holds them at the values they are created with (entry 10). -/
def State.create (cfg : Params) : State where
  cfg := cfg
  k := .created
  c := .created
  d := .created
  h := .created
  a := .created
  sha := .created
  out := []
  inputs := []

/-- The machine right after reset: creation with the parameters of Config.lean (entry 1). -/
def State.reset : State := State.create Config.defaultParams

/-! ### How a step stops -/

/-- Faults of the MODEL: places the spec says no rule reaches. Both are impossible in a state that meets
the invariant of Safety.lean, and both are safe: a stop where the block goes on nowhere. -/
inductive Fault where
  /-- Raised by the micro-step of AWAITING_PAYLOAD when `H.opcode` is none of the six legal opcodes ("No
  other value reaches dispatch", 42_dispatch.md R180). Safe (entry 12). -/
  | undispatchableOpcode
  /-- Raised by a final continuation frame when a message is in progress and `A.opcode` holds no value
  (10_state.md R34 says it holds one). Safe (entry 12). -/
  | accumulatorWithoutOpcode
  deriving DecidableEq, Repr

/-- Refusals. -/
inductive Refusal where
  /-- Raised by an arm of `exec` for an instruction without a meaning yet; no arm does. Safe. -/
  | notModelled (mnemonic : String)
  deriving DecidableEq, Repr

/-- The outcome of one decoder micro-step (41_decoder.md R150): it suspends and changes nothing (R164), or
it ran with this outcome. -/
inductive Micro where
  | suspended
  | ran (o : Host.Outcome State Fault Refusal)

end Sys2Proof.Machine
end

