-- ==== Sys2Proof/Machine/Cursor.lean ====
section
/-! DEFINITION. The ByteCursor's operations over its chunk queue (40_bytecursor.md R130 to R139), the block's
loads and stores, and the canonical form they keep (10_state.md R23). -/

namespace Sys2Proof.Machine

/-- `C.bytes`, the buffered byte sequence (10_state.md R23). -/
def Cursor.bytes (c : Cursor) : Bytes := c.chunks.flatten.drop c.off

/-- The canonical form of the chunk queue (10_state.md R23): no chunk is empty, the offset lies inside the
front chunk (and is 0 when there is none), and the total is the number of unread bytes. -/
def Cursor.wf (c : Cursor) : Bool :=
  c.chunks.all (fun chunk => !chunk.isEmpty) &&
  (match c.chunks with
    | [] => c.off == 0
    | front :: _ => c.off < front.length) &&
  c.total == c.bytes.length

/-- The canonical form of the block's only readable storage, in a whole state. The block has no
addressable memory (20_memory.md R60). -/
def Memory.wf (s : State) : Bool := s.c.wf

/-- `append(chunk)` (R131); an empty chunk is not queued. -/
def Cursor.append (chunk : Bytes) (c : Cursor) : Cursor :=
  { c with
    chunks := if chunk.isEmpty then c.chunks else c.chunks ++ [chunk]
    total := c.total + chunk.length }

/-- `availableBytes()` (R132). -/
def Cursor.availableBytes (c : Cursor) : Nat := c.total

/-- Take `n` bytes from the chunks, `off` bytes of the front one already consumed: the bytes, the chunks
left and the new offset. A chunk whose last byte is taken is dropped. -/
def takeFromChunks : Nat → Nat → List Bytes → Bytes × List Bytes × Nat
  | _, _, [] => ([], [], 0)
  | off, n, chunk :: rest =>
    if n < chunk.length - off then ((chunk.drop off).take n, chunk :: rest, off + n)
    else
      let r := takeFromChunks 0 (n - (chunk.length - off)) rest
      (chunk.drop off ++ r.1, r.2.1, r.2.2)

/-- `tryConsume(n)` (R133): exactly `n` bytes and the advanced cursor, or `none` for NeedMore. -/
def Cursor.tryConsume (n : Nat) (c : Cursor) : Option (Bytes × Cursor) :=
  if n ≤ c.total then
    let r := takeFromChunks c.off n c.chunks
    some (r.1, { chunks := r.2.1, off := r.2.2, total := c.total - n, pos := c.pos + n })
  else none

/-- The `width` bytes at `offset` from the head as a big-endian number, or `none` for NeedMore (R138). -/
def Cursor.peek (width offset : Nat) (c : Cursor) : Option Nat :=
  if offset + width ≤ c.total then some (be ((c.bytes.drop offset).take width)) else none

/-- `peekUint8(offset)` (R134). -/
def Cursor.peekUint8 (offset : Nat) (c : Cursor) : Option Nat := c.peek 1 offset

/-- `peekUint16BE(offset)` (R135). -/
def Cursor.peekUint16BE (offset : Nat) (c : Cursor) : Option Nat := c.peek 2 offset

/-- `peekUint32BE(offset)` (R136). -/
def Cursor.peekUint32BE (offset : Nat) (c : Cursor) : Option Nat := c.peek 4 offset

/-- `peekUint64BE(offset)` (R137): all 64 bits. -/
def Cursor.peekUint64BE (offset : Nat) (c : Cursor) : Option Nat := c.peek 8 offset

end Sys2Proof.Machine
end

