-- ==== Sys2Proof/Machine/Flags.lean ====
section
/-! DEFINITION. The conditions the block's rules test and the one-bit registers they write (10_state.md R32,
R38). There are no arithmetic condition codes. -/

namespace Sys2Proof.Machine

/-- `K.state = OPEN`: every output and every command (60_exceptions.md R320). -/
def State.isOpen (s : State) : Bool := s.k.state == .opened

/-- The decoder exists and runs: `K.state` is OPEN or CLOSING and `D.state` is not FAILED (41_decoder.md
R165). -/
def State.decoding (s : State) : Bool :=
  (s.k.state == .opened || s.k.state == .closing) && s.d.state != .failed

/-- The size a continuation frame adds to: the accumulator's, for a continuation of a message in progress
(41_decoder.md R160). -/
def State.pending (op : BitVec 4) (s : State) : Nat :=
  if op == 0 && s.a.active then s.a.buf.length else 0

/-- The size check of R160: the frame's length, or the accumulated length it leads to, exceeds
MAX_PAYLOAD. -/
def State.tooLarge (op : BitVec 4) (len : Nat) (s : State) : Bool :=
  len > s.cfg.maxPayload || s.pending op + len > s.cfg.maxPayload

/-- `H.rsv`, `H.opcode` and the rest as the record the header checks take (41_decoder.md R152 to R155). -/
def Header.base (h : Header) : BaseHeader := ⟨h.fin, h.rsv, h.opcode, h.masked, h.rawLen7⟩

/-- The flag writers, one for each one-bit register of `K` (R32, R38). -/
def State.setCloseSent (s : State) : State := { s with k := { s.k with closeSent := true } }

/-- `K.closeRecv <- true`. -/
def State.setCloseRecv (s : State) : State := { s with k := { s.k with closeRecv := true } }

/-- `K.timerArmed <- v`. -/
def State.setTimer (v : Bool) (s : State) : State := { s with k := { s.k with timerArmed := v } }

/-- `K.paused <- v`. -/
def State.setPaused (v : Bool) (s : State) : State := { s with k := { s.k with paused := v } }

/-- `K.state <- st`. -/
def State.setConn (st : ConnState) (s : State) : State := { s with k := { s.k with state := st } }

/-- `D.state <- st`. -/
def State.setDec (st : DecState) (s : State) : State := { s with d := { s.d with state := st } }

end Sys2Proof.Machine
end

