-- ==== Sys2Proof/Machine/Utf8.lean ====
section
/-! DEFINITION. Well-formed UTF-8 (42_dispatch.md R192): the table of nine byte-group shapes and the
predicate it defines. The spec marks the table as general knowledge. -/

namespace Sys2Proof.Machine

/-- The nine shapes of R192: for each byte of a group its least and greatest value. -/
def utf8Shapes : List (List (Nat × Nat)) :=
  [ [(0x00, 0x7F)],
    [(0xC2, 0xDF), (0x80, 0xBF)],
    [(0xE0, 0xE0), (0xA0, 0xBF), (0x80, 0xBF)],
    [(0xE1, 0xEC), (0x80, 0xBF), (0x80, 0xBF)],
    [(0xED, 0xED), (0x80, 0x9F), (0x80, 0xBF)],
    [(0xEE, 0xEF), (0x80, 0xBF), (0x80, 0xBF)],
    [(0xF0, 0xF0), (0x90, 0xBF), (0x80, 0xBF), (0x80, 0xBF)],
    [(0xF1, 0xF3), (0x80, 0xBF), (0x80, 0xBF), (0x80, 0xBF)],
    [(0xF4, 0xF4), (0x80, 0x8F), (0x80, 0xBF), (0x80, 0xBF)] ]

/-- The byte lies in the inclusive range. -/
def inByteRange (r : Nat × Nat) (b : Byte) : Bool := r.1 ≤ b.toNat && b.toNat ≤ r.2

/-- What follows a group of this shape at the head of `s`. -/
def stripShape : List (Nat × Nat) → Bytes → Option Bytes
  | [], s => some s
  | _ :: _, [] => none
  | r :: rs, b :: s => if inByteRange r b then stripShape rs s else none

/-- What follows a group of one of these shapes at the head of `s`. -/
def stripGroup : List (List (Nat × Nat)) → Bytes → Option Bytes
  | [], _ => none
  | shape :: shapes, s =>
    match stripShape shape s with
    | some rest => some rest
    | none => stripGroup shapes s

/-- `s` is a concatenation of at most `fuel` groups. -/
def utf8Groups : Nat → Bytes → Bool
  | _, [] => true
  | 0, _ :: _ => false
  | fuel + 1, b :: s =>
    match stripGroup utf8Shapes (b :: s) with
    | some rest => utf8Groups fuel rest
    | none => false

/-- `utf8_wellformed(s)` (R192): a group has at least one byte, so `len(s)` groups are enough. -/
def utf8Wellformed (s : Bytes) : Bool := utf8Groups s.length s

end Sys2Proof.Machine
end

