-- ==== Sys2Proof/Machine/Operands.lean ====
section
/-! DEFINITION. The operands of frames and commands: header fields, length forms, the close payload and the
fragments of a message. -/

namespace Sys2Proof.Machine

/-- The header registers after AWAITING_HEADER has written its fields (41_decoder.md R151): `effLen` and
`key` keep their values. -/
def Header.load (b : BaseHeader) (h : Header) : Header :=
  { h with
    fin := b.fin
    rsv := b.rsv
    opcode := b.opcode
    masked := b.masked
    rawLen7 := b.rawLen7
    extLen := none }

/-- The length form the LEN7 field selects (30_encoding.md R92). -/
def lenForm (len7 : BitVec 7) : LenForm :=
  if len7.toNat ≤ 125 then .len7 else if len7.toNat = 126 then .len16 else .len64

/-- The key of four wire bytes (30_encoding.md R95). -/
def keyOf (bs : Bytes) : Key := ⟨bs.getD 0 0, bs.getD 1 0, bs.getD 2 0, bs.getD 3 0⟩

/-- `parseClose(p)` (42_dispatch.md R187, 30_encoding.md R108): the optional 2-byte code and the reason;
`none` when the payload is malformed. -/
def parseClose : Bytes → Option (Option U16 × Bytes)
  | [] => some (none, [])
  | [_] => none
  | b0 :: b1 :: reason =>
    if utf8Wellformed reason then some (some (BitVec.ofNat 16 (be [b0, b1])), reason) else none

/-- The 2-byte payload of a close code (43_encoder.md R211 to R213). -/
def codeBytes (code : U16) : Bytes := toBe 2 code.toNat

/-- The payload of a close echo: the code alone, or nothing (43_encoder.md R212). -/
def echoPayload : Option U16 → Bytes
  | some code => codeBytes code
  | none => []

/-- The transmitted frame that opens or holds a message of this kind (43_encoder.md R202, R203). -/
def messageFrame (kind : MsgKind) (fin : Bool) (p : Bytes) : Instr :=
  match kind with
  | .text => .txText fin p
  | .binary => .txBinary fin p

/-- The kind of message a SEND_MESSAGE opcode names: 1 text, 2 binary, no other (43_encoder.md R206,
R214). -/
def sendKind (op : BitVec 4) : Option MsgKind :=
  if op = 1 then some .text else if op = 2 then some .binary else none

/-- `piece(k)`: payload bytes `k*F` to `min((k+1)*F, L) - 1` (43_encoder.md R207). -/
def fragmentPiece (payload : Bytes) (f k : Nat) : Bytes := (payload.drop (k * f)).take f

/-- The frames of a message sent in fragments of `f` bytes, in order (43_encoder.md R207): one frame when it
fits, else the first with the message's opcode and FIN = 0, then continuations, the last with FIN = 1. -/
def fragments (kind : MsgKind) (payload : Bytes) (f : Nat) : List Instr :=
  if payload.length ≤ f then [messageFrame kind true payload]
  else
    let n := (payload.length + f - 1) / f
    messageFrame kind false (fragmentPiece payload f 0) ::
      (List.range (n - 2)).map (fun k => .txCont false (fragmentPiece payload f (k + 1))) ++
      [.txCont true (fragmentPiece payload f (n - 1))]

end Sys2Proof.Machine
end

