-- ==== Sys2Proof/Machine/Ops.lean ====
section
/-! DEFINITION. The shared operations: outputs, the failure entry (the block's exception entry), delivery of
a message, the transmission of close frames, and the guards received and transmitted frames run under.
There is no return from a failure (60_exceptions.md R313), so nothing stands beside its entry. -/

namespace Sys2Proof.Machine

/-- The outcome of a step of this block. -/
abbrev Outcome := Host.Outcome State Fault Refusal

/-! ### Outputs (00_scope.md R9, R10) -/

/-- Append one output to the trace `OUT`. -/
def State.output (o : Output) (s : State) : State := { s with out := s.out ++ [o] }

/-- `TX.write(bytes)` (10_state.md R47). -/
def State.txWrite (bytes : Bytes) (s : State) : State := s.output (.txWrite bytes)

/-- `TX.end()` (10_state.md R47). -/
def State.txEnd (s : State) : State := s.output .txEnd

/-- `emit EV.event` (10_state.md R48). -/
def State.emit (e : Event) (s : State) : State := s.output (.ev e)

/-! ### Closing -/

/-- Transmit a close frame: the frame is written and `K.closeSent` is set (10_state.md R32, 43_encoder.md
R205). -/
def State.transmitClose (payload : Bytes) (s : State) : State :=
  (s.txWrite (encodeFrame true 8 payload)).setCloseSent

/-- `if K.state = OPEN: K.state <- CLOSING` (42_dispatch.md R188, 60_exceptions.md R310). -/
def State.passClosing (s : State) : State := if s.isOpen then s.setConn .closing else s

/-- Entry into CLOSED (44_connection.md R238, R244): the timer is cancelled whatever the path. -/
def State.enterClosed (s : State) : State := (s.setTimer false).setConn .closed

/-- The local close (44_connection.md R237): the close frame, then CLOSING with the timer armed. -/
def State.localClose (payload : Bytes) (s : State) : State :=
  ((s.transmitClose payload).setConn .closing).setTimer true

/-- The peer's close frame with this parsed payload (42_dispatch.md R188). -/
def State.closeReceived (code : Option U16) (reason : Bytes) (s : State) : State :=
  let s := s.setCloseRecv.passClosing
  let s := if s.k.closeSent then s else s.transmitClose (echoPayload code)
  ((s.emit (.close code reason)).setTimer false).txEnd.enterClosed

/-! ### The failure entry -/

/-- `raise Fail(code, kind)` (60_exceptions.md R310): what is recorded, the two events, the close frame if
none was sent yet, and the way to CLOSED. -/
def raiseFail (code : U16) (kind : Kind) (s : State) : State :=
  let s := { s with d := ⟨.failed, some code, some kind⟩ }
  let s := s.emit (.error kind)
  let s := if s.k.closeSent then s else s.transmitClose (codeBytes code)
  let s := s.passClosing
  ((s.emit (.close (some code) [])).setTimer false).txEnd.enterClosed

/-- Close code 1002 (60_exceptions.md R301). -/
def protocolViolation (s : State) : State := raiseFail 1002 .protocolViolation s

/-- Close code 1009 (R302). -/
def payloadTooLarge (s : State) : State := raiseFail 1009 .payloadTooLarge s

/-- Close code 1007 (R303). -/
def invalidPayload (s : State) : State := raiseFail 1007 .invalidPayload s

/-! ### Messages -/

/-- `deliver(opcode, bytes)` (42_dispatch.md R185, R186). -/
def deliver (kind : MsgKind) (bytes : Bytes) (s : State) : State :=
  if kind == .text && s.cfg.textUtf8Check && !utf8Wellformed bytes then invalidPayload s
  else if s.isOpen then s.emit (.message kind bytes)
  else s

/-- A text or binary frame (42_dispatch.md R181, R182, R189): a message in progress makes it a failure;
with FIN = 1 it is a whole message, with FIN = 0 it starts the accumulator. -/
def startMessage (kind : MsgKind) (fin : Bool) (p : Bytes) (s : State) : State :=
  if s.a.active then protocolViolation s
  else if fin then deliver kind p s
  else { s with a := ⟨true, some kind, p⟩ }

/-! ### The guards frames run under -/

/-- A received frame with this opcode and payload: without effect when the decoder does not run
(60_exceptions.md R320, R321, 41_decoder.md R166), a failure 1009 when it is too large (R160, the first in
the order of 60_exceptions.md R309), else its dispatch. -/
def receiveFrame (op : BitVec 4) (p : Bytes) (s : State) (dispatch : State → Outcome) : Outcome :=
  if !s.decoding then .next s
  else if s.tooLarge op p.length then .next (payloadTooLarge s)
  else dispatch s

/-- A transmitted frame (44_connection.md R236, 43_encoder.md R214): written in OPEN when its payload is
within the limit, else without effect. -/
def transmitFrame (fin : Bool) (op : BitVec 4) (p : Bytes) (fits : Bool) (s : State) : Outcome :=
  if s.isOpen && fits then .next (s.txWrite (encodeFrame fin op p)) else .next s

end Sys2Proof.Machine
end

