-- ==== Sys2Proof/Machine/Control.lean ====
section
/-! DEFINITION. The received control frames CLOSE, PING and PONG (42_dispatch.md R187, R188, R190, R191). In
CLOSING only CLOSE has outputs (R193). -/

namespace Sys2Proof.Machine

/-- `CLOSE` (R187, R188). -/
def execClose (p : Bytes) (s : State) : Outcome :=
  receiveFrame 8 p s fun s =>
    match parseClose p with
    | none => .next (protocolViolation s)
    | some (code, reason) => .next (s.closeReceived code reason)

/-- `PING` (R190): the pong first, then the event. -/
def execPing (p : Bytes) (s : State) : Outcome :=
  receiveFrame 9 p s fun s =>
    if s.isOpen then .next ((s.txWrite (encodeFrame true 10 p)).emit (.ping p)) else .next s

/-- `PONG` (R191): the event only. -/
def execPong (p : Bytes) (s : State) : Outcome :=
  receiveFrame 10 p s fun s => if s.isOpen then .next (s.emit (.pong p)) else .next s

end Sys2Proof.Machine
end

