-- ==== Sys2Proof/Machine/Data.lean ====
section
/-! DEFINITION. The received data frames CONT, TEXT and BINARY (42_dispatch.md R181 to R184, R189). -/

namespace Sys2Proof.Machine

/-- `CONT` (R183, R184). The final fragment clears the accumulator before the message is delivered. -/
def execCont (fin : Bool) (p : Bytes) (s : State) : Outcome :=
  receiveFrame 0 p s fun s =>
    if !s.a.active then .next (protocolViolation s)
    else if fin then
      match s.a.opcode with
      | some kind => .next (deliver kind (s.a.buf ++ p) { s with a := .created })
      | none => .fault .accumulatorWithoutOpcode
    else .next { s with a := { s.a with buf := s.a.buf ++ p } }

/-- `TEXT` (R181, R182). -/
def execText (fin : Bool) (p : Bytes) (s : State) : Outcome :=
  receiveFrame 1 p s fun s => .next (startMessage .text fin p s)

/-- `BINARY` (R181, R189). -/
def execBinary (fin : Bool) (p : Bytes) (s : State) : Outcome :=
  receiveFrame 2 p s fun s => .next (startMessage .binary fin p s)

end Sys2Proof.Machine
end

