-- ==== Sys2Proof/Machine/Transmit.lean ====
section
/-! DEFINITION. The transmitted frames (43_encoder.md R202 to R205, R208, R210). -/

namespace Sys2Proof.Machine

/-- `TX_CONT` (R204). -/
def execTxCont (fin : Bool) (p : Bytes) (s : State) : Outcome := transmitFrame fin 0 p (sendFits p) s

/-- `TX_TEXT` (R202). -/
def execTxText (fin : Bool) (p : Bytes) (s : State) : Outcome := transmitFrame fin 1 p (sendFits p) s

/-- `TX_BINARY` (R203). -/
def execTxBinary (fin : Bool) (p : Bytes) (s : State) : Outcome := transmitFrame fin 2 p (sendFits p) s

/-- `TX_CLOSE` (R205) by itself is the local close (44_connection.md R237); a payload that is no close
payload is without effect (43_encoder.md R214). DEDUCED (entry 11). The echo and the failure close write
the same frame through `State.transmitClose`. -/
def execTxClose (p : Bytes) (s : State) : Outcome :=
  if s.isOpen && controlFits p && (parseClose p).isSome then .next (s.localClose p) else .next s

/-- `TX_PING` (R208). -/
def execTxPing (p : Bytes) (s : State) : Outcome := transmitFrame true 9 p (controlFits p) s

/-- `TX_PONG` (R210). -/
def execTxPong (p : Bytes) (s : State) : Outcome := transmitFrame true 10 p (controlFits p) s

end Sys2Proof.Machine
end

