-- ==== Sys2Proof/Machine/Dispatch.lean ====
section
/-! DEFINITION. The meaning of every instruction, one arm for each constructor. -/

namespace Sys2Proof.Machine

def exec (i : Instr) (s : State) : Host.Outcome State Fault Refusal :=
  match i with
  -- received frames
  | .cont fin _ _ p => Sys2Proof.Machine.execCont fin p s
  | .text fin _ _ p => Sys2Proof.Machine.execText fin p s
  | .binary fin _ _ p => Sys2Proof.Machine.execBinary fin p s
  | .close _ p => Sys2Proof.Machine.execClose p s
  | .ping _ p => Sys2Proof.Machine.execPing p s
  | .pong _ p => Sys2Proof.Machine.execPong p s
  -- transmitted frames
  | .txCont fin p => Sys2Proof.Machine.execTxCont fin p s
  | .txText fin p => Sys2Proof.Machine.execTxText fin p s
  | .txBinary fin p => Sys2Proof.Machine.execTxBinary fin p s
  | .txClose p => Sys2Proof.Machine.execTxClose p s
  | .txPing p => Sys2Proof.Machine.execTxPing p s
  | .txPong p => Sys2Proof.Machine.execTxPong p s

end Sys2Proof.Machine
end

