-- ==== Sys2Proof/Machine/Decoder.lean ====
section
/-! DEFINITION. The FrameDecoder (41_decoder.md): one micro-step for each state, and the drain. A frame whose
payload has arrived is run by `exec`. -/

namespace Sys2Proof.Machine

/-- The number of bytes the decoder's state needs (41_decoder.md R150). -/
def State.needed (s : State) : Nat :=
  match s.d.state with
  | .awaitingHeader => 2
  | .awaitingExtLen16 => 2
  | .awaitingExtLen64 => 8
  | .awaitingMaskKey => Config.keyBytes
  | .awaitingPayload => s.h.effLen.toNat
  | .failed => 0

/-- The state AWAITING_HEADER leads to after its checks (R156). -/
def afterHeader (s : State) : State :=
  if s.h.rawLen7.toNat ≤ 125 then
    { s with h := { s.h with effLen := BitVec.ofNat 63 s.h.rawLen7.toNat } }.setDec .awaitingMaskKey
  else if s.h.rawLen7.toNat = 126 then s.setDec .awaitingExtLen16
  else s.setDec .awaitingExtLen64

/-- AWAITING_HEADER (R151 to R156): the two bytes are consumed and the fields written before the checks. -/
def microHeader (s : State) : Micro :=
  match s.c.tryConsume 2 with
  | none => .suspended
  | some (bs, c) =>
    let s := { s with c := c, h := s.h.load (baseHeader (bs.getD 0 0) (bs.getD 1 0)) }
    match headerFault s.h.base with
    | some _ => .ran (.next (protocolViolation s))
    | none => .ran (.next (afterHeader s))

/-- AWAITING_EXT_LEN16 (R157). -/
def microExtLen16 (s : State) : Micro :=
  match s.c.tryConsume 2 with
  | none => .suspended
  | some (bs, c) =>
    let s := { s with
      c := c
      h := { s.h with extLen := some (BitVec.ofNat 64 (be bs)), effLen := BitVec.ofNat 63 (be bs) } }
    .ran (.next (s.setDec .awaitingMaskKey))

/-- AWAITING_EXT_LEN64 (R158): the value is recorded before its top bit is checked. -/
def microExtLen64 (s : State) : Micro :=
  match s.c.tryConsume 8 with
  | none => .suspended
  | some (bs, c) =>
    let s := { s with c := c, h := { s.h with extLen := some (BitVec.ofNat 64 (be bs)) } }
    if be bs < 2 ^ Config.lenBits then
      .ran (.next ({ s with h := { s.h with effLen := BitVec.ofNat 63 (be bs) } }.setDec .awaitingMaskKey))
    else .ran (.next (protocolViolation s))

/-- AWAITING_MASK_KEY (R159). -/
def microMaskKey (s : State) : Micro :=
  match s.c.tryConsume Config.keyBytes with
  | none => .suspended
  | some (bs, c) =>
    let s := { s with c := c, h := { s.h with key := keyOf bs } }
    .ran (.next (s.setDec .awaitingPayload))

/-- Run the frame of the header registers with the unmasked payload `p` (R163, 42_dispatch.md R180). -/
def runFrame (p : Bytes) (s : State) : Outcome :=
  match rxInstr s.h.opcode s.h.fin (lenForm s.h.rawLen7) s.h.key p with
  | some i => exec i s
  | none => .fault .undispatchableOpcode

/-- AWAITING_PAYLOAD (R160 to R163, R168): the size check before consuming, the payload in one piece, then
the frame. -/
def microPayload (s : State) : Micro :=
  if s.tooLarge s.h.opcode s.h.effLen.toNat then .ran (.next (payloadTooLarge s))
  else
    match s.c.tryConsume s.h.effLen.toNat with
    | none => .suspended
    | some (w, c) =>
      .ran (runFrame (unmask w s.h.key) ({ s with c := c }.setDec .awaitingHeader))

/-- One micro-step of the decoder (R150); FAILED has none (R166). -/
def microStep (s : State) : Micro :=
  match s.d.state with
  | .awaitingHeader => microHeader s
  | .awaitingExtLen16 => microExtLen16 s
  | .awaitingExtLen64 => microExtLen64 s
  | .awaitingMaskKey => microMaskKey s
  | .awaitingPayload => microPayload s
  | .failed => .suspended

/-- The drain loop, at most `fuel` micro-steps (R165). -/
def drainLoop : Nat → State → Outcome
  | 0, s => .next s
  | fuel + 1, s =>
    if s.decoding then
      match microStep s with
      | .suspended => .next s
      | .ran (.next s') => drainLoop fuel s'
      | .ran o => o
    else .next s

/-- The drain (R165). Every micro-step that does not suspend or fail consumes at least 2 bytes, but for a
zero-length payload, which a header step follows; so twice the buffered bytes are micro-steps enough
(DEDUCED, entry 13). -/
def drain (s : State) : Outcome := drainLoop (2 * s.c.total + 2) s

end Sys2Proof.Machine
end

