-- ==== Sys2Proof/Machine/Base64.lean ====
section
/-! DEFINITION. Base64 with the standard alphabet and padding, and its strict inverse (45_handshake.md
R269, R270). The spec marks both as general knowledge. -/

namespace Sys2Proof.Machine

/-- The padding character `=`. -/
def base64Pad : Byte := 0x3D

/-- The character of a 6-bit value: `A..Z`, `a..z`, `0..9`, `+`, `/` (R269). -/
def base64Char (v : Nat) : Byte :=
  BitVec.ofNat 8
    (if v < 26 then 0x41 + v
     else if v < 52 then 0x61 + (v - 26)
     else if v < 62 then 0x30 + (v - 52)
     else if v = 62 then 0x2B
     else 0x2F)

/-- The 6-bit value of a character of the alphabet. -/
def base64Value (ch : Byte) : Option Nat :=
  let n := ch.toNat
  if 0x41 ≤ n ∧ n ≤ 0x5A then some (n - 0x41)
  else if 0x61 ≤ n ∧ n ≤ 0x7A then some (n - 0x61 + 26)
  else if 0x30 ≤ n ∧ n ≤ 0x39 then some (n - 0x30 + 52)
  else if n = 0x2B then some 62
  else if n = 0x2F then some 63
  else none

/-- `base64(b)` (R269). -/
def base64 : Bytes → Bytes
  | [] => []
  | [x] => [base64Char (x.toNat / 4), base64Char (x.toNat % 4 * 16), base64Pad, base64Pad]
  | [x, y] =>
    [base64Char (x.toNat / 4), base64Char (x.toNat % 4 * 16 + y.toNat / 16),
     base64Char (y.toNat % 16 * 4), base64Pad]
  | x :: y :: z :: rest =>
    base64Char (x.toNat / 4) :: base64Char (x.toNat % 4 * 16 + y.toNat / 16) ::
      base64Char (y.toNat % 16 * 4 + z.toNat / 64) :: base64Char (z.toNat % 64) :: base64 rest

/-- The bytes of a last group before padding or of a full group; the unused low bits are ignored (R270). -/
def base64Byte (n : Nat) : Byte := BitVec.ofNat 8 n

/-- `base64_decode(s)` (R270): only the alphabet, `=` only as the last or the last two characters, the
length a multiple of 4. -/
def base64Decode : Bytes → Option Bytes
  | [] => some []
  | c0 :: c1 :: c2 :: c3 :: rest =>
    match base64Value c0, base64Value c1 with
    | some v0, some v1 =>
      if rest.isEmpty && c3 == base64Pad then
        if c2 == base64Pad then some [base64Byte (v0 * 4 + v1 / 16)]
        else
          match base64Value c2 with
          | some v2 => some [base64Byte (v0 * 4 + v1 / 16), base64Byte (v1 % 16 * 16 + v2 / 4)]
          | none => none
      else
        match base64Value c2, base64Value c3, base64Decode rest with
        | some v2, some v3, some bs =>
          some (base64Byte (v0 * 4 + v1 / 16) :: base64Byte (v1 % 16 * 16 + v2 / 4) ::
            base64Byte (v2 % 4 * 64 + v3) :: bs)
        | _, _, _ => none
    | _, _ => none
  | _ => none

end Sys2Proof.Machine
end

