-- ==== Sys2Proof/Machine/Sha1.lean ====
section
/-! DEFINITION. SHA-1 over the handshake's working registers (45_handshake.md R271 to R277). The spec marks
the algorithm as general knowledge, checked against the source's example. -/

namespace Sys2Proof.Machine

/-- `rotl(x, k)` (R277). -/
def rotl (x : Word32) (k : Nat) : Word32 := (x <<< k) ||| (x >>> (32 - k))

/-- Padding (R271): `80`, the least number of zeros that leaves 56 modulo 64, the length in bits as eight
bytes. -/
def sha1Pad (m : Bytes) : Bytes :=
  let n := m.length
  m ++ 0x80 :: (List.replicate ((119 - n % 64) % 64) 0 ++ toBe 8 (8 * n))

/-- The 64-byte blocks of a padded message, at most `fuel` of them. -/
def sha1Blocks : Nat → Bytes → List Bytes
  | 0, _ => []
  | fuel + 1, bs => if bs.isEmpty then [] else bs.take 64 :: sha1Blocks fuel (bs.drop 64)

/-- The first `n` big-endian words of a block. -/
def blockWords : Nat → Bytes → List Word32
  | 0, _ => []
  | n + 1, bs => BitVec.ofNat 32 (be (bs.take 4)) :: blockWords n (bs.drop 4)

/-- `n` further words of the message schedule. The list is newest first, so `W[t-3]`, `W[t-8]`, `W[t-14]`
and `W[t-16]` stand at places 2, 7, 13 and 15 (R273). -/
def extendSchedule : Nat → List Word32 → List Word32
  | 0, ws => ws
  | n + 1, ws =>
    extendSchedule n (rotl (ws.getD 2 0 ^^^ ws.getD 7 0 ^^^ ws.getD 13 0 ^^^ ws.getD 15 0) 1 :: ws)

/-- The message schedule `W[0..79]` of a block (R273). -/
def sha1Schedule (block : Bytes) : List Word32 :=
  (extendSchedule 64 (blockWords 16 block).reverse).reverse

/-- The round function `f(b, c, d)` of round `t` (R274). -/
def sha1F (t : Nat) (b c d : Word32) : Word32 :=
  if t < 20 then (b &&& c) ||| (~~~b &&& d)
  else if t < 40 then b ^^^ c ^^^ d
  else if t < 60 then (b &&& c) ||| (b &&& d) ||| (c &&& d)
  else b ^^^ c ^^^ d

/-- The round constant `k` of round `t` (R274). -/
def sha1K (t : Nat) : Word32 :=
  if t < 20 then 0x5A827999
  else if t < 40 then 0x6ED9EBA1
  else if t < 60 then 0x8F1BBCDC
  else 0xCA62C1D6

/-- Round `t` with schedule word `wt` (R275). -/
def sha1Round (t : Nat) (wt : Word32) (r : Sha1Regs) : Sha1Regs :=
  { r with
    a := rotl r.a 5 + sha1F t r.b r.c r.d + r.e + sha1K t + wt
    b := r.a
    c := rotl r.b 30
    d := r.c
    e := r.d }

/-- The rounds from `t` on, one for each remaining schedule word. -/
def sha1Rounds : Nat → List Word32 → Sha1Regs → Sha1Regs
  | _, [], r => r
  | t, wt :: ws, r => sha1Rounds (t + 1) ws (sha1Round t wt r)

/-- Compression of one block (R275). -/
def sha1Block (r : Sha1Regs) (block : Bytes) : Sha1Regs :=
  let w := sha1Schedule block
  let r1 := sha1Rounds 0 w { r with w := w, a := r.h0, b := r.h1, c := r.h2, d := r.h3, e := r.h4 }
  { r1 with
    h0 := r1.h0 + r1.a
    h1 := r1.h1 + r1.b
    h2 := r1.h2 + r1.c
    h3 := r1.h3 + r1.d
    h4 := r1.h4 + r1.e }

/-- The initial chaining values, loaded at the start of every digest (R272). -/
def sha1Load (r : Sha1Regs) : Sha1Regs :=
  { r with h0 := 0x67452301, h1 := 0xEFCDAB89, h2 := 0x98BADCFE, h3 := 0x10325476, h4 := 0xC3D2E1F0 }

/-- The working registers after the digest of `m` has been computed on them (R271 to R275). -/
def sha1Run (r : Sha1Regs) (m : Bytes) : Sha1Regs :=
  let padded := sha1Pad m
  (sha1Blocks padded.length padded).foldl sha1Block (sha1Load r)

/-- The digest in the chaining registers: 20 bytes (R276). -/
def sha1Digest (r : Sha1Regs) : Bytes :=
  toBe 4 r.h0.toNat ++ toBe 4 r.h1.toNat ++ toBe 4 r.h2.toNat ++ toBe 4 r.h3.toNat ++ toBe 4 r.h4.toNat

/-- `SHA1(m)`. -/
def sha1 (m : Bytes) : Bytes := sha1Digest (sha1Run .created m)

end Sys2Proof.Machine
end

