-- ==== Sys2Proof/Machine/Handshake.lean ====
section
/-! DEFINITION. The HandshakeNegotiator (45_handshake.md): the five checks, the accept value and the two
responses. It has no state between requests but the SHA-1 working registers it computes on (R260). -/

namespace Sys2Proof.Machine

/-! ### Strings (R266) -/

/-- Space or horizontal tab. -/
def isBlankByte (b : Byte) : Bool := b == 0x20 || b == 0x09

/-- The value without leading and trailing spaces and tabs. -/
def trimmed (s : Bytes) : Bytes := ((s.dropWhile isBlankByte).reverse.dropWhile isBlankByte).reverse

/-- ASCII lower case: `41..5A` become `61..7A`, nothing else changes. -/
def lowerByte (b : Byte) : Byte := if 0x41 ≤ b.toNat && b.toNat ≤ 0x5A then b + 0x20 else b

/-- Equality without regard to ASCII letter case. -/
def sameNoCase (s t : Bytes) : Bool := s.map lowerByte == t.map lowerByte

/-- The pieces between commas (`2C`). -/
def splitCommas : Bytes → List Bytes
  | [] => [[]]
  | b :: rest =>
    if b == 0x2C then [] :: splitCommas rest
    else
      match splitCommas rest with
      | [] => [[b]]
      | piece :: pieces => (b :: piece) :: pieces

/-- A decimal digit. -/
def isDigitByte (b : Byte) : Bool := 0x30 ≤ b.toNat && b.toNat ≤ 0x39

/-- The number of a decimal numeral without sign or leading zeros (R265). -/
def decimalNumeral (s : Bytes) : Option Nat :=
  if s == [0x30] then some 0
  else if !s.isEmpty && s.all isDigitByte && s.head? != some 0x30 then
    some (s.foldl (fun acc b => acc * 10 + (b.toNat - 0x30)) 0)
  else none

/-- The trimmed value of a header, by lower-cased name; `none` when it is absent (10_state.md R50). -/
def headerValue (headers : Headers) (name : String) : Option Bytes :=
  (headers.lookup (Config.ascii name)).map trimmed

/-! ### The five checks -/

/-- Check 1 (R261): the method is exactly `GET`. -/
def methodOk (method : Bytes) : Bool := method == Config.ascii "GET"

/-- Check 2 (R262). -/
def upgradeOk (headers : Headers) : Bool :=
  match headerValue headers "upgrade" with
  | some v => sameNoCase v (Config.ascii "websocket")
  | none => false

/-- Check 3 (R263). -/
def connectionOk (headers : Headers) : Bool :=
  match headers.lookup (Config.ascii "connection") with
  | some v => (splitCommas v).any fun piece => sameNoCase (trimmed piece) (Config.ascii "upgrade")
  | none => false

/-- Check 4 (R264). -/
def keyOk (headers : Headers) : Bool :=
  match headerValue headers "sec-websocket-key" with
  | some v =>
    match base64Decode v with
    | some nonce => nonce.length == Config.nonceBytes
    | none => false
  | none => false

/-- Check 5 (R265). -/
def versionOk (cfg : Params) (headers : Headers) : Bool :=
  match headerValue headers "sec-websocket-version" with
  | some v =>
    match decimalNumeral v with
    | some n => cfg.acceptedVersions.contains n
    | none => false
  | none => false

/-! ### The result -/

/-- The HTTP statuses of a rejection: 400 and 405 (R261 to R265). -/
inductive RejectStatus where
  | badRequest
  | methodNotAllowed
  deriving DecidableEq, Repr

/-- The result of `negotiate` (R260). -/
inductive Negotiation where
  | accept (acceptValue : Bytes)
  | reject (status : RejectStatus) (extraHeaders : List (Bytes × Bytes))
  deriving DecidableEq, Repr

/-- The bytes the accept value hashes: the trimmed key text, not the decoded bytes, and the GUID (R267). -/
def acceptMessage (headers : Headers) : Bytes :=
  (headerValue headers "sec-websocket-key").getD [] ++ Config.guid

/-- `accept = base64(SHA1(key ++ GUID))` for a key text (R267). -/
def acceptValue (key : Bytes) : Bytes := base64 (sha1 (key ++ Config.guid))

/-- `negotiate(method, headers)` (R260): the checks in order, the first failure decides. An accepted
request computes its accept value on the SHA-1 registers; a rejected one leaves them. -/
def negotiate (cfg : Params) (sha : Sha1Regs) (method : Bytes) (headers : Headers) :
    Negotiation × Sha1Regs :=
  if !methodOk method then (.reject .methodNotAllowed [], sha)
  else if !upgradeOk headers then (.reject .badRequest [], sha)
  else if !connectionOk headers then (.reject .badRequest [], sha)
  else if !keyOk headers then (.reject .badRequest [], sha)
  else if !versionOk cfg headers then
    (.reject .badRequest [(Config.ascii "Sec-WebSocket-Version", Config.ascii "13")], sha)
  else
    let regs := sha1Run sha (acceptMessage headers)
    (.accept (base64 (sha1Digest regs)), regs)

/-! ### Responses -/

/-- Carriage return and line feed. -/
def crlf : Bytes := [0x0D, 0x0A]

/-- `response101(accept)` (R280, R281). -/
def response101 (accept : Bytes) : Bytes :=
  Config.ascii "HTTP/1.1 101 Switching Protocols" ++ crlf ++
  Config.ascii "Upgrade: websocket" ++ crlf ++
  Config.ascii "Connection: Upgrade" ++ crlf ++
  Config.ascii "Sec-WebSocket-Accept: " ++ accept ++ crlf ++ crlf

/-- The status line of an error response (R282). -/
def statusLine : RejectStatus → Bytes
  | .badRequest => Config.ascii "HTTP/1.1 400 Bad Request" ++ crlf
  | .methodNotAllowed => Config.ascii "HTTP/1.1 405 Method Not Allowed" ++ crlf

/-- `responseError(status, extraHeaders)` (R282). -/
def responseError (status : RejectStatus) (extraHeaders : List (Bytes × Bytes)) : Bytes :=
  statusLine status ++
  (extraHeaders.map fun h => h.1 ++ Config.ascii ": " ++ h.2 ++ crlf).flatten ++ crlf

end Sys2Proof.Machine
end

