-- ==== Sys2Proof/Machine/Connection.lean ====
section
/-! DEFINITION. The ConnectionStateMachine (44_connection.md): what each input event does in each connection
state. A cell the spec calls "no effect" changes nothing (R230; DESIGN CHOICE between the two treatments it
allows, entry 8). -/

namespace Sys2Proof.Machine

/-- `create C, D, H, A` (R232, 70_reset_and_hazards.md R342). -/
def State.createDecoder (s : State) : State :=
  { s with c := .created, d := .created, h := .created, a := .created }

/-- `HS_REQUEST` (R232). -/
def hsRequest (method : Bytes) (headers : Headers) (s : State) : Outcome :=
  match s.k.state with
  | .connecting =>
    let r := negotiate s.cfg s.sha method headers
    let s := { s with sha := r.2 }
    match r.1 with
    | .accept value =>
      .next (((s.txWrite (response101 value)).createDecoder.setConn .opened).emit .connectionOpened)
    | .reject status extra => .next (s.txWrite (responseError status extra)).txEnd.enterClosed
  | .opened => .next s
  | .closing => .next s
  | .closed => .next s

/-- `RX_CHUNK` (R233, R234, R235, R247). -/
def rxChunk (bytes : Bytes) (s : State) : Outcome :=
  match s.k.state with
  | .connecting => .next s
  | .opened => drain { s with c := s.c.append bytes }
  | .closing => drain { s with c := s.c.append bytes }
  | .closed => .next s

/-- `RX_END` (R239, R240). In CONNECTING it closes the connection with no output, as the table R230 and R239
say; the last sentence of 10_state.md R45 says otherwise (DEDUCED, entry 22). -/
def rxEnd (s : State) : Outcome :=
  match s.k.state with
  | .connecting => .next s.enterClosed
  | .opened => .next s.txEnd.enterClosed
  | .closing => .next s.txEnd.enterClosed
  | .closed => .next s

/-- `RX_ERROR` (R241): no `TX.end()` on a failed socket. In CONNECTING it closes the connection with no output,
as the table R230 and R241 say, against the last sentence of 10_state.md R45 (DEDUCED, entry 22). -/
def rxError (s : State) : Outcome :=
  match s.k.state with
  | .connecting => .next s.enterClosed
  | .opened => .next (s.emit (.error .transportError)).enterClosed
  | .closing => .next (s.emit (.error .transportError)).enterClosed
  | .closed => .next s

/-- `TIMER_EXPIRE` (R243): only in CLOSING and only while armed. -/
def timerExpire (s : State) : Outcome :=
  match s.k.state with
  | .connecting => .next s
  | .opened => .next s
  | .closing => if s.k.timerArmed then .next s.txEnd.enterClosed else .next s
  | .closed => .next s

/-- Drive the level `RX_PAUSE` (R245, R246): the trace shows a change of level only (DEDUCED, entry 9). -/
def drivePause (level : Bool) (s : State) : State :=
  if s.k.paused = level then s else (s.setPaused level).output (.rxPause level)

/-- `PAUSE` (R245) and `RESUME` (R246). -/
def pauseResume (level : Bool) (s : State) : Outcome :=
  match s.k.state with
  | .connecting => .next s
  | .opened => .next (drivePause level s)
  | .closing => .next (drivePause level s)
  | .closed => .next s

/-- Run frames one after another, stopping at the first that does not give a next state. -/
def execAll : List Instr → State → Outcome
  | [], s => .next s
  | i :: rest, s =>
    match exec i s with
    | .next s' => execAll rest s'
    | o => o

/-- `SEND_MESSAGE` (43_encoder.md R206, R207, R214): without effect outside OPEN, for an opcode other than
text or binary, a payload of `2^63` bytes or more, or fragments of 0 bytes. -/
def sendMessage (op : BitVec 4) (payload : Bytes) (frag : Option Nat) (s : State) : Outcome :=
  match sendKind op with
  | none => .next s
  | some kind =>
    if s.isOpen && sendFits payload then
      match frag with
      | none => exec (messageFrame kind true payload) s
      | some f => if f = 0 then .next s else execAll (fragments kind payload f) s
    else .next s

/-- `SEND_PING` (43_encoder.md R208). -/
def sendPing (payload : Bytes) (s : State) : Outcome := exec (.txPing payload) s

/-- `SEND_PONG` (43_encoder.md R209). -/
def sendPong (payload : Bytes) (s : State) : Outcome := exec (.txPong payload) s

/-- `CLOSE` (R237, 43_encoder.md R211): the code is always there, the reason has at most 123 bytes of
UTF-8. -/
def closeCommand (code : U16) (reason : Bytes) (s : State) : Outcome :=
  if reason.length ≤ 123 && utf8Wellformed reason then exec (.txClose (codeBytes code ++ reason)) s
  else .next s

/-- The model's own encoder port: run the transmitted frame these bytes are, if they are exactly one; any other
bytes, a frame with MASK = 1 among them, have no effect (DESIGN CHOICE, entry 5). -/
def txFrameInput (bytes : Bytes) (s : State) : Outcome :=
  match decodeTx bytes with
  | .ok (i, []) => exec i s
  | .ok (_, _ :: _) => .next s
  | .error _ => .next s

/-- One input event (10_state.md R49, R230). -/
def handleInput (input : Input) (s : State) : Outcome :=
  match input with
  | .hsRequest method headers => hsRequest method headers s
  | .rxChunk bytes => rxChunk bytes s
  | .rxEnd => rxEnd s
  | .rxError => rxError s
  | .timerExpire => timerExpire s
  | .sendMessage op payload frag => sendMessage op payload frag s
  | .sendPing payload => sendPing payload s
  | .sendPong payload => sendPong payload s
  | .close code reason => closeCommand code reason s
  | .pause => pauseResume true s
  | .resume => pauseResume false s
  | .txFrame bytes => txFrameInput bytes s

/-- Take the oldest input event and process it to completion (00_scope.md R11). Without one the connection
waits: nothing changes (44_connection.md R248, entry 7). -/
def takeInput (s : State) : Outcome :=
  match s.inputs with
  | [] => .next s
  | input :: rest => handleInput input { s with inputs := rest }

end Sys2Proof.Machine
end

