-- ==== Sys2Proof/Machine/Step.lean ====
section
/-! DEFINITION. One step of a connection: the processing of one input event (00_scope.md R11), and how an
instruction is placed where the next step fetches it. -/

namespace Sys2Proof.Machine

/-- One step (00_scope.md R11, 10_state.md R49). -/
def step (s : State) : Host.Outcome State Fault Refusal := takeInput s

/-- The state in which the very next step fetches and runs the frame whose first `nbits` bits are `w`
(numbered as opcode_table.json numbers them) and whose other bits are zero (entry 6). A received frame
(MASK = 1) arrives as one chunk at a decoder that awaits a header with nothing buffered; a transmitted
frame stands at the encoder's port. The connection is put in OPEN, where an accepted handshake leaves it,
unless it is in a state the frame runs in already. -/
def State.withFetchWord (s : State) (nbits w : Nat) : State :=
  let frame := tableFrame nbits w
  if (frame.getD 1 0).getLsbD 7 then
    { s with
      k := { s.k with state := if s.k.state = .closing then .closing else .opened }
      c := { s.c with chunks := [], off := 0, total := 0 }
      d := .created
      inputs := .rxChunk frame :: s.inputs }
  else
    { s with
      k := { s.k with state := .opened }
      inputs := .txFrame frame :: s.inputs }

end Sys2Proof.Machine
end

