-- ==== Sys2Proof/Machine/System.lean ====
section
/-! DEFINITION. Several connections (10_state.md R52): the product of their states. A step of the system is
a step of one connection; nothing is shared. -/

namespace Sys2Proof.Machine

/-- A step of connection `n` of a system. A number no connection has, or a connection that stops, leaves
the system as it is. -/
def systemStep (n : Nat) (sys : List State) : List State :=
  match sys[n]? with
  | none => sys
  | some s =>
    match step s with
    | .next s' => sys.set n s'
    | .fault _ => sys
    | .refused _ => sys

end Sys2Proof.Machine
end

