-- ==== Sys2Proof/Safety.lean ====
section
/-! DEFINITION. What counts as a legal state and a safe step, in the terms the claims use: the invariant of
the state between two steps, the invariant of the output trace, the mode order, which header registers are
live, and the state the decoder leaves when it has fetched a frame. -/

namespace Sys2Proof.Machine

/-! ### The invariant of the state between two steps -/

/-- The accumulator (10_state.md R34): when inactive it is empty and has no opcode, when active it has one
and holds at most MAX_PAYLOAD bytes. -/
def accumulatorInv (s : State) : Bool :=
  if s.a.active then s.a.opcode.isSome && decide (s.a.buf.length ≤ s.cfg.maxPayload)
  else s.a.opcode.isNone && s.a.buf.isEmpty

/-- The connection flags in each mode (10_state.md R38, 44_connection.md R231, R238, R244, R249): the timer
is armed exactly in CLOSING, no close frame has been sent before CLOSING and one has in CLOSING, and the
peer's close has been dispatched only in CLOSED, after one was sent. -/
def connectionInv (s : State) : Bool :=
  (s.k.timerArmed == (s.k.state == .closing)) &&
  (match s.k.state with
    | .connecting => !s.k.closeSent && !s.k.closeRecv && !s.k.paused
    | .opened => !s.k.closeSent && !s.k.closeRecv
    | .closing => s.k.closeSent && !s.k.closeRecv
    | .closed => !s.k.closeRecv || s.k.closeSent)

/-- The failure record (10_state.md R31, 60_exceptions.md R301 to R303, R310): present exactly in FAILED,
one of the three code and kind pairs, and the connection is then CLOSED. -/
def failureInv (s : State) : Bool :=
  match s.d.state with
  | .failed =>
    s.k.state == .closed &&
    ((s.d.failCode == some 1002 && s.d.failKind == some .protocolViolation) ||
     (s.d.failCode == some 1009 && s.d.failKind == some .payloadTooLarge) ||
     (s.d.failCode == some 1007 && s.d.failKind == some .invalidPayload))
  | _ => s.d.failCode.isNone && s.d.failKind.isNone

/-- `H.effLen` and `H.extLen` agree with `H.rawLen7` (10_state.md R26, R29). -/
def lengthInv (h : Header) : Bool :=
  if h.rawLen7.toNat ≤ 125 then h.extLen.isNone && h.effLen.toNat == h.rawLen7.toNat
  else
    match h.extLen with
    | none => false
    | some v =>
      v.toNat == h.effLen.toNat && (h.rawLen7.toNat != 126 || decide (v.toNat < 2 ^ 16))

/-- What the header registers hold in each decoder state (10_state.md R26 to R29, 41_decoder.md R150). -/
def headerInv (s : State) : Bool :=
  match s.d.state with
  | .awaitingHeader => true
  | .awaitingExtLen16 =>
    (headerFault s.h.base).isNone && s.h.rawLen7.toNat == 126 && s.h.extLen.isNone
  | .awaitingExtLen64 =>
    (headerFault s.h.base).isNone && s.h.rawLen7.toNat == 127 && s.h.extLen.isNone
  | .awaitingMaskKey => (headerFault s.h.base).isNone && lengthInv s.h
  | .awaitingPayload => (headerFault s.h.base).isNone && lengthInv s.h
  | .failed => true

/-- In OPEN and CLOSING the decoder is suspended for want of bytes (20_memory.md R73). -/
def quiescent (s : State) : Bool :=
  match s.k.state with
  | .connecting => true
  | .opened =>
    decide (s.c.total < s.needed) &&
    !(s.d.state == .awaitingPayload && s.tooLarge s.h.opcode s.h.effLen.toNat)
  | .closing =>
    decide (s.c.total < s.needed) &&
    !(s.d.state == .awaitingPayload && s.tooLarge s.h.opcode s.h.effLen.toNat)
  | .closed => true

/-- Before the handshake nothing has happened (70_reset_and_hazards.md R341). -/
def unopenedInv (s : State) : Bool :=
  match s.k.state with
  | .connecting => s.c == .created && s.d == .created && s.a == .created && s.out.isEmpty
  | _ => true

/-- The invariant of a connection between two steps. -/
def State.inv (s : State) : Bool :=
  Memory.wf s && accumulatorInv s && connectionInv s && failureInv s && headerInv s && quiescent s &&
    unopenedInv s && s.sha.w.length == 80

/-! ### The invariant of the output trace -/

/-- A write of a close frame: its first byte is FIN = 1 with opcode 8 (30_encoding.md R106). No handshake
response begins with that byte. -/
def isCloseWrite : Output → Bool
  | .txWrite bytes => bytes.head? == some 0x88
  | _ => false

/-- Any write on TX. -/
def isTxWrite : Output → Bool
  | .txWrite _ => true
  | _ => false

/-- The end of the transmit stream. -/
def isTxEnd : Output → Bool
  | .txEnd => true
  | _ => false

/-- After a close frame or the end of TX nothing is written (10_state.md R47, 44_connection.md R236). -/
def quietAfterClose : List Output → Bool
  | [] => true
  | o :: rest =>
    (if isCloseWrite o || isTxEnd o then rest.all (fun o => !isTxWrite o) else true) &&
      quietAfterClose rest

/-- The invariant of the trace: the close frames written are as many as `K.closeSent` says, none or one; TX
is ended at most once, and only in CLOSED; nothing is written after either. -/
def State.traceInv (s : State) : Bool :=
  s.out.countP isCloseWrite == s.k.closeSent.toNat &&
  decide (s.out.countP isTxEnd ≤ 1) &&
  (s.out.countP isTxEnd == 0 || s.k.state == .closed) &&
  quietAfterClose s.out

/-- The transmit stream: the bytes of all writes in order (20_memory.md R62). -/
def txStream : List Output → Bytes
  | [] => []
  | .txWrite bytes :: rest => bytes ++ txStream rest
  | .txEnd :: rest => txStream rest
  | .rxPause _ :: rest => txStream rest
  | .ev _ :: rest => txStream rest

/-! ### Modes -/

/-- The order of the connection states (10_state.md R36). -/
def ConnState.rank : ConnState → Nat
  | .connecting => 0
  | .opened => 1
  | .closing => 2
  | .closed => 3

/-- The changes of `K.state` a step may make (10_state.md R36, 44_connection.md R231), or none. -/
def legalTransition : ConnState → ConnState → Bool
  | .connecting, .connecting => true
  | .connecting, .opened => true
  | .connecting, .closed => true
  | .opened, .opened => true
  | .opened, .closing => true
  | .opened, .closed => true
  | .closing, .closing => true
  | .closing, .closed => true
  | .closed, .closed => true
  | _, _ => false

/-! ### Live header registers -/

/-- The two register files agree on the registers that were written since the header of the current frame
was fetched, in decoder state `st` (10_state.md R26, R27). -/
def sameLive (st : DecState) (h h' : Header) : Prop :=
  match st with
  | .awaitingHeader => True
  | .failed => True
  | .awaitingExtLen16 =>
    h.fin = h'.fin ∧ h.opcode = h'.opcode ∧ h.rawLen7 = h'.rawLen7
  | .awaitingExtLen64 =>
    h.fin = h'.fin ∧ h.opcode = h'.opcode ∧ h.rawLen7 = h'.rawLen7
  | .awaitingMaskKey =>
    h.fin = h'.fin ∧ h.opcode = h'.opcode ∧ h.rawLen7 = h'.rawLen7 ∧ h.effLen = h'.effLen
  | .awaitingPayload =>
    h.fin = h'.fin ∧ h.opcode = h'.opcode ∧ h.rawLen7 = h'.rawLen7 ∧ h.effLen = h'.effLen ∧
      h.key = h'.key

/-- Two outcomes are the same kind of outcome, and their next states are related. -/
def outcomesRelated (r : State → State → Prop) : Outcome → Outcome → Prop
  | .next t, .next t' => r t t'
  | .fault f, .fault f' => f = f'
  | .refused e, .refused e' => e = e'
  | _, _ => False

/-! ### What the handshake's checks ask for, in the terms of the rules -/

/-- `v` is `t` with spaces and tabs before and after it (45_handshake.md R266). -/
def isPadded (v t : Bytes) : Prop :=
  ∃ before after : Bytes, v = before ++ t ++ after ∧
    (∀ b ∈ before, b = 0x20 ∨ b = 0x09) ∧ ∀ b ∈ after, b = 0x20 ∨ b = 0x09

/-- `t` is the lower-case ASCII text `name` but for letters `41..5A` where `name` has `61..7A` (R266). -/
def spells (t : Bytes) (name : String) : Prop :=
  List.Forall₂ (fun x y => x = y ∨ 0x41 ≤ x.toNat ∧ x.toNat ≤ 0x5A ∧ y.toNat = x.toNat + 0x20)
    t (Config.ascii name)

/-- Check 2 (R262): the `Upgrade` header is there and is `websocket`. -/
def asksForWebsocket (headers : Headers) : Prop :=
  ∃ v t, headers.lookup (Config.ascii "upgrade") = some v ∧ isPadded v t ∧ spells t "websocket"

/-- Check 3 (R263): the `Connection` header is there, and a piece of it between commas is `upgrade`. -/
def listsUpgrade (headers : Headers) : Prop :=
  ∃ v before piece after t, headers.lookup (Config.ascii "connection") = some v ∧
    v = before ++ piece ++ after ∧ (before = [] ∨ before.getLast? = some 0x2C) ∧
    (after = [] ∨ after.head? = some 0x2C) ∧ isPadded piece t ∧ spells t "upgrade"

/-- Check 4 (R264): the `Sec-WebSocket-Key` header is there, and its trimmed value `key` has 24 characters,
the first 22 of the base64 alphabet and the last two `==`. -/
def offersKey (headers : Headers) (key : Bytes) : Prop :=
  ∃ v, headers.lookup (Config.ascii "sec-websocket-key") = some v ∧ isPadded v key ∧
    key.length = 24 ∧ (∀ ch ∈ key.take 22, (base64Value ch).isSome = true) ∧
    key.drop 22 = [0x3D, 0x3D]

/-- The decimal numeral of `n` in ASCII, without leading zeros. -/
def numeral (n : Nat) : Bytes :=
  if n = 0 then [0x30] else (Nat.digits 10 n).reverse.map fun d => BitVec.ofNat 8 (0x30 + d)

/-- Check 5 (R265): the `Sec-WebSocket-Version` header is there, and its trimmed value is the numeral of an
accepted version. -/
def offersVersion (cfg : Params) (headers : Headers) : Prop :=
  ∃ v n, headers.lookup (Config.ascii "sec-websocket-version") = some v ∧
    n ∈ cfg.acceptedVersions ∧ isPadded v (numeral n)

/-! ### Fetching a frame -/

/-- The length form of a received frame; control frames have only the 7-bit form (30_encoding.md R102). -/
def rxForm : Instr → LenForm
  | .cont _ form _ _ => form
  | .text _ form _ _ => form
  | .binary _ form _ _ => form
  | _ => .len7

/-- The header registers after the decoder has read the header of a received frame (10_state.md R26). -/
def headerOf (i : Instr) : Header where
  fin := i.fin
  rsv := 0
  opcode := i.opcode
  masked := true
  rawLen7 := BitVec.ofNat 7 ((rxForm i).field i.payload.length)
  extLen :=
    match rxForm i with
    | .len7 => none
    | .len16 => some (BitVec.ofNat 64 i.payload.length)
    | .len64 => some (BitVec.ofNat 64 i.payload.length)
  effLen := BitVec.ofNat 63 i.payload.length
  key := i.key?.getD ⟨0, 0, 0, 0⟩

/-- Continue after a frame has run: the drain goes on from the next state. -/
def drainAfter : Outcome → Outcome
  | .next t => drain t
  | o => o

/-! ### Chunk boundaries -/

/-- The two end states are the same to every observer, and the same in all the decoder's state unless the
connection is CLOSED (41_decoder.md R167). -/
def sameDecoded (t t' : State) : Prop :=
  t.out = t'.out ∧ t.k = t'.k ∧
  (t.k.state ≠ .closed →
    t.d = t'.d ∧ t.h = t'.h ∧ t.a = t'.a ∧ t.c.bytes = t'.c.bytes ∧ t.c.pos = t'.c.pos)

end Sys2Proof.Machine
end

