-- ==== Sys2Proof/Certificates/Slice0/Obligations.lean ====
section
/-! DEFINITION. The statements for the provers, one `def Obligations.<Name> : Prop` each; OBLIGATIONS.json
lists them. A statement that rests on a decision or an inference the spec marks as its own says so. -/

open Sys2Proof Sys2Proof.Machine

/-! ### Encoding -/

/-- Six frames written out byte by byte from the encoding tables (30_encoding.md R91, R92, R98, R107), one of
each family: a text, a continuation, a close and a ping received, a text and a close transmitted. -/
def Obligations.DecodesWordsWrittenFromTheTables : Prop :=
  decode [0x81, 0x85, 0x37, 0xFA, 0x21, 0x3D, 0x7F, 0x9F, 0x4D, 0x51, 0x58] =
    .ok (.text true .len7 ⟨0x37, 0xFA, 0x21, 0x3D⟩ [0x48, 0x65, 0x6C, 0x6C, 0x6F], []) ∧
  decode [0x00, 0xFE, 0x00, 0x01, 0x01, 0x02, 0x03, 0x04, 0x49, 0x77] =
    .ok (.cont false .len16 ⟨0x01, 0x02, 0x03, 0x04⟩ [0x48], [0x77]) ∧
  decode [0x88, 0x82, 0x12, 0x34, 0x56, 0x78, 0x11, 0xDC] =
    .ok (.close ⟨0x12, 0x34, 0x56, 0x78⟩ [0x03, 0xE8], []) ∧
  decode [0x89, 0x80, 0xFF, 0xFF, 0xFF, 0xFF] = .ok (.ping ⟨0xFF, 0xFF, 0xFF, 0xFF⟩ [], []) ∧
  decode [0x81, 0x02, 0x48, 0x69] = .ok (.txText true [0x48, 0x69], []) ∧
  decode [0x88, 0x02, 0x03, 0xEA] = .ok (.txClose [0x03, 0xEA], [])

/-- Decoding the encoding of a well-formed frame, whatever follows it, gives the frame back with every
operand, and the bytes that follow (30_encoding.md R92, R94 to R96, R106). -/
def Obligations.DecodeOfEncodeIsTheFrame : Prop :=
  ∀ (i : Instr) (rest : Bytes), i.wf = true → decode (encode i ++ rest) = .ok (i, rest)

/-- What the decoder reads is well-formed, and encoding it gives back exactly the bytes consumed: no two byte
strings decode to one frame and no byte of a frame is ignored (30_encoding.md R92, R104, R106). -/
def Obligations.EncodeOfDecodeIsTheBytes : Prop :=
  ∀ (bs : Bytes) (i : Instr) (rest : Bytes),
    decode bs = .ok (i, rest) → i.wf = true ∧ encode i ++ rest = bs

/-- The header checks pass exactly on the six mask-and-match patterns of 30_encoding.md R98 (received) and
R107 (transmitted), with LEN7 ≤ 125 in control frames. R98 and R107 are marked as derived by the spec. -/
def Obligations.LegalHeadersAreTheTablePatterns : Prop :=
  ∀ b0 b1 : Byte,
    (headerFault (baseHeader b0 b1) = none ↔
      (b0 ++ b1) &&& 0x7F80#16 = 0x0080#16 ∨ (b0 ++ b1) &&& 0x7F80#16 = 0x0180#16 ∨
      (b0 ++ b1) &&& 0x7F80#16 = 0x0280#16 ∨
      ((b0 ++ b1) &&& 0xFF80#16 = 0x8880#16 ∨ (b0 ++ b1) &&& 0xFF80#16 = 0x8980#16 ∨
        (b0 ++ b1) &&& 0xFF80#16 = 0x8A80#16) ∧ (b1 &&& 0x7F#8).toNat ≤ 125) ∧
    (txHeaderFault (baseHeader b0 b1) = none ↔
      (b0 ++ b1) &&& 0x7F80#16 = 0x0000#16 ∨ (b0 ++ b1) &&& 0x7F80#16 = 0x0100#16 ∨
      (b0 ++ b1) &&& 0x7F80#16 = 0x0200#16 ∨
      ((b0 ++ b1) &&& 0xFF80#16 = 0x8800#16 ∨ (b0 ++ b1) &&& 0xFF80#16 = 0x8900#16 ∨
        (b0 ++ b1) &&& 0xFF80#16 = 0x8A00#16) ∧ (b1 &&& 0x7F#8).toNat ≤ 125)

/-- `be` and `to_be` are inverse where `to_be` is defined (00_scope.md R8). -/
def Obligations.BigEndianNumbersAreInverse : Prop :=
  (∀ n v : Nat, v < 256 ^ n → (toBe n v).length = n ∧ be (toBe n v) = v) ∧
  (∀ s : Bytes, be s < 256 ^ s.length ∧ toBe s.length (be s) = s)

/-- 41_decoder.md R162: unmasking keeps the length, XORs byte `i` with `key[i mod 4]`, and is its own
inverse. -/
def Obligations.UnmaskIsXorWithTheCyclicKey : Prop :=
  ∀ (w : Bytes) (key : Key),
    (unmask w key).length = w.length ∧
    (∀ (i : Nat) (b k : Byte), w[i]? = some b → key.bytes[i % 4]? = some k →
      (unmask w key)[i]? = some (b ^^^ k)) ∧
    unmask (unmask w key) key = w

/-- 43_encoder.md R200: the bytes of a transmitted frame in each of the three length forms. -/
def Obligations.EncodeFrameLayout : Prop :=
  ∀ (fin : Bool) (op : BitVec 4) (p : Bytes), legalOpcode op = true → p.length < 2 ^ 63 →
    (p.length ≤ 125 →
      encodeFrame fin op p =
        BitVec.ofNat 8 (fin.toNat * 128 + op.toNat) :: BitVec.ofNat 8 p.length :: p) ∧
    (125 < p.length → p.length ≤ 65535 →
      encodeFrame fin op p =
        BitVec.ofNat 8 (fin.toNat * 128 + op.toNat) :: 0x7E#8 :: (toBe 2 p.length ++ p)) ∧
    (65535 < p.length →
      encodeFrame fin op p =
        BitVec.ofNat 8 (fin.toNat * 128 + op.toNat) :: 0x7F#8 :: (toBe 8 p.length ++ p))

/-- The relation between the two directions (43_encoder.md R216, marked as derived): a transmitted frame has
RSV = 0 and MASK = 0, and with MASK set, the key inserted after the length bytes and the payload masked it is
a received frame with the same FIN, opcode and payload. -/
def Obligations.MaskedTransmittedFrameIsReceivedFrame : Prop :=
  ∀ (fin : Bool) (op : BitVec 4) (p : Bytes) (key : Key),
    legalOpcode op = true → p.length < 2 ^ 63 →
    (controlOpcode op = true → fin = true ∧ p.length ≤ 125) →
    ∃ (b0 b1 : Byte) (ext : Bytes) (i : Instr),
      encodeFrame fin op p = b0 :: b1 :: (ext ++ p) ∧
      b0.extractLsb' 4 3 = 0 ∧ b1.getLsbD 7 = false ∧
      decode (b0 :: (b1 ||| 0x80#8) :: (ext ++ key.bytes ++ unmask p key)) = .ok (i, []) ∧
      i.received = true ∧ i.fin = fin ∧ i.opcode = op ∧ i.payload = p

/-- 42_dispatch.md R192 (marked as general knowledge): a byte string is well-formed UTF-8 exactly when it is
a concatenation of groups, each of one of the nine shapes. -/
def Obligations.Utf8IsConcatenationOfShapes : Prop :=
  ∀ s : Bytes,
    utf8Wellformed s = true ↔
      ∃ groups : List Bytes, s = groups.flatten ∧
        ∀ g ∈ groups, ∃ shape ∈ utf8Shapes,
          List.Forall₂ (fun (r : Nat × Nat) (b : Byte) => r.1 ≤ b.toNat ∧ b.toNat ≤ r.2) shape g

/-! ### ByteCursor -/

/-- 40_bytecursor.md R133, 20_memory.md R69: `tryConsume(n)` returns exactly the first `n` buffered bytes and
removes them (whole chunks that are emptied are dropped, and the offset is what was taken of the new front
chunk), or answers NeedMore. -/
def Obligations.TryConsumeIsExactOrNothing : Prop :=
  ∀ (c : Cursor) (n : Nat), c.wf = true →
    (n ≤ c.total →
      ∃ c', c.tryConsume n = some (c.bytes.take n, c') ∧ c'.bytes = c.bytes.drop n ∧
        c'.total = c.total - n ∧ c'.pos = c.pos + n ∧ c'.wf = true ∧
        ∃ k, c'.chunks = c.chunks.drop k ∧
          c'.off + (c.chunks.take k).flatten.length = c.off + n) ∧
    (c.total < n → c.tryConsume n = none)

/-- 20_memory.md R66: reading in two parts gives the same bytes and leaves the same cursor as one read, and
no result depends on where the chunk boundaries fall. -/
def Obligations.ReadsDoNotSeeChunkBoundaries : Prop :=
  (∀ (c : Cursor) (n m : Nat), c.wf = true → n + m ≤ c.total →
    ∃ r1 c1 r2 c2, c.tryConsume n = some (r1, c1) ∧ c1.tryConsume m = some (r2, c2) ∧
      c.tryConsume (n + m) = some (r1 ++ r2, c2)) ∧
  (∀ (c c' : Cursor), c.wf = true → c'.wf = true → c.bytes = c'.bytes →
    (∀ n, (c.tryConsume n).map Prod.fst = (c'.tryConsume n).map Prod.fst) ∧
    (∀ n r r' d d', c.tryConsume n = some (r, d) → c'.tryConsume n = some (r', d') →
      d.bytes = d'.bytes) ∧
    c.availableBytes = c'.availableBytes ∧
    (∀ chunk, (c.append chunk).bytes = (c'.append chunk).bytes) ∧
    (∀ o, c.peekUint8 o = c'.peekUint8 o ∧ c.peekUint16BE o = c'.peekUint16BE o ∧
      c.peekUint32BE o = c'.peekUint32BE o ∧ c.peekUint64BE o = c'.peekUint64BE o))

/-- 40_bytecursor.md R131, R132, R134 to R138: `append` adds the chunk at the tail and nothing else,
`availableBytes` is the number of buffered bytes, and the four peeks read big-endian numbers at an offset from
the head. That an empty chunk is not queued, and the peeks' answer with too few bytes, are decision D6. -/
def Obligations.AppendAndPeeks : Prop :=
  ∀ (c : Cursor) (chunk : Bytes) (o : Nat), c.wf = true →
    ((c.append chunk).wf = true ∧ (c.append chunk).bytes = c.bytes ++ chunk ∧
      (c.append chunk).availableBytes = c.bytes.length + chunk.length ∧
      (c.append chunk).pos = c.pos ∧ c.availableBytes = c.bytes.length ∧ c.append [] = c) ∧
    (∀ b, c.bytes[o]? = some b → c.peekUint8 o = some b.toNat) ∧
    (∀ b0 b1, c.bytes[o]? = some b0 → c.bytes[o + 1]? = some b1 →
      c.peekUint16BE o = some (b0.toNat * 256 + b1.toNat)) ∧
    (o + 4 ≤ c.bytes.length → ∃ v, c.peekUint32BE o = some v ∧ v < 2 ^ 32 ∧
      toBe 4 v = (c.bytes.drop o).take 4) ∧
    (o + 8 ≤ c.bytes.length → ∃ v, c.peekUint64BE o = some v ∧ v < 2 ^ 64 ∧
      toBe 8 v = (c.bytes.drop o).take 8) ∧
    (c.bytes.length < o + 1 → c.peekUint8 o = none) ∧
    (c.bytes.length < o + 2 → c.peekUint16BE o = none) ∧
    (c.bytes.length < o + 4 → c.peekUint32BE o = none) ∧
    (c.bytes.length < o + 8 → c.peekUint64BE o = none)

/-! ### The decoder's micro-steps and the drain -/

/-- 41_decoder.md R152 to R155 (and 30_encoding.md R100 to R102): a chunk that completes a header with a
reserved bit, a reserved opcode, MASK = 0, or a control opcode with FIN = 0 or LEN7 > 125 raises the failure
1002 of kind ProtocolViolation, with the header's two bytes consumed and its fields written (R151), and nothing
else happens in the step. That the bytes are consumed before the checks is decision D18. -/
def Obligations.IllegalHeadersFailWith1002 : Prop :=
  ∀ (s : State) (chunk : Bytes) (rest : List Input) (b0 b1 : Byte) (tail : Bytes),
    (s.k.state = .opened ∨ s.k.state = .closing) → s.d.state = .awaitingHeader → s.c.wf = true →
    s.inputs = .rxChunk chunk :: rest → s.c.bytes ++ chunk = b0 :: b1 :: tail →
    (b0.extractLsb' 4 3 ≠ 0 ∨
      b0.extractLsb' 0 4 ∉ [0#4, 1#4, 2#4, 8#4, 9#4, 10#4] ∨
      b1.getLsbD 7 = false ∨
      b0.extractLsb' 0 4 ∈ [8#4, 9#4, 10#4] ∧
        (b0.getLsbD 7 = false ∨ 125 < (b1.extractLsb' 0 7).toNat)) →
    ∃ c' : Cursor, c'.bytes = tail ∧ c'.pos = s.c.pos + 2 ∧ c'.wf = true ∧
      step s = .next (raiseFail 1002 .protocolViolation { s with
        inputs := rest
        c := c'
        h := { fin := b0.getLsbD 7, rsv := b0.extractLsb' 4 3, opcode := b0.extractLsb' 0 4,
               masked := b1.getLsbD 7, rawLen7 := b1.extractLsb' 0 7, extLen := none,
               effLen := s.h.effLen, key := s.h.key } })

/-- 41_decoder.md R151, R156: a legal header is consumed, its fields written, and LEN7 selects the next
state; nothing else changes. That the bytes are consumed before the checks is decision D18. -/
def Obligations.LegalHeadersAreFetched : Prop :=
  ∀ (s : State) (b0 b1 : Byte) (tail : Bytes),
    s.d.state = .awaitingHeader → s.c.wf = true → s.c.bytes = b0 :: b1 :: tail →
    headerFault (baseHeader b0 b1) = none →
    ∃ (c' : Cursor) (st : DecState) (eff : BitVec 63),
      c'.bytes = tail ∧ c'.pos = s.c.pos + 2 ∧ c'.wf = true ∧
      microStep s = .ran (.next { s with
        c := c'
        d := { s.d with state := st }
        h := { fin := b0.getLsbD 7, rsv := b0.extractLsb' 4 3, opcode := b0.extractLsb' 0 4,
               masked := b1.getLsbD 7, rawLen7 := b1.extractLsb' 0 7, extLen := none, effLen := eff,
               key := s.h.key } }) ∧
      ((b1.extractLsb' 0 7).toNat ≤ 125 →
        st = .awaitingMaskKey ∧ eff.toNat = (b1.extractLsb' 0 7).toNat) ∧
      ((b1.extractLsb' 0 7).toNat = 126 → st = .awaitingExtLen16 ∧ eff = s.h.effLen) ∧
      ((b1.extractLsb' 0 7).toNat = 127 → st = .awaitingExtLen64 ∧ eff = s.h.effLen)

/-- 41_decoder.md R157, R158, R159: the two extended lengths and the masking key, with the bytes each state
needs, the registers it writes and the state it leads to; with fewer bytes the micro-step suspends. -/
def Obligations.ExtendedLengthAndKeyAreFetched : Prop :=
  (∀ (s : State) (e0 e1 : Byte) (tail : Bytes),
    s.d.state = .awaitingExtLen16 → s.c.wf = true → s.c.bytes = e0 :: e1 :: tail →
    ∃ c' : Cursor, c'.bytes = tail ∧ c'.pos = s.c.pos + 2 ∧ c'.wf = true ∧
      microStep s = .ran (.next { s with
        c := c'
        d := { s.d with state := .awaitingMaskKey }
        h := { s.h with
          extLen := some (BitVec.ofNat 64 (e0.toNat * 256 + e1.toNat))
          effLen := BitVec.ofNat 63 (e0.toNat * 256 + e1.toNat) } })) ∧
  (∀ (s : State) (e tail : Bytes),
    s.d.state = .awaitingExtLen64 → s.c.wf = true → e.length = 8 → s.c.bytes = e ++ tail →
    ∃ c' : Cursor, c'.bytes = tail ∧ c'.pos = s.c.pos + 8 ∧ c'.wf = true ∧
      (be e < 2 ^ 63 →
        microStep s = .ran (.next { s with
          c := c'
          d := { s.d with state := .awaitingMaskKey }
          h := { s.h with
            extLen := some (BitVec.ofNat 64 (be e))
            effLen := BitVec.ofNat 63 (be e) } })) ∧
      (2 ^ 63 ≤ be e →
        microStep s = .ran (.next (raiseFail 1002 .protocolViolation { s with
          c := c'
          h := { s.h with extLen := some (BitVec.ofNat 64 (be e)) } })))) ∧
  (∀ (s : State) (k0 k1 k2 k3 : Byte) (tail : Bytes),
    s.d.state = .awaitingMaskKey → s.c.wf = true → s.c.bytes = k0 :: k1 :: k2 :: k3 :: tail →
    ∃ c' : Cursor, c'.bytes = tail ∧ c'.pos = s.c.pos + 4 ∧ c'.wf = true ∧
      microStep s = .ran (.next { s with
        c := c'
        d := { s.d with state := .awaitingPayload }
        h := { s.h with key := ⟨k0, k1, k2, k3⟩ } })) ∧
  (∀ s : State, s.c.wf = true →
    (s.d.state = .awaitingExtLen16 → s.c.bytes.length < 2 → microStep s = .suspended) ∧
    (s.d.state = .awaitingExtLen64 → s.c.bytes.length < 8 → microStep s = .suspended) ∧
    (s.d.state = .awaitingMaskKey → s.c.bytes.length < 4 → microStep s = .suspended))

/-- 41_decoder.md R160: the size check comes before the payload is awaited, and it fails with 1009 whatever
is buffered. That a continuation counts the accumulated size is decision D14. -/
def Obligations.OversizedFrameFailsBeforeItsPayload : Prop :=
  ∀ s : State, s.d.state = .awaitingPayload →
    (s.cfg.maxPayload < s.h.effLen.toNat ∨
      s.h.opcode = 0 ∧ s.a.active = true ∧ s.cfg.maxPayload < s.a.buf.length + s.h.effLen.toNat) →
    microStep s = .ran (.next (raiseFail 1009 .payloadTooLarge s))

/-- 41_decoder.md R161, R162: a payload that passes the size check is taken in one piece when all of it is
buffered, unmasked, and its frame run with the decoder back in AWAITING_HEADER; until then the micro-step
suspends. -/
def Obligations.PayloadIsFetchedWholeAndRun : Prop :=
  ∀ s : State, s.d.state = .awaitingPayload → s.c.wf = true →
    s.h.effLen.toNat ≤ s.cfg.maxPayload →
    (s.h.opcode = 0 → s.a.active = true →
      s.a.buf.length + s.h.effLen.toNat ≤ s.cfg.maxPayload) →
    (s.c.bytes.length < s.h.effLen.toNat → microStep s = .suspended) ∧
    (∀ (w tail : Bytes) (i : Instr), s.c.bytes = w ++ tail → w.length = s.h.effLen.toNat →
      rxInstr s.h.opcode s.h.fin (lenForm s.h.rawLen7) s.h.key (unmask w s.h.key) = some i →
      ∃ c' : Cursor, c'.bytes = tail ∧ c'.pos = s.c.pos + w.length ∧ c'.wf = true ∧
        microStep s = .ran (exec i { s with
          c := c'
          d := { s.d with state := .awaitingHeader } }))

/-- 41_decoder.md R164: a micro-step suspends exactly when the bytes its state needs are not there, but for
the size check, which is made before and fails with 1009; and a chunk that does not bring the bytes needed
changes nothing but the buffered bytes, or fails so. -/
def Obligations.SuspensionChangesNothing : Prop :=
  (∀ s : State, s.d.state ≠ .failed →
    (microStep s = .suspended → s.c.total < s.needed) ∧
    (s.c.total < s.needed →
      microStep s = .suspended ∨
      s.d.state = .awaitingPayload ∧
        microStep s = .ran (.next (raiseFail 1009 .payloadTooLarge s)))) ∧
  (∀ (s : State) (chunk : Bytes) (rest : List Input),
    (s.k.state = .opened ∨ s.k.state = .closing) → s.d.state ≠ .failed →
    s.inputs = .rxChunk chunk :: rest → s.c.total + chunk.length < s.needed →
    step s = .next { s with inputs := rest, c := s.c.append chunk } ∨
    s.d.state = .awaitingPayload ∧
      step s = .next (raiseFail 1009 .payloadTooLarge
        { s with inputs := rest, c := s.c.append chunk }))

/-- 20_memory.md R73: at the end of an RX_CHUNK step either the connection is CLOSED or the decoder waits, in
a state that is not FAILED, for more bytes than are buffered. -/
def Obligations.DecoderRunsToExhaustion : Prop :=
  ∀ (s t : State) (chunk : Bytes) (rest : List Input),
    (s.k.state = .opened ∨ s.k.state = .closing) → s.d.state ≠ .failed →
    s.inputs = .rxChunk chunk :: rest → step s = .next t →
    t.k.state = .closed ∨ (t.d.state ≠ .failed ∧ t.c.total < t.needed)

/-- 41_decoder.md R167 (marked as derived; the source states it for one frame and two chunks): delivering
chunks one by one gives the same trace and the same K as delivering their concatenation at once, and the same
D, H, A, buffered bytes and position when the connection is not CLOSED. -/
def Obligations.ChunkBoundariesAreInvisible : Prop :=
  ∀ (s : State) (chunks : List Bytes), s.inv = true →
    ∃ t t' : State,
      core.run chunks.length { s with inputs := chunks.map .rxChunk } = .next t ∧
      step { s with inputs := [.rxChunk chunks.flatten] } = .next t' ∧ sameDecoded t t'

/-- A step runs the decoded instruction, received frames: when the buffered bytes with the arriving chunk
decode to the frame `i`, within the size limit, the step is `exec i` in the state the fetch leaves (the bytes
of the frame consumed, the header registers loaded, the decoder at AWAITING_HEADER), and the drain goes on
from there (41_decoder.md R151 to R165). -/
def Obligations.StepRunsTheReceivedFrame : Prop :=
  ∀ (s : State) (chunk : Bytes) (rest : List Input) (i : Instr) (tail : Bytes),
    (s.k.state = .opened ∨ s.k.state = .closing) → s.d.state = .awaitingHeader → s.c.wf = true →
    s.inputs = .rxChunk chunk :: rest →
    decode (s.c.bytes ++ chunk) = .ok (i, tail) → i.received = true →
    s.tooLarge i.opcode i.payload.length = false →
    ∃ c' : Cursor, c'.bytes = tail ∧ c'.pos = s.c.pos + (encode i).length ∧ c'.wf = true ∧
      step s = drainAfter (exec i { s with inputs := rest, c := c', h := headerOf i })

/-- A step runs the decoded instruction, transmitted frames: bytes at the encoder's port that decode to
exactly one transmitted frame run it, and any other bytes have no effect (entry 5 names the port, which is the
model's own). -/
def Obligations.StepRunsTheTransmittedFrame : Prop :=
  ∀ (s : State) (bytes : Bytes) (rest : List Input), s.inputs = .txFrame bytes :: rest →
    (∀ i : Instr, decode bytes = .ok (i, []) → i.received = false →
      step s = exec i { s with inputs := rest }) ∧
    ((∀ i : Instr, i.received = false → decode bytes ≠ .ok (i, [])) →
      step s = .next { s with inputs := rest })

/-! ### Received frames -/

/-- 42_dispatch.md R182, R189: a text or binary frame with no message in progress. With FIN = 1 it is
delivered at once; with FIN = 0 it starts the accumulator. In OPEN the delivery of a text that passes the
text check, or of a binary, is the message event. -/
def Obligations.TextAndBinaryFrames : Prop :=
  ∀ (form : LenForm) (key : Key) (p : Bytes) (s : State),
    (s.k.state = .opened ∨ s.k.state = .closing) → s.d.state ≠ .failed →
    p.length ≤ s.cfg.maxPayload → s.a.active = false →
    exec (.text true form key p) s = .next (deliver .text p s) ∧
    exec (.binary true form key p) s = .next (deliver .binary p s) ∧
    exec (.text false form key p) s =
      .next { s with a := { active := true, opcode := some .text, buf := p } } ∧
    exec (.binary false form key p) s =
      .next { s with a := { active := true, opcode := some .binary, buf := p } } ∧
    (s.k.state = .opened → (s.cfg.textUtf8Check = false ∨ utf8Wellformed p = true) →
      exec (.text true form key p) s = .next { s with out := s.out ++ [.ev (.message .text p)] }) ∧
    (s.k.state = .opened →
      exec (.binary true form key p) s =
        .next { s with out := s.out ++ [.ev (.message .binary p)] })

/-- 42_dispatch.md R185: delivering a message. -/
def Obligations.DeliverHandsOffTheMessage : Prop :=
  ∀ (kind : MsgKind) (bytes : Bytes) (s : State),
    (kind = .text → s.cfg.textUtf8Check = true → utf8Wellformed bytes = false →
      deliver kind bytes s = raiseFail 1007 .invalidPayload s) ∧
    (¬(kind = .text ∧ s.cfg.textUtf8Check = true ∧ utf8Wellformed bytes = false) →
      (s.k.state = .opened →
        deliver kind bytes s = { s with out := s.out ++ [.ev (.message kind bytes)] }) ∧
      (s.k.state ≠ .opened → deliver kind bytes s = s))

/-- 42_dispatch.md R183, R184: a continuation frame. Without a message in progress it fails with 1002; with
FIN = 0 it adds to the accumulator; with FIN = 1 it clears the accumulator and delivers the whole message
under the opcode of its first frame. -/
def Obligations.ContinuationFrames : Prop :=
  ∀ (form : LenForm) (key : Key) (p : Bytes) (s : State),
    (s.k.state = .opened ∨ s.k.state = .closing) → s.d.state ≠ .failed →
    p.length ≤ s.cfg.maxPayload →
    (s.a.active = false → ∀ fin : Bool,
      exec (.cont fin form key p) s = .next (raiseFail 1002 .protocolViolation s)) ∧
    (s.a.active = true → s.a.buf.length + p.length ≤ s.cfg.maxPayload →
      exec (.cont false form key p) s =
        .next { s with a := { s.a with buf := s.a.buf ++ p } } ∧
      ∀ kind : MsgKind, s.a.opcode = some kind →
        exec (.cont true form key p) s =
          .next (deliver kind (s.a.buf ++ p)
            { s with a := { active := false, opcode := none, buf := [] } }) ∧
        (s.k.state = .opened →
          (kind = .binary ∨ s.cfg.textUtf8Check = false ∨ utf8Wellformed (s.a.buf ++ p) = true) →
          exec (.cont true form key p) s =
            .next { s with
              a := { active := false, opcode := none, buf := [] }
              out := s.out ++ [.ev (.message kind (s.a.buf ++ p))] }))

/-- Where received frames fail: a text or binary frame while a message is in progress (42_dispatch.md R181,
decision D16), and any frame over the limit (41_decoder.md R160, decision D14), which comes first
(60_exceptions.md R309). -/
def Obligations.InterleavedAndOversizedFramesFail : Prop :=
  ∀ (fin : Bool) (form : LenForm) (key : Key) (p : Bytes) (s : State),
    (s.k.state = .opened ∨ s.k.state = .closing) → s.d.state ≠ .failed →
    (p.length ≤ s.cfg.maxPayload → s.a.active = true →
      exec (.text fin form key p) s = .next (raiseFail 1002 .protocolViolation s) ∧
      exec (.binary fin form key p) s = .next (raiseFail 1002 .protocolViolation s)) ∧
    (s.cfg.maxPayload < p.length →
      ∀ i ∈ [Instr.cont fin form key p, .text fin form key p, .binary fin form key p, .close key p,
             .ping key p, .pong key p],
        exec i s = .next (raiseFail 1009 .payloadTooLarge s)) ∧
    (s.a.active = true → s.cfg.maxPayload < s.a.buf.length + p.length →
      exec (.cont fin form key p) s = .next (raiseFail 1009 .payloadTooLarge s))

/-- 42_dispatch.md R187, 30_encoding.md R108: the close payload. Which payloads are malformed is decision
D13. -/
def Obligations.ClosePayloadParse : Prop :=
  parseClose [] = some (none, []) ∧
  (∀ b : Byte, parseClose [b] = none) ∧
  (∀ (b0 b1 : Byte) (reason : Bytes),
    (utf8Wellformed reason = true →
      parseClose (b0 :: b1 :: reason) =
        some (some (BitVec.ofNat 16 (b0.toNat * 256 + b1.toNat)), reason)) ∧
    (utf8Wellformed reason = false → parseClose (b0 :: b1 :: reason) = none))

/-- 42_dispatch.md R188: a close frame. The first close is echoed with its code alone, then the event, the
end of TX and CLOSED; when a close was sent before there is no echo; a malformed payload fails with 1002. The
content of the echo and the order of the outputs are decision D19. -/
def Obligations.CloseFrames : Prop :=
  ∀ (key : Key) (p : Bytes) (s : State),
    (s.k.state = .opened ∨ s.k.state = .closing) → s.d.state ≠ .failed →
    p.length ≤ s.cfg.maxPayload →
    (parseClose p = none → exec (.close key p) s = .next (raiseFail 1002 .protocolViolation s)) ∧
    (∀ (code : Option U16) (reason : Bytes), parseClose p = some (code, reason) →
      (s.k.closeSent = false →
        exec (.close key p) s = .next { s with
          k := { state := .closed, closeSent := true, closeRecv := true, timerArmed := false,
                 paused := s.k.paused }
          out := s.out ++
            [.txWrite (encodeFrame true 8
                (match code with | some c => toBe 2 c.toNat | none => [])),
             .ev (.close code reason), .txEnd] }) ∧
      (s.k.closeSent = true →
        exec (.close key p) s = .next { s with
          k := { state := .closed, closeSent := true, closeRecv := true, timerArmed := false,
                 paused := s.k.paused }
          out := s.out ++ [.ev (.close code reason), .txEnd] }))

/-- 42_dispatch.md R190: in OPEN a ping is answered by a pong with the identical payload and surfaced as a
ping event; that the pong comes first is decision D3. In CLOSING it has no output (R193, decision D21). -/
def Obligations.PingFrames : Prop :=
  ∀ (key : Key) (p : Bytes) (s : State), s.d.state ≠ .failed → p.length ≤ s.cfg.maxPayload →
    (s.k.state = .opened →
      exec (.ping key p) s = .next { s with
        out := s.out ++ [.txWrite (encodeFrame true 10 p), .ev (.ping p)] }) ∧
    (s.k.state = .closing → exec (.ping key p) s = .next s)

/-- 42_dispatch.md R191: a pong in OPEN is an event and nothing else. That it has no output in CLOSING is R193,
decision D21. -/
def Obligations.PongFrames : Prop :=
  ∀ (key : Key) (p : Bytes) (s : State), s.d.state ≠ .failed → p.length ≤ s.cfg.maxPayload →
    (s.k.state = .opened →
      exec (.pong key p) s = .next { s with out := s.out ++ [.ev (.pong p)] }) ∧
    (s.k.state = .closing → exec (.pong key p) s = .next s)

/-- 42_dispatch.md R193 (decision D21): in CLOSING a received frame other than CLOSE that leaves the
connection in CLOSING has no output and changes nothing but the accumulator. -/
def Obligations.ClosingSuppressesOutputs : Prop :=
  ∀ (i : Instr) (s t : State), s.k.state = .closing → i.received = true →
    exec i s = .next t → t.k.state = .closing → t = { s with a := t.a }

/-! ### Transmitted frames -/

/-- 43_encoder.md R202, R203, R204: in OPEN a text, binary or continuation frame is written whole, and nothing
else changes. -/
def Obligations.TransmittedDataFramesAreWritten : Prop :=
  ∀ (fin : Bool) (p : Bytes) (s : State), s.k.state = .opened → p.length < 2 ^ 63 →
    exec (.txText fin p) s = .next { s with out := s.out ++ [.txWrite (encodeFrame fin 1 p)] } ∧
    exec (.txBinary fin p) s = .next { s with out := s.out ++ [.txWrite (encodeFrame fin 2 p)] } ∧
    exec (.txCont fin p) s = .next { s with out := s.out ++ [.txWrite (encodeFrame fin 0 p)] }

/-- 43_encoder.md R205, R208, R210, 44_connection.md R237: in OPEN a ping or pong of at most 125 bytes is
written, and a close frame with a close payload is written and takes the connection to CLOSING with the timer
armed. That TX_CLOSE by itself is the local close is entry 11. -/
def Obligations.TransmittedControlFramesAreWritten : Prop :=
  ∀ (p : Bytes) (s : State), s.k.state = .opened → p.length ≤ 125 →
    exec (.txPing p) s = .next { s with out := s.out ++ [.txWrite (encodeFrame true 9 p)] } ∧
    exec (.txPong p) s = .next { s with out := s.out ++ [.txWrite (encodeFrame true 10 p)] } ∧
    (parseClose p ≠ none →
      exec (.txClose p) s = .next { s with
        k := { s.k with state := .closing, closeSent := true, timerArmed := true }
        out := s.out ++ [.txWrite (encodeFrame true 8 p)] })

/-- Frames outside their modes and limits have no effect: received frames outside OPEN and CLOSING or in
FAILED (60_exceptions.md R320, R321, 41_decoder.md R166), transmitted frames outside OPEN (44_connection.md
R236, decision D23) and beyond a format limit (43_encoder.md R214, decision D24). A TX_CLOSE whose payload is no
close payload of 30_encoding.md R108 has none either (entry 11). -/
def Obligations.FramesOutsideTheirModesHaveNoEffect : Prop :=
  ∀ (i : Instr) (s : State),
    (i.received = true →
      (s.k.state = .connecting ∨ s.k.state = .closed ∨ s.d.state = .failed) → exec i s = .next s) ∧
    (i.received = false → s.k.state ≠ .opened → exec i s = .next s) ∧
    (i.received = false → i.wf = false → exec i s = .next s) ∧
    (∀ p : Bytes, parseClose p = none → exec (.txClose p) s = .next s)

/-! ### What frames leave unchanged -/

/-- The frame of a received frame's execution: the parameters, the buffered bytes (every byte of them, in
every chunk), the header registers, the SHA-1 registers, the pending inputs and the pause level are unchanged,
the trace only grows, the decoder changes only by failing, and the control frames leave the accumulator alone
(10_state.md R34). -/
def Obligations.ReceivedFramesLeaveTheRestUnchanged : Prop :=
  ∀ (i : Instr) (s t : State), i.received = true → exec i s = .next t →
    t.cfg = s.cfg ∧ t.c = s.c ∧ t.h = s.h ∧ t.sha = s.sha ∧ t.inputs = s.inputs ∧
    t.k.paused = s.k.paused ∧ s.out <+: t.out ∧
    (t.d = s.d ∨ t.d.state = .failed ∧ t.k.state = .closed) ∧
    (controlOpcode i.opcode = true → t.a = s.a)

/-- The frame of a transmitted frame's execution: only the trace and, for a close frame, K change; a frame
appends at most one write, the frame itself, and all that was written before stays (20_memory.md R62). -/
def Obligations.TransmittedFramesLeaveTheRestUnchanged : Prop :=
  ∀ (i : Instr) (s t : State), i.received = false → exec i s = .next t →
    t = { s with out := t.out, k := t.k } ∧
    (t.out = s.out ∨ t.out = s.out ++ [.txWrite (encode i)]) ∧
    (i.opcode ≠ 8 → t.k = s.k) ∧
    t.k.closeRecv = s.k.closeRecv ∧ t.k.paused = s.k.paused

/-! ### Commands -/

/-- 43_encoder.md R206: SEND_MESSAGE without fragments writes one frame with FIN = 1, opcode 1 for text and 2
for binary, unless the payload has `2^63` bytes or more. -/
def Obligations.SendMessageWritesOneFrame : Prop :=
  ∀ (s : State) (op : BitVec 4) (p : Bytes) (rest : List Input),
    s.k.state = .opened → (op = 1 ∨ op = 2) → s.inputs = .sendMessage op p none :: rest →
    (p.length < 2 ^ 63 →
      step s = .next { s with
        inputs := rest
        out := s.out ++ [.txWrite (encodeFrame true op p)] }) ∧
    (2 ^ 63 ≤ p.length → step s = .next { s with inputs := rest })

/-- 43_encoder.md R207 (decision D15): SEND_MESSAGE in fragments of `f` bytes writes one frame when the
payload fits, else, in one step, a first frame with the message's opcode, continuations, and a last
continuation with FIN = 1; every fragment but the last has `f` bytes, and together they are the payload. -/
def Obligations.FragmentedSendWritesThePieces : Prop :=
  ∀ (s : State) (op : BitVec 4) (p : Bytes) (f : Nat) (rest : List Input),
    s.k.state = .opened → (op = 1 ∨ op = 2) → 1 ≤ f → p.length < 2 ^ 63 →
    s.inputs = .sendMessage op p (some f) :: rest →
    (p.length ≤ f →
      step s = .next { s with
        inputs := rest
        out := s.out ++ [.txWrite (encodeFrame true op p)] }) ∧
    (f < p.length →
      ∃ (first last : Bytes) (middle : List Bytes),
        p = first ++ middle.flatten ++ last ∧ first.length = f ∧ (∀ m ∈ middle, m.length = f) ∧
        0 < last.length ∧ last.length ≤ f ∧
        step s = .next { s with
          inputs := rest
          out := s.out ++
            (.txWrite (encodeFrame false op first) ::
              middle.map (fun m => Output.txWrite (encodeFrame false 0 m)) ++
              [.txWrite (encodeFrame true 0 last)]) })

/-- 44_connection.md R237: the local close in OPEN. That a code is always given, and the limits of the reason
(43_encoder.md R211), are decision D31. -/
def Obligations.LocalCloseStartsTheHandshake : Prop :=
  ∀ (s : State) (code : U16) (reason : Bytes) (rest : List Input),
    s.k.state = .opened → s.inputs = .close code reason :: rest →
    reason.length ≤ 123 → utf8Wellformed reason = true →
    step s = .next { s with
      inputs := rest
      k := { s.k with state := .closing, closeSent := true, timerArmed := true }
      out := s.out ++ [.txWrite (encodeFrame true 8 (toBe 2 code.toNat ++ reason))] }

/-- 43_encoder.md R208, R209, R214 (decision D24): SEND_PING and SEND_PONG in OPEN, and the commands whose
operands break a limit, which have no effect. -/
def Obligations.ControlCommandsAndRefusedOperands : Prop :=
  ∀ (s : State) (p : Bytes) (rest : List Input),
    (s.k.state = .opened → p.length ≤ 125 →
      step { s with inputs := .sendPing p :: rest } = .next { s with
        inputs := rest
        out := s.out ++ [.txWrite (encodeFrame true 9 p)] } ∧
      step { s with inputs := .sendPong p :: rest } = .next { s with
        inputs := rest
        out := s.out ++ [.txWrite (encodeFrame true 10 p)] }) ∧
    (125 < p.length →
      step { s with inputs := .sendPing p :: rest } = .next { s with inputs := rest } ∧
      step { s with inputs := .sendPong p :: rest } = .next { s with inputs := rest }) ∧
    (∀ code : U16, (123 < p.length ∨ utf8Wellformed p = false) →
      step { s with inputs := .close code p :: rest } = .next { s with inputs := rest }) ∧
    (∀ (op : BitVec 4) (frag : Option Nat),
      (op ≠ 1 ∧ op ≠ 2 ∨ frag = some 0 ∨ 2 ^ 63 ≤ p.length) →
      step { s with inputs := .sendMessage op p frag :: rest } = .next { s with inputs := rest })

/-! ### The connection -/

/-- The "no effect" cells of the table 44_connection.md R230 (decision D23). -/
def Obligations.NoEffectCells : Prop :=
  ∀ (s : State) (input : Input) (rest : List Input), s.inputs = input :: rest →
    ((∃ m h, input = .hsRequest m h) ∧ s.k.state ≠ .connecting ∨
      (∃ b, input = .rxChunk b) ∧ (s.k.state = .connecting ∨ s.k.state = .closed) ∨
      (input = .rxEnd ∨ input = .rxError) ∧ s.k.state = .closed ∨
      input = .timerExpire ∧ (s.k.state ≠ .closing ∨ s.k.timerArmed = false) ∨
      ((∃ o p f, input = .sendMessage o p f) ∨ (∃ p, input = .sendPing p) ∨
        (∃ p, input = .sendPong p) ∨ (∃ c r, input = .close c r)) ∧ s.k.state ≠ .opened ∨
      (input = .pause ∨ input = .resume) ∧ (s.k.state = .connecting ∨ s.k.state = .closed)) →
    step s = .next { s with inputs := rest }

/-- 44_connection.md R239, R240, R241, R243 (decision D25) and R245, R246 (decision D17): socket end,
transport error, timer expiry, and PAUSE and RESUME, which drive the level and change nothing else, so that
no buffered byte is lost. That the trace shows only a change of level is entry 9, and that CONNECTING follows
the table R230 is entry 22. -/
def Obligations.SocketTimerAndBackpressureInputs : Prop :=
  ∀ (s : State) (rest : List Input),
    ((s.k.state = .opened ∨ s.k.state = .closing) →
      step { s with inputs := .rxEnd :: rest } = .next { s with
        inputs := rest
        k := { s.k with state := .closed, timerArmed := false }
        out := s.out ++ [.txEnd] } ∧
      step { s with inputs := .rxError :: rest } = .next { s with
        inputs := rest
        k := { s.k with state := .closed, timerArmed := false }
        out := s.out ++ [.ev (.error .transportError)] } ∧
      ∀ level : Bool,
        step { s with inputs := (if level then Input.pause else Input.resume) :: rest } =
          .next { s with
            inputs := rest
            k := { s.k with paused := level }
            out := s.out ++ (if s.k.paused = level then [] else [.rxPause level]) }) ∧
    (s.k.state = .connecting →
      step { s with inputs := .rxEnd :: rest } = .next { s with
        inputs := rest, k := { s.k with state := .closed, timerArmed := false } } ∧
      step { s with inputs := .rxError :: rest } = .next { s with
        inputs := rest, k := { s.k with state := .closed, timerArmed := false } }) ∧
    (s.k.state = .closing → s.k.timerArmed = true →
      step { s with inputs := .timerExpire :: rest } = .next { s with
        inputs := rest
        k := { s.k with state := .closed, timerArmed := false }
        out := s.out ++ [.txEnd] })

/-- 44_connection.md R232, 45_handshake.md R260 to R267, R281, R282: a request in CONNECTING. The first of the
five checks that fails decides the status and the extra header; a request that passes all five opens the
connection, with the accept value of its key and the decoder at its creation values. The string rules are
decision D27, the statuses and response bytes D28, what a rejection leaves is D33; that the response is one
write is entry 19, and the values of H at creation are entry 2. -/
def Obligations.HandshakeOpensOrRejects : Prop :=
  ∀ (s : State) (method : Bytes) (headers : Headers) (rest : List Input),
    s.k.state = .connecting → s.inputs = .hsRequest method headers :: rest →
    let rejected (response : Bytes) : State := { s with
      inputs := rest
      k := { s.k with state := .closed, timerArmed := false }
      out := s.out ++ [.txWrite response, .txEnd] }
    (method ≠ [0x47, 0x45, 0x54] →
      step s = .next (rejected
        (Config.ascii "HTTP/1.1 405 Method Not Allowed" ++ [0x0D, 0x0A, 0x0D, 0x0A]))) ∧
    (method = [0x47, 0x45, 0x54] →
      ¬(asksForWebsocket headers ∧ listsUpgrade headers ∧ ∃ key, offersKey headers key) →
      step s = .next (rejected
        (Config.ascii "HTTP/1.1 400 Bad Request" ++ [0x0D, 0x0A, 0x0D, 0x0A]))) ∧
    (method = [0x47, 0x45, 0x54] → asksForWebsocket headers → listsUpgrade headers →
      (∃ key, offersKey headers key) → ¬offersVersion s.cfg headers →
      step s = .next (rejected
        (Config.ascii "HTTP/1.1 400 Bad Request" ++ [0x0D, 0x0A] ++
          Config.ascii "Sec-WebSocket-Version: 13" ++ [0x0D, 0x0A, 0x0D, 0x0A]))) ∧
    (∀ key : Bytes, method = [0x47, 0x45, 0x54] → asksForWebsocket headers → listsUpgrade headers →
      offersKey headers key → offersVersion s.cfg headers →
      ∃ sha', step s = .next { s with
        inputs := rest
        sha := sha'
        k := { s.k with state := .opened }
        c := ⟨[], 0, 0, 0⟩
        d := ⟨.awaitingHeader, none, none⟩
        h := .created
        a := ⟨false, none, []⟩
        out := s.out ++
          [.txWrite
            (Config.ascii "HTTP/1.1 101 Switching Protocols" ++ [0x0D, 0x0A] ++
              Config.ascii "Upgrade: websocket" ++ [0x0D, 0x0A] ++
              Config.ascii "Connection: Upgrade" ++ [0x0D, 0x0A] ++
              Config.ascii "Sec-WebSocket-Accept: " ++ acceptValue key ++ [0x0D, 0x0A, 0x0D, 0x0A]),
           .ev .connectionOpened] })

/-- 10_state.md R36: the connection state never regresses, and its only changes are those R36 lists. -/
def Obligations.ConnectionStateNeverRegresses : Prop :=
  ∀ s t : State, step s = .next t →
    s.k.state.rank ≤ t.k.state.rank ∧ legalTransition s.k.state t.k.state = true

/-- 44_connection.md R247: in CLOSED no input has any effect; the input is taken and nothing else changes. -/
def Obligations.ClosedIsTerminal : Prop :=
  ∀ s : State, s.k.state = .closed → step s = .next { s with inputs := s.inputs.tail }

/-- 44_connection.md R244: every path into CLOSED clears the timer, and only a local close in OPEN sets it: the
command CLOSE, or a TX_CLOSE at the model's own encoder port (entries 5 and 11). -/
def Obligations.TimerIsSetOnlyByALocalClose : Prop :=
  ∀ s t : State, step s = .next t →
    (s.k.state ≠ .closed → t.k.state = .closed → t.k.timerArmed = false) ∧
    (s.k.timerArmed = false → t.k.timerArmed = true →
      s.k.state = .opened ∧ t.k.state = .closing ∧
      ∃ input rest, s.inputs = input :: rest ∧
        ((∃ code reason, input = .close code reason) ∨
          ∃ bytes p, input = .txFrame bytes ∧ decodeTx bytes = .ok (.txClose p, [])))

/-- 60_exceptions.md R310: the failure entry, with what it records and its outputs in order; the two events
and their order are decision D20. After a close was sent there is no second close frame (R312). -/
def Obligations.FailureEntry : Prop :=
  ∀ (code : U16) (kind : Kind) (s : State), (s.k.state = .opened ∨ s.k.state = .closing) →
    (s.k.closeSent = false →
      raiseFail code kind s = { s with
        d := ⟨.failed, some code, some kind⟩
        k := { s.k with state := .closed, closeSent := true, timerArmed := false }
        out := s.out ++
          [.ev (.error kind), .txWrite (encodeFrame true 8 (toBe 2 code.toNat)),
           .ev (.close (some code) []), .txEnd] }) ∧
    (s.k.closeSent = true →
      raiseFail code kind s = { s with
        d := ⟨.failed, some code, some kind⟩
        k := { s.k with state := .closed, timerArmed := false }
        out := s.out ++ [.ev (.error kind), .ev (.close (some code) []), .txEnd] })

/-- 60_exceptions.md R313, 41_decoder.md R166: from FAILED there is no return. In a state that meets the
invariant no step changes the failure record, none has an output, and the decoder has no micro-step. -/
def Obligations.FailedIsTerminal : Prop :=
  ∀ s t : State, s.inv = true → s.d.state = .failed → step s = .next t →
    t.d = s.d ∧ t.k = s.k ∧ t.out = s.out ∧ microStep t = .suspended

/-! ### Whole-machine rules -/

/-- Creation with any parameters meets the invariants (70_reset_and_hazards.md R341), and so does
State.reset. -/
def Obligations.CreationMeetsTheInvariants : Prop :=
  (∀ cfg : Params, (State.create cfg).inv = true ∧ (State.create cfg).traceInv = true) ∧
  State.reset.inv = true ∧ State.reset.traceInv = true

/-- The invariant of Safety.lean (the cursor's canonical form R23, the accumulator R34, the flags in each mode
R38 and R231, the failure record R31, the header registers R26 to R29, the suspended decoder R73) holds after
every step from a state in which it holds. -/
def Obligations.InvariantHoldsAfterEveryStep : Prop :=
  ∀ s t : State, s.inv = true → step s = .next t → t.inv = true

/-- The block never aborts (41_decoder.md R166, 93_implementation_defined.md part 2): from every state that
meets the invariant every step gives a next state, whatever the input. -/
def Obligations.NoStepAborts : Prop :=
  ∀ s : State, s.inv = true → ∃ t, step s = .next t

/-- The output trace (10_state.md R47, 44_connection.md R236, R238; decision D19 for the close frames): at
most one close frame is ever written, TX is ended at most once and only in CLOSED, and nothing is written
after either. -/
def Obligations.TraceInvariantHoldsAfterEveryStep : Prop :=
  ∀ s t : State, s.inv = true → s.traceInv = true → step s = .next t → t.traceInv = true

/-- The trace only grows and the parameters never change (00_scope.md R6 with decision D4, R10 with decision
D3, 10_state.md R39), and a step takes exactly one input. -/
def Obligations.TraceGrowsAndParametersStay : Prop :=
  ∀ s t : State, step s = .next t →
    s.out <+: t.out ∧ t.cfg = s.cfg ∧ t.inputs = s.inputs.tail

/-- 10_state.md R27: no rule reads a header register before it is written in the current frame. Two states
that agree on everything but the header registers that are not live answer alike, and agree in the same way
afterwards. -/
def Obligations.UnwrittenHeaderRegistersDecideNothing : Prop :=
  ∀ (s : State) (h' : Header), sameLive s.d.state s.h h' →
    outcomesRelated (fun t t' => t' = { t with h := t'.h } ∧ sameLive t.d.state t.h t'.h)
      (step s) (step { s with h := h' })

/-- 10_state.md R24 (ghost position, decision D7) and R40 (SHA-1 registers hold nothing between
computations): neither decides anything. -/
def Obligations.GhostAndHandshakeRegistersDecideNothing : Prop :=
  ∀ (s : State) (pos : Nat) (sha : Sha1Regs),
    outcomesRelated (fun t t' => t' = { t with c := { t.c with pos := t'.c.pos }, sha := t'.sha })
      (step s) (step { s with c := { s.c with pos := pos }, sha := sha })

/-- 10_state.md R52: distinct connections are independent; steps of different connections commute, a step of one
leaves every other as it is, and what it does depends on no other connection. -/
def Obligations.ConnectionsAreIndependent : Prop :=
  ∀ (sys : List State) (m n : Nat), m ≠ n →
    systemStep m (systemStep n sys) = systemStep n (systemStep m sys) ∧
    (systemStep m sys)[n]? = sys[n]? ∧
    ∀ sys' : List State, sys[m]? = sys'[m]? → (systemStep m sys)[m]? = (systemStep m sys')[m]?

/-! ### Handshake -/

/-- The source's example (45_handshake.md R279; its digest is marked as derived): the accept value and the
SHA-1 digest it encodes. -/
def Obligations.SourceExampleOfTheAcceptValue : Prop :=
  acceptValue (Config.ascii "dGhlIHNhbXBsZSBub25jZQ==") = Config.ascii "s3pPLMBiTxaQ9kYGzzhZRbK+xOo=" ∧
  sha1 (Config.ascii "dGhlIHNhbXBsZSBub25jZQ==" ++ Config.guid) =
    toBe 20 0xB37A4F2CC0624F1690F64606CF385945B2BEC4EA

/-- Base64 decoding inverts encoding (45_handshake.md R269, R270, general knowledge by the spec's mark), and
an encoding has four characters for each three bytes begun. -/
def Obligations.Base64DecodeInvertsEncode : Prop :=
  ∀ b : Bytes, base64Decode (base64 b) = some b ∧ (base64 b).length = 4 * ((b.length + 2) / 3)

/-- Sizes (45_handshake.md R278, marked as derived; R271, R276): a digest has 20 bytes, an accept value 28
characters with `=` last, a padded message a whole number of 64-byte blocks. -/
def Obligations.DigestAndAcceptSizes : Prop :=
  ∀ m : Bytes,
    (sha1 m).length = Config.digestBytes ∧
    (acceptValue m).length = 28 ∧ (acceptValue m).getLast? = some 0x3D ∧
    (sha1Pad m).length % 64 = 0 ∧ m <+: sha1Pad m ∧ m.length + 9 ≤ (sha1Pad m).length

/-- Check 4 (45_handshake.md R264 under R270, decision D27): a text decodes to 16 bytes exactly when it has 24
characters, the first 22 of the alphabet and the last two `==`. -/
def Obligations.KeyCheckAcceptsExactlyTheNonceForm : Prop :=
  ∀ k : Bytes,
    (∃ nonce, base64Decode k = some nonce ∧ nonce.length = Config.nonceBytes) ↔
      k.length = 24 ∧ (∀ ch ∈ k.take 22, (base64Value ch).isSome = true) ∧ k.drop 22 = [0x3D, 0x3D]
end

