-- ==== Sys2Proof/Laws/State.lean ====
section
/-! SUPPORT. One lemma for each field of the state and each named update, so that no proof unfolds an
update; the derived outputs are rewritten to `State.output`. -/

namespace Sys2Proof.Machine

/-! ### The derived outputs -/

@[simp] theorem State.txWrite_eq (b : Bytes) (s : State) : s.txWrite b = s.output (.txWrite b) := rfl
@[simp] theorem State.txEnd_eq (s : State) : s.txEnd = s.output .txEnd := rfl
@[simp] theorem State.emit_eq (e : Event) (s : State) : s.emit e = s.output (.ev e) := rfl

/-! ### `State.output` -/

@[simp] theorem State.output_cfg (o : Output) (s : State) : (s.output o).cfg = s.cfg := rfl
@[simp] theorem State.output_k (o : Output) (s : State) : (s.output o).k = s.k := rfl
@[simp] theorem State.output_c (o : Output) (s : State) : (s.output o).c = s.c := rfl
@[simp] theorem State.output_d (o : Output) (s : State) : (s.output o).d = s.d := rfl
@[simp] theorem State.output_h (o : Output) (s : State) : (s.output o).h = s.h := rfl
@[simp] theorem State.output_a (o : Output) (s : State) : (s.output o).a = s.a := rfl
@[simp] theorem State.output_sha (o : Output) (s : State) : (s.output o).sha = s.sha := rfl
@[simp] theorem State.output_out (o : Output) (s : State) : (s.output o).out = s.out ++ [o] := rfl
@[simp] theorem State.output_inputs (o : Output) (s : State) : (s.output o).inputs = s.inputs := rfl

/-! ### `State.setCloseSent` -/

@[simp] theorem State.setCloseSent_cfg (s : State) : (s.setCloseSent).cfg = s.cfg := rfl
@[simp] theorem State.setCloseSent_k (s : State) : (s.setCloseSent).k = { s.k with closeSent := true } := rfl
@[simp] theorem State.setCloseSent_c (s : State) : (s.setCloseSent).c = s.c := rfl
@[simp] theorem State.setCloseSent_d (s : State) : (s.setCloseSent).d = s.d := rfl
@[simp] theorem State.setCloseSent_h (s : State) : (s.setCloseSent).h = s.h := rfl
@[simp] theorem State.setCloseSent_a (s : State) : (s.setCloseSent).a = s.a := rfl
@[simp] theorem State.setCloseSent_sha (s : State) : (s.setCloseSent).sha = s.sha := rfl
@[simp] theorem State.setCloseSent_out (s : State) : (s.setCloseSent).out = s.out := rfl
@[simp] theorem State.setCloseSent_inputs (s : State) : (s.setCloseSent).inputs = s.inputs := rfl

/-! ### `State.setCloseRecv` -/

@[simp] theorem State.setCloseRecv_cfg (s : State) : (s.setCloseRecv).cfg = s.cfg := rfl
@[simp] theorem State.setCloseRecv_k (s : State) : (s.setCloseRecv).k = { s.k with closeRecv := true } := rfl
@[simp] theorem State.setCloseRecv_c (s : State) : (s.setCloseRecv).c = s.c := rfl
@[simp] theorem State.setCloseRecv_d (s : State) : (s.setCloseRecv).d = s.d := rfl
@[simp] theorem State.setCloseRecv_h (s : State) : (s.setCloseRecv).h = s.h := rfl
@[simp] theorem State.setCloseRecv_a (s : State) : (s.setCloseRecv).a = s.a := rfl
@[simp] theorem State.setCloseRecv_sha (s : State) : (s.setCloseRecv).sha = s.sha := rfl
@[simp] theorem State.setCloseRecv_out (s : State) : (s.setCloseRecv).out = s.out := rfl
@[simp] theorem State.setCloseRecv_inputs (s : State) : (s.setCloseRecv).inputs = s.inputs := rfl

/-! ### `State.setTimer` -/

@[simp] theorem State.setTimer_cfg (v : Bool) (s : State) : (s.setTimer v).cfg = s.cfg := rfl
@[simp] theorem State.setTimer_k (v : Bool) (s : State) : (s.setTimer v).k = { s.k with timerArmed := v } := rfl
@[simp] theorem State.setTimer_c (v : Bool) (s : State) : (s.setTimer v).c = s.c := rfl
@[simp] theorem State.setTimer_d (v : Bool) (s : State) : (s.setTimer v).d = s.d := rfl
@[simp] theorem State.setTimer_h (v : Bool) (s : State) : (s.setTimer v).h = s.h := rfl
@[simp] theorem State.setTimer_a (v : Bool) (s : State) : (s.setTimer v).a = s.a := rfl
@[simp] theorem State.setTimer_sha (v : Bool) (s : State) : (s.setTimer v).sha = s.sha := rfl
@[simp] theorem State.setTimer_out (v : Bool) (s : State) : (s.setTimer v).out = s.out := rfl
@[simp] theorem State.setTimer_inputs (v : Bool) (s : State) : (s.setTimer v).inputs = s.inputs := rfl

/-! ### `State.setPaused` -/

@[simp] theorem State.setPaused_cfg (v : Bool) (s : State) : (s.setPaused v).cfg = s.cfg := rfl
@[simp] theorem State.setPaused_k (v : Bool) (s : State) : (s.setPaused v).k = { s.k with paused := v } := rfl
@[simp] theorem State.setPaused_c (v : Bool) (s : State) : (s.setPaused v).c = s.c := rfl
@[simp] theorem State.setPaused_d (v : Bool) (s : State) : (s.setPaused v).d = s.d := rfl
@[simp] theorem State.setPaused_h (v : Bool) (s : State) : (s.setPaused v).h = s.h := rfl
@[simp] theorem State.setPaused_a (v : Bool) (s : State) : (s.setPaused v).a = s.a := rfl
@[simp] theorem State.setPaused_sha (v : Bool) (s : State) : (s.setPaused v).sha = s.sha := rfl
@[simp] theorem State.setPaused_out (v : Bool) (s : State) : (s.setPaused v).out = s.out := rfl
@[simp] theorem State.setPaused_inputs (v : Bool) (s : State) : (s.setPaused v).inputs = s.inputs := rfl

/-! ### `State.setConn` -/

@[simp] theorem State.setConn_cfg (st : ConnState) (s : State) : (s.setConn st).cfg = s.cfg := rfl
@[simp] theorem State.setConn_k (st : ConnState) (s : State) : (s.setConn st).k = { s.k with state := st } := rfl
@[simp] theorem State.setConn_c (st : ConnState) (s : State) : (s.setConn st).c = s.c := rfl
@[simp] theorem State.setConn_d (st : ConnState) (s : State) : (s.setConn st).d = s.d := rfl
@[simp] theorem State.setConn_h (st : ConnState) (s : State) : (s.setConn st).h = s.h := rfl
@[simp] theorem State.setConn_a (st : ConnState) (s : State) : (s.setConn st).a = s.a := rfl
@[simp] theorem State.setConn_sha (st : ConnState) (s : State) : (s.setConn st).sha = s.sha := rfl
@[simp] theorem State.setConn_out (st : ConnState) (s : State) : (s.setConn st).out = s.out := rfl
@[simp] theorem State.setConn_inputs (st : ConnState) (s : State) : (s.setConn st).inputs = s.inputs := rfl

/-! ### `State.setDec` -/

@[simp] theorem State.setDec_cfg (st : DecState) (s : State) : (s.setDec st).cfg = s.cfg := rfl
@[simp] theorem State.setDec_k (st : DecState) (s : State) : (s.setDec st).k = s.k := rfl
@[simp] theorem State.setDec_c (st : DecState) (s : State) : (s.setDec st).c = s.c := rfl
@[simp] theorem State.setDec_d (st : DecState) (s : State) : (s.setDec st).d = { s.d with state := st } := rfl
@[simp] theorem State.setDec_h (st : DecState) (s : State) : (s.setDec st).h = s.h := rfl
@[simp] theorem State.setDec_a (st : DecState) (s : State) : (s.setDec st).a = s.a := rfl
@[simp] theorem State.setDec_sha (st : DecState) (s : State) : (s.setDec st).sha = s.sha := rfl
@[simp] theorem State.setDec_out (st : DecState) (s : State) : (s.setDec st).out = s.out := rfl
@[simp] theorem State.setDec_inputs (st : DecState) (s : State) : (s.setDec st).inputs = s.inputs := rfl

/-! ### `State.createDecoder` -/

@[simp] theorem State.createDecoder_cfg (s : State) : (s.createDecoder).cfg = s.cfg := rfl
@[simp] theorem State.createDecoder_k (s : State) : (s.createDecoder).k = s.k := rfl
@[simp] theorem State.createDecoder_c (s : State) : (s.createDecoder).c = .created := rfl
@[simp] theorem State.createDecoder_d (s : State) : (s.createDecoder).d = .created := rfl
@[simp] theorem State.createDecoder_h (s : State) : (s.createDecoder).h = .created := rfl
@[simp] theorem State.createDecoder_a (s : State) : (s.createDecoder).a = .created := rfl
@[simp] theorem State.createDecoder_sha (s : State) : (s.createDecoder).sha = s.sha := rfl
@[simp] theorem State.createDecoder_out (s : State) : (s.createDecoder).out = s.out := rfl
@[simp] theorem State.createDecoder_inputs (s : State) : (s.createDecoder).inputs = s.inputs := rfl

/-! ### `State.enterClosed` -/

@[simp] theorem State.enterClosed_cfg (s : State) : (s.enterClosed).cfg = s.cfg := rfl
@[simp] theorem State.enterClosed_k (s : State) : (s.enterClosed).k = { s.k with state := .closed, timerArmed := false } := rfl
@[simp] theorem State.enterClosed_c (s : State) : (s.enterClosed).c = s.c := rfl
@[simp] theorem State.enterClosed_d (s : State) : (s.enterClosed).d = s.d := rfl
@[simp] theorem State.enterClosed_h (s : State) : (s.enterClosed).h = s.h := rfl
@[simp] theorem State.enterClosed_a (s : State) : (s.enterClosed).a = s.a := rfl
@[simp] theorem State.enterClosed_sha (s : State) : (s.enterClosed).sha = s.sha := rfl
@[simp] theorem State.enterClosed_out (s : State) : (s.enterClosed).out = s.out := rfl
@[simp] theorem State.enterClosed_inputs (s : State) : (s.enterClosed).inputs = s.inputs := rfl

/-! ### Conditions -/

theorem State.isOpen_iff (s : State) : s.isOpen = true ↔ s.k.state = .opened := by
  simp [State.isOpen]

theorem State.decoding_iff (s : State) :
    s.decoding = true ↔ (s.k.state = .opened ∨ s.k.state = .closing) ∧ s.d.state ≠ .failed := by
  simp [State.decoding]

theorem State.tooLarge_iff (op : BitVec 4) (n : Nat) (s : State) :
    s.tooLarge op n = true ↔
      s.cfg.maxPayload < n ∨ op = 0 ∧ s.a.active = true ∧ s.cfg.maxPayload < s.a.buf.length + n := by
  unfold State.tooLarge State.pending
  by_cases h : op = 0#4 <;> by_cases h' : s.a.active = true <;> simp [h, h']

theorem State.tooLarge_false_iff (op : BitVec 4) (n : Nat) (s : State) :
    s.tooLarge op n = false ↔
      n ≤ s.cfg.maxPayload ∧
        (op = 0 → s.a.active = true → s.a.buf.length + n ≤ s.cfg.maxPayload) := by
  rw [← Bool.not_eq_true, State.tooLarge_iff]
  push Not
  exact Iff.rfl

end Sys2Proof.Machine
end

