-- ==== Sys2Proof/Laws/Cursor.lean ====
section
/-! SUPPORT. What the ByteCursor's operations do to the buffered bytes, and that they keep the canonical form
of the chunk queue. -/

namespace Sys2Proof.Machine

/-- The canonical form of the chunk queue apart from the total: no empty chunk, the offset inside the front
chunk. -/
def chunksOk (off : Nat) (chunks : List Bytes) : Prop :=
  (∀ chunk ∈ chunks, chunk ≠ []) ∧
  match chunks with
  | [] => off = 0
  | front :: _ => off < front.length

theorem Cursor.wf_iff (c : Cursor) :
    c.wf = true ↔ chunksOk c.off c.chunks ∧ c.total = c.bytes.length := by
  unfold Cursor.wf chunksOk
  cases c.chunks <;> simp [and_assoc]

theorem chunksOk_zero {chunks : List Bytes} (h : ∀ chunk ∈ chunks, chunk ≠ []) :
    chunksOk 0 chunks := by
  refine ⟨h, ?_⟩
  cases chunks with
  | nil => rfl
  | cons front rest => exact List.length_pos_of_ne_nil (h front (by simp))

/-- Taking `n` buffered bytes from the chunks gives the first `n` bytes, leaves the others, and leaves a
canonical queue. -/
theorem takeFromChunks_spec (chunks : List Bytes) (off n : Nat) (ok : chunksOk off chunks)
    (hn : n ≤ (chunks.flatten.drop off).length) :
    (takeFromChunks off n chunks).1 = (chunks.flatten.drop off).take n ∧
    (takeFromChunks off n chunks).2.1.flatten.drop (takeFromChunks off n chunks).2.2 =
      (chunks.flatten.drop off).drop n ∧
    chunksOk (takeFromChunks off n chunks).2.2 (takeFromChunks off n chunks).2.1 := by
  induction chunks generalizing off n with
  | nil => simp [takeFromChunks, chunksOk] at *
  | cons chunk rest ih =>
    obtain ⟨hne, hoff⟩ := ok
    have hd : (chunk :: rest).flatten.drop off = chunk.drop off ++ rest.flatten := by
      simp [List.drop_append, Nat.sub_eq_zero_of_le (Nat.le_of_lt hoff)]
    rw [hd] at hn ⊢
    unfold takeFromChunks
    split
    · rename_i hlt
      have hle : n ≤ (chunk.drop off).length := by simpa using Nat.le_of_lt hlt
      refine ⟨?_, ?_, hne, ?_⟩
      · simp [List.take_append, Nat.sub_eq_zero_of_le (Nat.le_of_lt hlt)]
      · have h1 : off + n ≤ chunk.length := by omega
        have h2 : n - (chunk.length - off) = 0 := by omega
        simp [List.drop_append, Nat.sub_eq_zero_of_le h1, h2]
      · show off + n < chunk.length
        omega
    · rename_i hge
      have hr : chunksOk 0 rest := chunksOk_zero fun ch h => hne ch (by simp [h])
      have hl : n - (chunk.length - off) ≤ (rest.flatten.drop 0).length := by
        simp at hn ⊢; omega
      have hall : (chunk.drop off).length ≤ n := by rw [List.length_drop]; omega
      obtain ⟨h1, h2, h3⟩ := ih 0 (n - (chunk.length - off)) hr hl
      refine ⟨?_, ?_, h3⟩
      · simp only [h1, List.drop_zero, List.take_append, List.length_drop]
        rw [List.take_of_length_le hall]
      · simp only [h2, List.drop_zero, List.drop_append, List.length_drop]
        rw [List.drop_of_length_le hall, List.nil_append]

/-- `append`: the chunk at the tail, the canonical form kept. -/
theorem Cursor.append_spec (chunk : Bytes) {c : Cursor} (h : c.wf = true) :
    (c.append chunk).wf = true ∧ (c.append chunk).bytes = c.bytes ++ chunk ∧
      (c.append chunk).total = c.total + chunk.length ∧ (c.append chunk).pos = c.pos := by
  rw [Cursor.wf_iff] at h ⊢
  obtain ⟨⟨hne, hoff⟩, htot⟩ := h
  have hlen : c.off ≤ c.chunks.flatten.length := by
    cases hc : c.chunks with
    | nil => rw [hc] at hoff; simp_all
    | cons front rest =>
      rw [hc] at hoff
      have : c.off < front.length := hoff
      simp; omega
  have hb : (c.append chunk).bytes = c.bytes ++ chunk := by
    by_cases he : chunk = []
    · simp [Cursor.append, Cursor.bytes, he]
    · simp only [Cursor.append, Cursor.bytes, List.isEmpty_iff, he, if_false, List.flatten_append,
        List.flatten_singleton]
      rw [List.drop_append, Nat.sub_eq_zero_of_le hlen, List.drop_zero]
  refine ⟨⟨?_, ?_⟩, hb, rfl, rfl⟩
  · by_cases he : chunk = []
    · simpa [Cursor.append, he] using ⟨hne, hoff⟩
    · refine ⟨?_, ?_⟩
      · intro ch hch
        simp only [Cursor.append, List.isEmpty_iff, he, if_false, List.mem_append,
          List.mem_singleton] at hch
        rcases hch with hch | rfl
        · exact hne ch hch
        · exact he
      · cases hc : c.chunks with
        | nil =>
          rw [hc] at hoff
          have h0 : c.off = 0 := hoff
          simpa [Cursor.append, he, hc, h0] using List.length_pos_of_ne_nil he
        | cons front rest => rw [hc] at hoff; simpa [Cursor.append, he, hc] using hoff
  · rw [hb]; simp [Cursor.append, htot]

/-- A successful `tryConsume(n)`. -/
theorem Cursor.tryConsume_some {n : Nat} {c c' : Cursor} {r : Bytes} (h : c.wf = true)
    (ht : c.tryConsume n = some (r, c')) :
    c.bytes = r ++ c'.bytes ∧ r.length = n ∧ c'.wf = true ∧ c'.total + n = c.total ∧
      c'.pos = c.pos + n := by
  unfold Cursor.tryConsume at ht
  split at ht
  case isFalse => cases ht
  case isTrue hn =>
    rw [Cursor.wf_iff] at h
    obtain ⟨hok, htot⟩ := h
    have hn' : n ≤ (c.chunks.flatten.drop c.off).length := by simpa [htot, Cursor.bytes] using hn
    obtain ⟨h1, h2, h3⟩ := takeFromChunks_spec c.chunks c.off n hok hn'
    simp only [Option.some.injEq, Prod.mk.injEq] at ht
    obtain ⟨rfl, rfl⟩ := ht
    have hb : c.bytes = c.chunks.flatten.drop c.off := rfl
    refine ⟨?_, ?_, ?_, ?_, rfl⟩
    · rw [h1, hb]
      show _ = _ ++ List.drop _ _
      rw [h2, List.take_append_drop]
    · rw [h1, List.length_take]; omega
    · rw [Cursor.wf_iff]
      refine ⟨h3, ?_⟩
      show _ = (List.drop _ _).length
      rw [h2, List.length_drop, htot, hb]
    · show c.total - n + n = c.total
      omega

/-- `tryConsume(n)` succeeds exactly when `n` bytes are buffered, and then takes the first `n`. -/
theorem Cursor.tryConsume_of_le {n : Nat} {c : Cursor} (h : c.wf = true) (hn : n ≤ c.total) :
    ∃ c', c.tryConsume n = some (c.bytes.take n, c') ∧ c'.bytes = c.bytes.drop n ∧
      c'.wf = true ∧ c'.total + n = c.total ∧ c'.pos = c.pos + n := by
  have hs : ∃ r c', c.tryConsume n = some (r, c') := by
    unfold Cursor.tryConsume; rw [if_pos hn]; exact ⟨_, _, rfl⟩
  obtain ⟨r, c', ht⟩ := hs
  obtain ⟨hb, hl, hw, ht', hp⟩ := Cursor.tryConsume_some h ht
  refine ⟨c', ?_, ?_, hw, ht', hp⟩
  · rw [ht, hb, List.take_left' hl]
  · rw [hb, List.drop_left' hl]

theorem Cursor.tryConsume_none_iff (n : Nat) (c : Cursor) :
    c.tryConsume n = none ↔ c.total < n := by
  unfold Cursor.tryConsume
  split <;> simp <;> omega

/-- The total is not the representation's: every success lowers it by `n`. -/
theorem Cursor.tryConsume_total {n : Nat} {c c' : Cursor} {r : Bytes}
    (ht : c.tryConsume n = some (r, c')) : c'.total + n = c.total := by
  unfold Cursor.tryConsume at ht
  split at ht
  · simp only [Option.some.injEq, Prod.mk.injEq] at ht
    obtain ⟨-, rfl⟩ := ht
    show c.total - n + n = c.total
    omega
  · cases ht

theorem Cursor.wf_total {c : Cursor} (h : c.wf = true) : c.total = c.bytes.length :=
  ((Cursor.wf_iff c).1 h).2

/-- The queue of a new cursor is canonical. -/
theorem Cursor.created_wf : Cursor.created.wf = true := by decide

/-- The block's storage is canonical at reset. -/
theorem Memory.reset_wf : Memory.wf State.reset = true := by decide

end Sys2Proof.Machine
end

