-- ==== Sys2Proof/Laws/Ops.lean ====
section
/-! SUPPORT. One lemma for each shared operation of Machine/Ops.lean that says all it does, and the cases of
the two guards frames run under. -/

namespace Sys2Proof.Machine

theorem State.transmitClose_eq (p : Bytes) (s : State) :
    s.transmitClose p = { s with
      k := { s.k with closeSent := true }
      out := s.out ++ [.txWrite (encodeFrame true 8 p)] } := rfl

theorem State.localClose_eq (p : Bytes) (s : State) :
    s.localClose p = { s with
      k := { s.k with state := .closing, closeSent := true, timerArmed := true }
      out := s.out ++ [.txWrite (encodeFrame true 8 p)] } := rfl

/-- What the failure entry writes and emits. -/
def failOutputs (code : U16) (kind : Kind) (closeSent : Bool) : List Output :=
  .ev (.error kind) :: ((if closeSent then [] else [.txWrite (encodeFrame true 8 (codeBytes code))]) ++
    [.ev (.close (some code) []), .txEnd])

/-- `raiseFail` in one piece, in any state. -/
theorem raiseFail_eq (code : U16) (kind : Kind) (s : State) :
    raiseFail code kind s = { s with
      d := ⟨.failed, some code, some kind⟩
      k := { s.k with state := .closed, closeSent := true, timerArmed := false }
      out := s.out ++ failOutputs code kind s.k.closeSent } := by
  obtain ⟨cfg, ⟨st, cs, cr, ta, pa⟩, c, d, h, a, sha, out, inputs⟩ := s
  cases cs <;> cases st <;>
    simp [raiseFail, failOutputs, State.passClosing, State.isOpen, State.transmitClose, State.output,
      State.setCloseSent, State.setConn, State.setTimer, State.enterClosed]

/-- What the peer's close writes and emits. -/
def closeOutputs (code : Option U16) (reason : Bytes) (closeSent : Bool) : List Output :=
  (if closeSent then [] else [.txWrite (encodeFrame true 8 (echoPayload code))]) ++
    [.ev (.close code reason), .txEnd]

/-- `closeReceived` in one piece, in any state. -/
theorem State.closeReceived_eq (code : Option U16) (reason : Bytes) (s : State) :
    s.closeReceived code reason = { s with
      k := { state := .closed, closeSent := true, closeRecv := true, timerArmed := false,
             paused := s.k.paused }
      out := s.out ++ closeOutputs code reason s.k.closeSent } := by
  obtain ⟨cfg, ⟨st, cs, cr, ta, pa⟩, c, d, h, a, sha, out, inputs⟩ := s
  cases cs <;> cases st <;>
    simp [State.closeReceived, closeOutputs, State.passClosing, State.isOpen, State.transmitClose,
      State.output, State.setCloseSent, State.setCloseRecv, State.setConn, State.setTimer,
      State.enterClosed]

/-- The three things `deliver` can do. -/
theorem deliver_cases (kind : MsgKind) (bytes : Bytes) (s : State) :
    (kind = .text ∧ s.cfg.textUtf8Check = true ∧ utf8Wellformed bytes = false ∧
      deliver kind bytes s = invalidPayload s) ∨
    (s.k.state = .opened ∧
      deliver kind bytes s = { s with out := s.out ++ [.ev (.message kind bytes)] }) ∨
    (s.k.state ≠ .opened ∧ deliver kind bytes s = s) := by
  unfold deliver
  split
  · rename_i h
    simp only [Bool.and_eq_true, beq_iff_eq, Bool.not_eq_true'] at h
    exact .inl ⟨h.1.1, h.1.2, h.2, rfl⟩
  · split
    · rename_i h; exact .inr (.inl ⟨(State.isOpen_iff s).1 h, rfl⟩)
    · rename_i h; exact .inr (.inr ⟨fun hs => h ((State.isOpen_iff s).2 hs), rfl⟩)

/-- The cases of a received frame: no effect, too large, or its dispatch in a state that decodes and within
the size limit. -/
theorem receiveFrame_cases (op : BitVec 4) (p : Bytes) (s : State) (dispatch : State → Outcome) :
    (s.decoding = false ∧ receiveFrame op p s dispatch = .next s) ∨
    (s.decoding = true ∧ s.tooLarge op p.length = true ∧
      receiveFrame op p s dispatch = .next (payloadTooLarge s)) ∨
    (s.decoding = true ∧ s.tooLarge op p.length = false ∧
      receiveFrame op p s dispatch = dispatch s) := by
  unfold receiveFrame
  cases s.decoding <;> cases s.tooLarge op p.length <;> simp

/-- A received frame that runs. -/
theorem receiveFrame_runs {op : BitVec 4} {p : Bytes} {s : State} (dispatch : State → Outcome)
    (hd : s.decoding = true) (ht : s.tooLarge op p.length = false) :
    receiveFrame op p s dispatch = dispatch s := by
  simp [receiveFrame, hd, ht]

/-- The cases of a transmitted frame: written in OPEN within its limit, else no effect. -/
theorem transmitFrame_cases (fin : Bool) (op : BitVec 4) (p : Bytes) (fits : Bool) (s : State) :
    (s.k.state = .opened ∧ fits = true ∧ transmitFrame fin op p fits s =
      .next { s with out := s.out ++ [.txWrite (encodeFrame fin op p)] }) ∨
    ((s.k.state ≠ .opened ∨ fits = false) ∧ transmitFrame fin op p fits s = .next s) := by
  unfold transmitFrame
  cases ho : s.isOpen <;> cases fits
  · simp [State.isOpen] at ho; simp
  · simp [State.isOpen] at ho; simp [ho]
  · simp
  · exact .inl ⟨(State.isOpen_iff s).1 ho, rfl, rfl⟩

/-- The two things TX_CLOSE can do. -/
theorem execTxClose_cases (p : Bytes) (s : State) :
    (s.k.state = .opened ∧ controlFits p = true ∧ (parseClose p).isSome = true ∧
      execTxClose p s = .next (s.localClose p)) ∨
    ((s.k.state ≠ .opened ∨ controlFits p = false ∨ (parseClose p).isSome = false) ∧
      execTxClose p s = .next s) := by
  unfold execTxClose
  split
  · rename_i h
    simp only [Bool.and_eq_true] at h
    exact .inl ⟨(State.isOpen_iff s).1 h.1.1, h.1.2, h.2, rfl⟩
  · rename_i h
    refine .inr ⟨?_, rfl⟩
    simp only [Bool.and_eq_true, State.isOpen_iff] at h
    by_contra hc
    simp only [not_or, not_not, Bool.not_eq_false] at hc
    exact h ⟨⟨hc.1, hc.2.1⟩, hc.2.2⟩

end Sys2Proof.Machine
end

