-- ==== Sys2Proof/Laws/Exec.lean ====
section
/-! SUPPORT. What the execution of a frame can do, said once (the inversion of `exec`), and that it answers a
next state wherever the accumulator is legal. -/

namespace Sys2Proof.Machine

/-- The first byte of a transmitted frame. -/
theorem encodeFrame_head (fin : Bool) (op : BitVec 4) (p : Bytes) :
    (encodeFrame fin op p).head? = some (headerByte0 fin op) := by
  simp only [encodeFrame]
  split
  · rfl
  · split <;> rfl

/-- An output that neither writes a close frame nor ends TX. -/
def isPlainOutput (o : Output) : Bool := !isCloseWrite o && !isTxEnd o

/-- The three code and kind pairs of a failure (60_exceptions.md R301 to R303). -/
def isFailure (code : U16) (kind : Kind) : Prop :=
  code = 1002 ∧ kind = .protocolViolation ∨ code = 1009 ∧ kind = .payloadTooLarge ∨
    code = 1007 ∧ kind = .invalidPayload

/-- What a received frame that decodes can lead to: a failure (with the accumulator as it was or just
cleared), outputs in OPEN with a new accumulator, or the peer's close. -/
inductive ReceivedOutcome (s : State) : State → Prop where
  | failed (a' : Accumulator) (code : U16) (kind : Kind) (ha : a' = s.a ∨ a' = .created)
      (hf : isFailure code kind) : ReceivedOutcome s (raiseFail code kind { s with a := a' })
  | runs (a' : Accumulator) (outs : List Output)
      (ha : accumulatorInv s = true → accumulatorInv { s with a := a' } = true)
      (ho : ∀ o ∈ outs, isPlainOutput o = true) (hs : s.k.state ≠ .opened → outs = []) :
      ReceivedOutcome s { s with a := a', out := s.out ++ outs }
  | closes (code : Option U16) (reason : Bytes) : ReceivedOutcome s (s.closeReceived code reason)

theorem accumulatorInv_created (s : State) : accumulatorInv { s with a := .created } = true := by
  simp [accumulatorInv, Accumulator.created]

theorem receivedOutcome_same (s : State) : ReceivedOutcome s s := by
  have h := ReceivedOutcome.runs (s := s) s.a [] (fun h => h) (by simp) (fun _ => rfl)
  simpa using h

theorem deliver_outcome (kind : MsgKind) (bytes : Bytes) (s : State) (a' : Accumulator)
    (ha : a' = s.a ∨ a' = .created) :
    ReceivedOutcome s (deliver kind bytes { s with a := a' }) := by
  have hinv : accumulatorInv s = true → accumulatorInv { s with a := a' } = true := by
    rcases ha with rfl | rfl
    · exact fun h => h
    · exact fun _ => accumulatorInv_created s
  rcases deliver_cases kind bytes { s with a := a' } with ⟨-, -, -, h⟩ | ⟨hk, h⟩ | ⟨hk, h⟩
  · rw [h]; exact .failed a' 1007 .invalidPayload ha (.inr (.inr ⟨rfl, rfl⟩))
  · rw [h]
    exact .runs a' [.ev (.message kind bytes)] hinv (by simp [isPlainOutput, isCloseWrite, isTxEnd])
      (fun hn => absurd hk hn)
  · rw [h]
    have := ReceivedOutcome.runs (s := s) a' [] hinv (by simp) (fun _ => rfl)
    simpa using this

theorem startMessage_outcome (kind : MsgKind) (fin : Bool) (p : Bytes) (s : State)
    (hp : p.length ≤ s.cfg.maxPayload) : ReceivedOutcome s (startMessage kind fin p s) := by
  unfold startMessage
  split
  · exact .failed s.a 1002 .protocolViolation (.inl rfl) (.inl ⟨rfl, rfl⟩)
  · split
    · exact deliver_outcome kind p s s.a (.inl rfl)
    · have := ReceivedOutcome.runs (s := s) ⟨true, some kind, p⟩ []
        (fun _ => by simp [accumulatorInv, hp]) (by simp) (fun _ => rfl)
      simpa using this

/-- The inversion of a received frame's execution. -/
theorem exec_received {i : Instr} {s t : State} (hi : i.received = true) (h : exec i s = .next t) :
    (s.decoding = false ∧ t = s) ∨ (s.decoding = true ∧ ReceivedOutcome s t) := by
  have large : ReceivedOutcome s (payloadTooLarge s) :=
    .failed s.a 1009 .payloadTooLarge (.inl rfl) (.inr (.inl ⟨rfl, rfl⟩))
  have violation : ReceivedOutcome s (protocolViolation s) :=
    .failed s.a 1002 .protocolViolation (.inl rfl) (.inl ⟨rfl, rfl⟩)
  have guard : ∀ (op : BitVec 4) (p : Bytes) (dispatch : State → Outcome),
      receiveFrame op p s dispatch = .next t →
      (s.tooLarge op p.length = false → dispatch s = .next t → ReceivedOutcome s t) →
      (s.decoding = false ∧ t = s) ∨ (s.decoding = true ∧ ReceivedOutcome s t) := by
    intro op p dispatch hr hd
    rcases receiveFrame_cases op p s dispatch with ⟨h1, h2⟩ | ⟨h1, -, h2⟩ | ⟨h1, h3, h2⟩ <;>
      rw [h2] at hr
    · cases hr; exact .inl ⟨h1, rfl⟩
    · cases hr; exact .inr ⟨h1, large⟩
    · exact .inr ⟨h1, hd h3 hr⟩
  cases i with
  | cont fin form key p =>
    have h' : execCont fin p s = .next t := h
    refine guard 0 p _ h' fun hl hd => ?_
    obtain ⟨-, hl⟩ := (State.tooLarge_false_iff _ _ _).1 hl
    simp only at hd
    split at hd
    · cases hd; exact violation
    · rename_i hact
      simp only [Bool.not_eq_true', Bool.not_eq_false] at hact
      split at hd
      · split at hd
        · cases hd; exact deliver_outcome _ _ s .created (.inr rfl)
        · cases hd
      · cases hd
        have := ReceivedOutcome.runs (s := s) { s.a with buf := s.a.buf ++ p } []
          (fun hinv => by
            have := hl rfl hact
            simp only [accumulatorInv, hact, if_true, Bool.and_eq_true] at hinv ⊢
            exact ⟨hinv.1, by simpa using this⟩)
          (by simp) (fun _ => rfl)
        simpa using this
  | text fin form key p =>
    have h' : execText fin p s = .next t := h
    refine guard 1 p _ h' fun hl hd => ?_
    cases hd
    exact startMessage_outcome .text fin p s ((State.tooLarge_false_iff _ _ _).1 hl).1
  | binary fin form key p =>
    have h' : execBinary fin p s = .next t := h
    refine guard 2 p _ h' fun hl hd => ?_
    cases hd
    exact startMessage_outcome .binary fin p s ((State.tooLarge_false_iff _ _ _).1 hl).1
  | close key p =>
    have h' : execClose p s = .next t := h
    refine guard 8 p _ h' fun hl hd => ?_
    split at hd
    · cases hd; exact violation
    · cases hd; exact .closes _ _
  | ping key p =>
    have h' : execPing p s = .next t := h
    refine guard 9 p _ h' fun hl hd => ?_
    split at hd
    · rename_i ho
      cases hd
      have := ReceivedOutcome.runs (s := s) s.a [.txWrite (encodeFrame true 10 p), .ev (.ping p)]
        (fun h => h)
        (by simp [isPlainOutput, isCloseWrite, isTxEnd, encodeFrame_head, headerByte0])
        (fun hn => absurd ((State.isOpen_iff s).1 ho) hn)
      simpa [State.output] using this
    · cases hd; exact receivedOutcome_same s
  | pong key p =>
    have h' : execPong p s = .next t := h
    refine guard 10 p _ h' fun hl hd => ?_
    split at hd
    · rename_i ho
      cases hd
      have := ReceivedOutcome.runs (s := s) s.a [.ev (.pong p)] (fun h => h)
        (by simp [isPlainOutput, isCloseWrite, isTxEnd])
        (fun hn => absurd ((State.isOpen_iff s).1 ho) hn)
      simpa [State.output] using this
    · cases hd; exact receivedOutcome_same s
  | txCont _ _ => cases hi
  | txText _ _ => cases hi
  | txBinary _ _ => cases hi
  | txClose _ => cases hi
  | txPing _ => cases hi
  | txPong _ => cases hi

/-- The inversion of a transmitted frame's execution: no effect, the frame written in OPEN, or the local
close. -/
theorem exec_transmitted {i : Instr} {s t : State} (hi : i.received = false)
    (h : exec i s = .next t) :
    t = s ∨
    (s.k.state = .opened ∧ i.opcode ≠ 8 ∧ isPlainOutput (.txWrite (encode i)) = true ∧
      t = { s with out := s.out ++ [.txWrite (encode i)] }) ∨
    (s.k.state = .opened ∧ ∃ p, i = .txClose p ∧ t = s.localClose p) := by
  have write : ∀ (fin : Bool) (op : BitVec 4) (p : Bytes) (fits : Bool),
      i.opcode = op → op ≠ 8 → encode i = encodeFrame fin op p →
      isPlainOutput (.txWrite (encodeFrame fin op p)) = true →
      transmitFrame fin op p fits s = .next t →
      t = s ∨ (s.k.state = .opened ∧ i.opcode ≠ 8 ∧ isPlainOutput (.txWrite (encode i)) = true ∧
        t = { s with out := s.out ++ [.txWrite (encode i)] }) := by
    intro fin op p fits ho h8 he hp ht
    rcases transmitFrame_cases fin op p fits s with ⟨h1, -, h2⟩ | ⟨-, h2⟩ <;> rw [h2] at ht <;>
      cases ht
    · exact .inr ⟨h1, ho ▸ h8, he ▸ hp, by rw [he]⟩
    · exact .inl rfl
  have plain : ∀ (fin : Bool) (op : BitVec 4) (p : Bytes),
      headerByte0 fin op ≠ 0x88#8 → isPlainOutput (.txWrite (encodeFrame fin op p)) = true := by
    intro fin op p hb
    simp [isPlainOutput, isCloseWrite, isTxEnd, encodeFrame_head, hb]
  cases i with
  | txCont fin p =>
    exact (write fin 0 p _ rfl (by decide) rfl (plain _ _ _ (by cases fin <;> decide)) h).imp id .inl
  | txText fin p =>
    exact (write fin 1 p _ rfl (by decide) rfl (plain _ _ _ (by cases fin <;> decide)) h).imp id .inl
  | txBinary fin p =>
    exact (write fin 2 p _ rfl (by decide) rfl (plain _ _ _ (by cases fin <;> decide)) h).imp id .inl
  | txClose p =>
    rcases execTxClose_cases p s with ⟨h1, -, -, h2⟩ | ⟨-, h2⟩ <;>
      (have h' : execTxClose p s = .next t := h; rw [h2] at h'; cases h')
    · exact .inr (.inr ⟨h1, p, rfl, rfl⟩)
    · exact .inl rfl
  | txPing p =>
    exact (write true 9 p _ rfl (by decide) rfl (plain _ _ _ (by decide)) h).imp id .inl
  | txPong p =>
    exact (write true 10 p _ rfl (by decide) rfl (plain _ _ _ (by decide)) h).imp id .inl
  | cont _ _ _ _ => cases hi
  | text _ _ _ _ => cases hi
  | binary _ _ _ _ => cases hi
  | close _ _ => cases hi
  | ping _ _ => cases hi
  | pong _ _ => cases hi

/-- A guarded frame answers a next state when its dispatch does. -/
theorem receiveFrame_next {op : BitVec 4} {p : Bytes} {s : State} {dispatch : State → Outcome}
    (h : ∃ t, dispatch s = .next t) : ∃ t, receiveFrame op p s dispatch = .next t := by
  rcases receiveFrame_cases op p s dispatch with ⟨-, h2⟩ | ⟨-, -, h2⟩ | ⟨-, -, h2⟩ <;> rw [h2]
  · exact ⟨_, rfl⟩
  · exact ⟨_, rfl⟩
  · exact h

theorem transmitFrame_next (fin : Bool) (op : BitVec 4) (p : Bytes) (fits : Bool) (s : State) :
    ∃ t, transmitFrame fin op p fits s = .next t := by
  rcases transmitFrame_cases fin op p fits s with ⟨-, -, h⟩ | ⟨-, h⟩ <;> exact ⟨_, h⟩

/-- Every frame answers a next state when an active accumulator has an opcode. -/
theorem exec_answers (i : Instr) {s : State} (h : accumulatorInv s = true) :
    ∃ t, exec i s = .next t := by
  cases i with
  | cont fin form key p =>
    show ∃ t, execCont fin p s = .next t
    refine receiveFrame_next ?_
    split
    · exact ⟨_, rfl⟩
    · rename_i ha
      split
      · cases ho : s.a.opcode with
        | some kind => exact ⟨_, rfl⟩
        | none => simp [accumulatorInv, ho] at h; simp_all
      · exact ⟨_, rfl⟩
  | text fin _ _ p =>
    show ∃ t, execText fin p s = .next t
    exact receiveFrame_next ⟨_, rfl⟩
  | binary fin _ _ p =>
    show ∃ t, execBinary fin p s = .next t
    exact receiveFrame_next ⟨_, rfl⟩
  | close _ p =>
    show ∃ t, execClose p s = .next t
    refine receiveFrame_next ?_
    split <;> exact ⟨_, rfl⟩
  | ping _ p =>
    show ∃ t, execPing p s = .next t
    refine receiveFrame_next ?_
    split <;> exact ⟨_, rfl⟩
  | pong _ p =>
    show ∃ t, execPong p s = .next t
    refine receiveFrame_next ?_
    split <;> exact ⟨_, rfl⟩
  | txCont _ _ => exact transmitFrame_next _ _ _ _ _
  | txText _ _ => exact transmitFrame_next _ _ _ _ _
  | txBinary _ _ => exact transmitFrame_next _ _ _ _ _
  | txPing _ => exact transmitFrame_next _ _ _ _ _
  | txPong _ => exact transmitFrame_next _ _ _ _ _
  | txClose p => rcases execTxClose_cases p s with ⟨-, -, -, h⟩ | ⟨-, h⟩ <;> exact ⟨_, h⟩

end Sys2Proof.Machine
end

