-- ==== Sys2Proof/Laws/Decoder.lean ====
section
/-! SUPPORT. The decoder's loop: every micro-step that goes on makes progress, so the fuel of `drain` is
enough, `drain` unfolds by one micro-step, and what every micro-step keeps the drain keeps. -/

namespace Sys2Proof.Machine

/-! ### What a received frame leaves unchanged -/

/-- The registers a received frame never writes, and the decoder, which it changes only by failing. -/
theorem ReceivedOutcome.frame {s t : State} (h : ReceivedOutcome s t) :
    t.cfg = s.cfg ∧ t.c = s.c ∧ t.h = s.h ∧ t.sha = s.sha ∧ t.inputs = s.inputs ∧
      t.k.paused = s.k.paused ∧ (t.d = s.d ∨ t.d.state = .failed ∧ t.k.state = .closed) := by
  cases h with
  | failed a' code kind _ _ => rw [raiseFail_eq]; simp
  | runs a' outs _ _ _ => simp
  | closes code reason => rw [State.closeReceived_eq]; simp

/-- A received frame's execution leaves the buffered bytes alone and keeps the decoder where it is unless it
fails. -/
theorem exec_received_frame {i : Instr} {s t : State} (hi : i.received = true)
    (h : exec i s = .next t) :
    t.c = s.c ∧ t.h = s.h ∧ (t.d = s.d ∨ t.d.state = .failed) := by
  rcases exec_received hi h with ⟨-, rfl⟩ | ⟨-, hr⟩
  · exact ⟨rfl, rfl, .inl rfl⟩
  · obtain ⟨-, hc, hh, -, -, -, hd⟩ := hr.frame
    exact ⟨hc, hh, hd.imp id And.left⟩

/-- The frame a micro-step runs is a received one with the register file's opcode. -/
theorem rxInstr_received {op : BitVec 4} {fin : Bool} {form : LenForm} {key : Key} {p : Bytes}
    {i : Instr} (h : rxInstr op fin form key p = some i) :
    i.received = true ∧ i.opcode = op ∧ i.payload = p := by
  unfold rxInstr at h
  (repeat' split at h) <;> cases h <;> simp_all [Instr.received, Instr.opcode, Instr.payload]

/-- The legal opcodes are exactly those a frame is built for. -/
theorem rxInstr_isSome (op : BitVec 4) (fin : Bool) (form : LenForm) (key : Key) (p : Bytes) :
    (rxInstr op fin form key p).isSome = legalOpcode op := by
  simp only [rxInstr, legalOpcode]
  (repeat' split) <;> simp_all

/-! ### The two directions -/

theorem txInstr_transmitted {op : BitVec 4} {fin : Bool} {p : Bytes} {i : Instr}
    (h : txInstr op fin p = some i) : i.received = false := by
  unfold txInstr at h
  (repeat' split at h) <;> cases h <;> rfl

/-- A header with MASK = 1 is no transmitted frame's. -/
theorem txHeaderFault_masked {h : BaseHeader} (hf : txHeaderFault h = none) : h.masked = false := by
  unfold txHeaderFault at hf
  split at hf
  · cases hf
  · split at hf
    · cases hf
    · simpa using ‹¬h.masked = true›

/-- What the transmitted frames' decoder reads, `decode` reads: a transmitted frame. -/
theorem decode_of_decodeTx {bs rest : Bytes} {i : Instr} (h : decodeTx bs = .ok (i, rest)) :
    i.received = false ∧ decode bs = .ok (i, rest) := by
  match bs, h with
  | b0 :: b1 :: bs, h =>
    have hm : b1.getLsbD 7 = false := by
      simp only [decodeTx] at h
      split at h
      · cases h
      · exact txHeaderFault_masked (h := baseHeader b0 b1) ‹_›
    refine ⟨?_, by rw [decode]; simp only [hm]; exact h⟩
    simp only [decodeTx] at h
    (repeat' split at h) <;> cases h
    exact txInstr_transmitted (by assumption)

/-- A transmitted frame that `decode` reads, the transmitted frames' decoder reads. -/
theorem decodeTx_of_decode {bs rest : Bytes} {i : Instr} (h : decode bs = .ok (i, rest))
    (hi : i.received = false) : decodeTx bs = .ok (i, rest) := by
  match bs, h with
  | b0 :: b1 :: bs, h =>
    simp only [decode] at h
    split at h
    · simp only [decodeRx] at h
      (repeat' split at h) <;> cases h
      rw [(rxInstr_received (by assumption)).1] at hi
      cases hi
    · exact h

/-! ### Progress -/

/-- The number of micro-steps the buffered bytes can still take. -/
def State.fetchMeasure (s : State) : Nat :=
  2 * s.c.total + if s.d.state = .awaitingPayload then 1 else 0

theorem raiseFail_decoding (code : U16) (kind : Kind) (s : State) :
    (raiseFail code kind s).decoding = false := by
  rw [raiseFail_eq]; rfl

theorem microStep_progress {s t : State} (h : microStep s = .ran (.next t)) :
    t.decoding = false ∨ t.fetchMeasure < s.fetchMeasure := by
  unfold microStep at h
  split at h
  · rename_i hst
    simp only [microHeader] at h
    split at h
    · cases h
    · rename_i bs c hc
      have hc' := Cursor.tryConsume_total hc
      split at h <;> cases h
      · exact .inl (raiseFail_decoding _ _ _)
      · right
        simp only [afterHeader, State.fetchMeasure, hst]
        (repeat' split) <;> simp_all [State.setDec] <;> omega
  · rename_i hst
    simp only [microExtLen16] at h
    split at h
    · cases h
    · rename_i bs c hc
      have hc' := Cursor.tryConsume_total hc
      cases h
      right
      simp only [State.fetchMeasure, hst, State.setDec]
      simp; omega
  · rename_i hst
    simp only [microExtLen64] at h
    split at h
    · cases h
    · rename_i bs c hc
      have hc' := Cursor.tryConsume_total hc
      split at h <;> cases h
      · right
        simp only [State.fetchMeasure, hst, State.setDec]
        simp; omega
      · exact .inl (raiseFail_decoding _ _ _)
  · rename_i hst
    simp only [microMaskKey] at h
    split at h
    · cases h
    · rename_i bs c hc
      have hc' := Cursor.tryConsume_total hc
      cases h
      right
      simp only [Config.keyBytes] at hc'
      simp only [State.fetchMeasure, hst, State.setDec]
      simp; omega
  · rename_i hst
    simp only [microPayload] at h
    split at h
    · cases h; exact .inl (raiseFail_decoding _ _ _)
    · split at h
      · cases h
      · rename_i w c hc
        have hc' := Cursor.tryConsume_total hc
        simp only [Micro.ran.injEq, runFrame] at h
        split at h
        · rename_i i hi
          obtain ⟨htc, -, htd⟩ := exec_received_frame (rxInstr_received hi).1 h
          rcases htd with htd | htd
          · right
            simp only [State.fetchMeasure, hst, htc, htd, State.setDec]
            simp; omega
          · left; simp [State.decoding, htd]
        · cases h
  · cases h

/-- More fuel than the measure changes nothing. -/
theorem drainLoop_fuel (s : State) (n m : Nat) (hn : s.fetchMeasure < n) (hm : s.fetchMeasure < m) :
    drainLoop n s = drainLoop m s := by
  induction n generalizing s m with
  | zero => omega
  | succ n ih =>
    cases m with
    | zero => omega
    | succ m =>
      simp only [drainLoop]
      split
      · cases hms : microStep s with
        | suspended => rfl
        | ran o =>
          cases o with
          | next t =>
            rcases microStep_progress hms with hd | hlt
            · have stop : ∀ k, drainLoop k t = .next t := by
                intro k; cases k <;> simp [drainLoop, hd]
              simp only [stop]
            · exact ih t m (by omega) (by omega)
          | fault f => rfl
          | refused e => rfl
      · rfl

theorem State.fetchMeasure_le (s : State) : s.fetchMeasure < 2 * s.c.total + 2 := by
  unfold State.fetchMeasure; split <;> omega

/-- The drain by one micro-step. -/
theorem drain_unfold (s : State) :
    drain s = if s.decoding then
        match microStep s with
        | .suspended => .next s
        | .ran o => drainAfter o
      else .next s := by
  unfold drain
  rw [show 2 * s.c.total + 2 = (2 * s.c.total + 1) + 1 from rfl, drainLoop]
  split
  · cases hms : microStep s with
    | suspended => rfl
    | ran o =>
      cases o with
      | next t =>
        simp only [drainAfter, drain]
        rcases microStep_progress hms with hd | hlt
        · have stop : ∀ k, drainLoop k t = .next t := by
            intro k; cases k <;> simp [drainLoop, hd]
          simp only [stop]
        · have := State.fetchMeasure_le s
          exact drainLoop_fuel t _ _ (by omega) (State.fetchMeasure_le t)
      | fault f => rfl
      | refused e => rfl
  · rfl

theorem drain_idle {s : State} (h : s.decoding = false) : drain s = .next s := by
  rw [drain_unfold]; simp [h]

theorem drain_suspended {s : State} (h : microStep s = .suspended) : drain s = .next s := by
  rw [drain_unfold]; simp [h]

theorem drain_ran {s : State} {o : Outcome} (hd : s.decoding = true) (h : microStep s = .ran o) :
    drain s = drainAfter o := by
  rw [drain_unfold]; simp [hd, h]

/-- What every micro-step of a running decoder keeps, the drain keeps. -/
theorem drain_keeps {P : State → Prop}
    (step : ∀ s t, s.decoding = true → P s → microStep s = .ran (.next t) → P t)
    {s t : State} (h : drain s = .next t) (hs : P s) : P t := by
  unfold drain at h
  generalize 2 * s.c.total + 2 = fuel at h
  induction fuel generalizing s with
  | zero => cases h; exact hs
  | succ n ih =>
    simp only [drainLoop] at h
    split at h
    · rename_i hd
      cases hms : microStep s with
      | suspended => rw [hms] at h; cases h; exact hs
      | ran o =>
        rw [hms] at h
        cases o with
        | next u => exact ih (step s u hd hs hms) h
        | fault f => cases h
        | refused e => cases h
    · cases h; exact hs

/-- The drain ends with a decoder that does not run, or that is suspended. -/
theorem drain_exhausts {s t : State} (h : drain s = .next t) :
    t.decoding = false ∨ microStep t = .suspended := by
  have main : ∀ n s, s.fetchMeasure < n → drainLoop n s = .next t →
      t.decoding = false ∨ microStep t = .suspended := by
    intro n
    induction n with
    | zero => intro s hn; omega
    | succ n ih =>
      intro s hn h
      simp only [drainLoop] at h
      split at h
      · cases hms : microStep s with
        | suspended => rw [hms] at h; cases h; exact .inr hms
        | ran o =>
          rw [hms] at h
          cases o with
          | next u =>
            rcases microStep_progress hms with hd | hlt
            · left
              cases n <;> simp [drainLoop, hd] at h <;> exact h ▸ hd
            · exact ih u (by omega) h
          | fault f => cases h
          | refused e => cases h
      · rename_i hd
        cases h
        exact .inl (by simpa using hd)
  exact main _ _ (State.fetchMeasure_le s) h

end Sys2Proof.Machine
end

