-- ==== Sys2Proof/Laws/Handshake.lean ====
section
/-! SUPPORT. What the handshake's string functions accept, said once for each: trimming, letter case, comma
pieces and numerals, and with them the checks in the terms of Safety.lean. -/

namespace Sys2Proof.Machine

/-! ### Trimming (R266) -/

theorem isBlankByte_iff (b : Byte) : isBlankByte b = true ↔ b = 0x20 ∨ b = 0x09 := by
  simp [isBlankByte]

/-- The text neither begins nor ends with a blank. -/
def isTight (t : Bytes) : Prop :=
  (∀ b, t.head? = some b → isBlankByte b = false) ∧ ∀ b, t.getLast? = some b → isBlankByte b = false

theorem dropWhile_blank_append {before t : Bytes} (hb : ∀ b ∈ before, isBlankByte b = true)
    (ht : ∀ b, t.head? = some b → isBlankByte b = false) :
    (before ++ t).dropWhile isBlankByte = t := by
  induction before with
  | nil =>
    cases t with
    | nil => rfl
    | cons b rest => simp [ht b rfl]
  | cons b rest ih =>
    simp only [List.cons_append, List.dropWhile_cons, hb b (by simp), if_true]
    exact ih fun x hx => hb x (by simp [hx])

/-- The first byte that `dropWhile` leaves does not meet its test. -/
theorem dropWhile_blank_head {t : Bytes} {b : Byte}
    (h : (t.dropWhile isBlankByte).head? = some b) : isBlankByte b = false := by
  induction t with
  | nil => simp at h
  | cons x rest ih =>
    simp only [List.dropWhile_cons] at h
    split at h
    · exact ih h
    · simp_all

/-- A byte string splits into the blanks before it and what `dropWhile` leaves. -/
theorem dropWhile_blank_split (t : Bytes) :
    ∃ before, t = before ++ t.dropWhile isBlankByte ∧ ∀ b ∈ before, isBlankByte b = true := by
  induction t with
  | nil => exact ⟨[], rfl, by simp⟩
  | cons x rest ih =>
    simp only [List.dropWhile_cons]
    split
    · obtain ⟨before, h1, h2⟩ := ih
      exact ⟨x :: before, by rw [List.cons_append, ← h1], by simpa using ⟨‹_›, h2⟩⟩
    · exact ⟨[], rfl, by simp⟩

theorem trimmed_isPadded (v : Bytes) : isPadded v (trimmed v) := by
  obtain ⟨before, h1, h2⟩ := dropWhile_blank_split v
  obtain ⟨after, h3, h4⟩ := dropWhile_blank_split (v.dropWhile isBlankByte).reverse
  refine ⟨before, after.reverse, ?_, fun b hb => (isBlankByte_iff b).1 (h2 b hb),
    fun b hb => (isBlankByte_iff b).1 (h4 b (by simpa using hb))⟩
  have h5 := congrArg List.reverse h3
  simp only [List.reverse_reverse, List.reverse_append] at h5
  rw [List.append_assoc, trimmed, ← h5, ← h1]

/-- The trimmed value is the one tight text that the value pads. -/
theorem trimmed_eq {v t : Bytes} (ht : isTight t) (h : isPadded v t) : trimmed v = t := by
  obtain ⟨before, after, rfl, hb, ha⟩ := h
  have hb' : ∀ b ∈ before, isBlankByte b = true := fun b h => (isBlankByte_iff b).2 (hb b h)
  have ha' : ∀ b ∈ after.reverse, isBlankByte b = true :=
    fun b h => (isBlankByte_iff b).2 (ha b (by simpa using h))
  unfold trimmed
  cases t with
  | nil =>
    have hall : ∀ b ∈ before ++ [] ++ after, isBlankByte b = true := by
      simpa [or_imp, forall_and] using ⟨hb', fun b h => ha' b (by simpa using h)⟩
    have hnil : (before ++ [] ++ after).dropWhile isBlankByte = [] := by
      rw [List.dropWhile_eq_nil_iff]; exact hall
    rw [hnil]; rfl
  | cons x rest =>
    rw [List.append_assoc, dropWhile_blank_append hb' (fun b h => ht.1 b (by simpa using h)),
      List.reverse_append, dropWhile_blank_append ha', List.reverse_reverse]
    intro b h
    exact ht.2 b (by rw [← List.head?_reverse]; exact h)

theorem trimmed_eq_iff {v t : Bytes} (ht : isTight t) : trimmed v = t ↔ isPadded v t :=
  ⟨fun h => h ▸ trimmed_isPadded v, trimmed_eq ht⟩

/-! ### Letter case (R266) -/

theorem lowerByte_eq_iff (x y : Byte) (hy : lowerByte y = y) :
    lowerByte x = lowerByte y ↔
      x = y ∨ 0x41 ≤ x.toNat ∧ x.toNat ≤ 0x5A ∧ y.toNat = x.toNat + 0x20 := by
  rw [hy]
  revert x y
  unfold lowerByte
  intro x y hy
  have hx := x.isLt
  by_cases hu : 0x41 ≤ x.toNat ∧ x.toNat ≤ 0x5A
  · simp only [hu.1, hu.2, decide_true, Bool.and_self, if_true, true_and]
    constructor
    · rintro rfl
      right
      rw [BitVec.toNat_add]; simp; omega
    · rintro (rfl | h)
      · simp [hu.1, hu.2] at hy
      · apply BitVec.eq_of_toNat_eq
        rw [BitVec.toNat_add]; simp; omega
  · have : (decide (0x41 ≤ x.toNat) && decide (x.toNat ≤ 0x5A)) = false := by
      simpa using fun h => by omega
    simp only [this]
    constructor
    · exact .inl
    · rintro (h | ⟨h1, h2, -⟩)
      · exact h
      · exact absurd ⟨h1, h2⟩ hu

/-- Equality without regard to letter case, with a text that has no upper-case letter. -/
theorem sameNoCase_iff (t : Bytes) (name : String)
    (hname : ∀ b ∈ Config.ascii name, lowerByte b = b) :
    sameNoCase t (Config.ascii name) = true ↔ spells t name := by
  unfold sameNoCase spells
  rw [beq_iff_eq]
  revert hname
  generalize Config.ascii name = u
  intro hu
  induction t generalizing u with
  | nil => cases u <;> simp
  | cons x rest ih =>
    cases u with
    | nil => simp
    | cons y us =>
      rw [List.map_cons, List.map_cons, List.cons.injEq, List.forall₂_cons,
        ih us fun b h => hu b (by simp [h]), lowerByte_eq_iff x y (hu y (by simp))]

/-- A text that spells a name of letters is tight. -/
theorem spells_isTight {t : Bytes} {name : String} (h : spells t name)
    (hname : ∀ b ∈ Config.ascii name, 0x61 ≤ b.toNat) : isTight t := by
  have key : ∀ b ∈ t, isBlankByte b = false := by
    intro b hb
    obtain ⟨y, hy, hr⟩ : ∃ y ∈ Config.ascii name,
        b = y ∨ 0x41 ≤ b.toNat ∧ b.toNat ≤ 0x5A ∧ y.toNat = b.toNat + 0x20 := by
      clear hname
      unfold spells at h
      revert h
      generalize Config.ascii name = u
      intro h
      induction h with
      | nil => simp at hb
      | cons hxy _ ih =>
        rcases List.mem_cons.1 hb with rfl | hb
        · exact ⟨_, by simp, hxy⟩
        · obtain ⟨y, hy, hr⟩ := ih hb
          exact ⟨y, by simp [hy], hr⟩
    have hy' := hname y hy
    rw [Bool.eq_false_iff, Ne, isBlankByte_iff]
    rintro (rfl | rfl) <;> rcases hr with rfl | hr <;> simp at *
  exact ⟨fun b hb => key b (List.mem_of_mem_head? hb), fun b hb => key b (List.mem_of_getLast? hb)⟩

/-! ### Comma pieces (R263) -/

theorem splitCommas_ne_nil (v : Bytes) : splitCommas v ≠ [] := by
  cases v with
  | nil => simp [splitCommas]
  | cons b rest =>
    unfold splitCommas
    split
    · simp
    · split <;> simp

/-- The first piece begins the value and ends at its end or at a comma; the others are pieces after a comma. -/
theorem mem_splitCommas (v piece : Bytes) :
    piece ∈ splitCommas v ↔
      (∀ b ∈ piece, b ≠ 0x2C) ∧ ∃ before after, v = before ++ piece ++ after ∧
        (before = [] ∨ before.getLast? = some 0x2C) ∧ (after = [] ∨ after.head? = some 0x2C) := by
  have first : ∀ v : Bytes, (splitCommas v).head? = some (v.takeWhile fun b => b != 0x2C) := by
    intro v
    induction v with
    | nil => rfl
    | cons b rest ih =>
      unfold splitCommas
      by_cases hb : b = 0x2C#8
      · simp [hb]
      · have hne := splitCommas_ne_nil rest
        cases hs : splitCommas rest with
        | nil => exact absurd hs hne
        | cons p ps => rw [hs] at ih; simp at ih; simp [hb, ih]
  have tail_mem : ∀ (b : Byte) (rest : Bytes), piece ∈ (splitCommas (b :: rest)).tail ↔
      if b = 0x2C then piece ∈ splitCommas rest else piece ∈ (splitCommas rest).tail := by
    intro b rest
    by_cases hb : b = 0x2C#8
    · simp [splitCommas, hb]
    · have hne := splitCommas_ne_nil rest
      cases hs : splitCommas rest with
      | nil => exact absurd hs hne
      | cons p ps => simp [splitCommas, hb, hs]
  have mem_iff : ∀ v : Bytes, piece ∈ splitCommas v ↔
      piece = v.takeWhile (fun b => b != 0x2C) ∨ piece ∈ (splitCommas v).tail := by
    intro v
    have hf := first v
    cases hs : splitCommas v with
    | nil => exact absurd hs (splitCommas_ne_nil v)
    | cons p ps => rw [hs] at hf; simp at hf; simp [hf]
  have atHead : ∀ v : Bytes, piece = v.takeWhile (fun b => b != 0x2C) ↔
      (∀ b ∈ piece, b ≠ 0x2C) ∧ ∃ after, v = piece ++ after ∧
        (after = [] ∨ after.head? = some 0x2C) := by
    intro v
    constructor
    · rintro rfl
      refine ⟨fun b hb => by simpa using List.mem_takeWhile_imp hb,
        v.dropWhile (fun b => b != 0x2C), (List.takeWhile_append_dropWhile).symm, ?_⟩
      cases hd : v.dropWhile (fun b => b != 0x2C) with
      | nil => exact .inl rfl
      | cons b rest =>
        right
        have := List.head?_dropWhile_not (fun b : Byte => b != 0x2C) v
        rw [hd] at this
        simpa using this
    · rintro ⟨hp, after, rfl, ha⟩
      rw [List.takeWhile_append_of_pos fun b hb => by simpa using hp b hb]
      rcases ha with rfl | ha
      · simp
      · cases after with
        | nil => simp at ha
        | cons b rest => simp at ha; simp [ha]
  have tail_iff : ∀ v : Bytes, piece ∈ (splitCommas v).tail ↔
      (∀ b ∈ piece, b ≠ 0x2C) ∧ ∃ before after, v = before ++ piece ++ after ∧
        before.getLast? = some 0x2C ∧ (after = [] ∨ after.head? = some 0x2C) := by
    intro v
    induction v with
    | nil => simp [splitCommas]
    | cons b rest ih =>
      rw [tail_mem]
      by_cases hb : b = 0x2C
      · rw [if_pos hb, mem_iff, ih, atHead]
        subst hb
        constructor
        · rintro (⟨hp, after, rfl, ha⟩ | ⟨hp, before, after, rfl, hbf, ha⟩)
          · exact ⟨hp, [0x2C], after, by simp, by simp, ha⟩
          · exact ⟨hp, 0x2C :: before, after, by simp, by simp [List.getLast?_cons, hbf], ha⟩
        · rintro ⟨hp, before, after, hv, hbf, ha⟩
          cases before with
          | nil => simp at hbf
          | cons c cs =>
            simp only [List.cons_append, List.cons.injEq] at hv
            cases cs with
            | nil => exact .inl ⟨hp, after, by simpa using hv.2, ha⟩
            | cons d ds => exact .inr ⟨hp, d :: ds, after, hv.2, by simpa using hbf, ha⟩
      · rw [if_neg hb, ih]
        constructor
        · rintro ⟨hp, before, after, rfl, hbf, ha⟩
          exact ⟨hp, b :: before, after, by simp, by simp [List.getLast?_cons, hbf], ha⟩
        · rintro ⟨hp, before, after, hv, hbf, ha⟩
          cases before with
          | nil => simp at hbf
          | cons c cs =>
            simp only [List.cons_append, List.cons.injEq] at hv
            cases cs with
            | nil => simp at hbf; exact absurd (hv.1.trans hbf) hb
            | cons d ds => exact ⟨hp, d :: ds, after, hv.2, by simpa using hbf, ha⟩
  rw [mem_iff, tail_iff, atHead]
  constructor
  · rintro (⟨hp, after, rfl, ha⟩ | ⟨hp, before, after, rfl, hbf, ha⟩)
    · exact ⟨hp, [], after, rfl, .inl rfl, ha⟩
    · exact ⟨hp, before, after, rfl, .inr hbf, ha⟩
  · rintro ⟨hp, before, after, rfl, hbf, ha⟩
    rcases hbf with rfl | hbf
    · exact .inl ⟨hp, after, rfl, ha⟩
    · exact .inr ⟨hp, before, after, rfl, hbf, ha⟩

/-! ### Numerals (R265) -/

/-- The fold that reads a numeral, digit by digit. -/
def readDigits (acc : Nat) (s : Bytes) : Nat := s.foldl (fun acc b => acc * 10 + (b.toNat - 0x30)) acc

/-- The ASCII digit of a value. -/
def digitByte (d : Nat) : Byte := BitVec.ofNat 8 (0x30 + d)

theorem digitByte_toNat {d : Nat} (h : d < 10) : (digitByte d).toNat = 0x30 + d := by
  simp [digitByte]; omega

theorem readDigits_append (acc : Nat) (s t : Bytes) :
    readDigits acc (s ++ t) = readDigits (readDigits acc s) t := by
  simp [readDigits, List.foldl_append]

/-- Reading the digits of a list of values, least first, gives the number of base 10. -/
theorem readDigits_digits (ds : List Nat) (h : ∀ d ∈ ds, d < 10) :
    readDigits 0 (ds.reverse.map digitByte) = Nat.ofDigits 10 ds := by
  induction ds with
  | nil => rfl
  | cons d rest ih =>
    rw [List.reverse_cons, List.map_append, readDigits_append, ih fun x hx => h x (by simp [hx]),
      Nat.ofDigits_cons]
    simp [readDigits, digitByte_toNat (h d (by simp))]
    omega

/-- A digit byte is the digit of its value. -/
theorem digitByte_of_isDigit {b : Byte} (h : isDigitByte b = true) :
    b.toNat - 0x30 < 10 ∧ digitByte (b.toNat - 0x30) = b := by
  simp only [isDigitByte, Bool.and_eq_true, decide_eq_true_eq] at h
  refine ⟨by omega, BitVec.eq_of_toNat_eq ?_⟩
  rw [digitByte_toNat (by omega)]; omega

theorem numeral_pos {n : Nat} (h : n ≠ 0) :
    numeral n = (Nat.digits 10 n).reverse.map digitByte := by simp [numeral, h, digitByte]

/-- The numerals are exactly the texts the version check reads. -/
theorem decimalNumeral_iff (s : Bytes) (n : Nat) : decimalNumeral s = some n ↔ s = numeral n := by
  have hz : ∀ {d : Nat}, d < 10 → (digitByte d = 0x30 ↔ d = 0) := by
    intro d hd
    rw [← BitVec.toNat_inj, digitByte_toNat hd]; simp
  constructor
  · intro h
    unfold decimalNumeral at h
    split at h
    · rename_i h0; cases h; simpa [numeral] using h0
    · split at h
      · rename_i hs
        simp only [Bool.and_eq_true, Bool.not_eq_true', List.all_eq_true] at hs
        obtain ⟨⟨hne, hall⟩, hh⟩ := hs
        have hmap : s = ((s.map fun b => b.toNat - 0x30).reverse.reverse).map digitByte := by
          rw [List.reverse_reverse, List.map_map]
          conv_lhs => rw [← List.map_id s]
          exact List.map_congr_left fun b hb => (digitByte_of_isDigit (hall b hb)).2.symm
        generalize hds : (s.map fun b => b.toNat - 0x30).reverse = ds at hmap
        have hlt : ∀ d ∈ ds, d < 10 := by
          intro d hd
          rw [← hds, List.mem_reverse, List.mem_map] at hd
          obtain ⟨b, hb, rfl⟩ := hd
          exact (digitByte_of_isDigit (hall b hb)).1
        have hlast : ∀ hd : ds ≠ [], ds.getLast hd ≠ 0 := by
          intro hd h0
          have : s.head? = some (digitByte (ds.getLast hd)) := by
            rw [hmap, List.head?_map, List.head?_reverse, List.getLast?_eq_some_getLast hd]; rfl
          rw [this, h0] at hh
          exact absurd hh (by decide)
        have hn : n = Nat.ofDigits 10 ds := by
          rw [← readDigits_digits ds hlt, ← hmap]; simpa [readDigits] using h.symm
        have hdig : Nat.digits 10 n = ds := by rw [hn]; exact Nat.digits_ofDigits 10 (by omega) ds hlt hlast
        have hn0 : n ≠ 0 := by
          rintro rfl
          rw [Nat.digits_zero] at hdig
          rw [← hdig] at hmap
          simp [hmap] at hne
        rw [numeral_pos hn0, hdig, hmap]
      · cases h
  · rintro rfl
    by_cases hn : n = 0
    · subst hn; rfl
    · have hlt : ∀ d ∈ Nat.digits 10 n, d < 10 := fun d hd => Nat.digits_lt_base (by omega) hd
      have hne : Nat.digits 10 n ≠ [] := Nat.digits_ne_nil_iff_ne_zero.2 hn
      have hhead : (numeral n).head? = some (digitByte ((Nat.digits 10 n).getLast hne)) := by
        rw [numeral_pos hn, List.head?_map, List.head?_reverse, List.getLast?_eq_some_getLast hne]; rfl
      have hl0 := Nat.getLast_digit_ne_zero 10 hn
      have hh : (numeral n).head? ≠ some 0x30 := by
        rw [hhead, Ne, Option.some.injEq, hz (hlt _ (List.getLast_mem hne))]
        exact hl0
      have hval : readDigits 0 (numeral n) = n := by
        rw [numeral_pos hn, readDigits_digits _ hlt, Nat.ofDigits_digits]
      have hall : (numeral n).all isDigitByte = true := by
        rw [numeral_pos hn, List.all_eq_true]
        intro b hb
        rw [List.mem_map] at hb
        obtain ⟨d, hd, rfl⟩ := hb
        have := hlt d (List.mem_reverse.1 hd)
        rw [isDigitByte, digitByte_toNat this]
        simp; omega
      unfold decimalNumeral
      rw [if_neg, if_pos]
      · exact congrArg some hval
      · simp only [Bool.and_eq_true, hall, bne_iff_ne, ne_eq, Bool.not_eq_true', and_true]
        refine ⟨?_, hh⟩
        cases h : numeral n with
        | nil => rw [h] at hhead; cases hhead
        | cons _ _ => rfl
      · intro h
        rw [beq_iff_eq] at h
        exact hh (by rw [h]; rfl)

/-- A numeral is tight. -/
theorem numeral_isTight (n : Nat) : isTight (numeral n) := by
  have key : ∀ b ∈ numeral n, isBlankByte b = false := by
    intro b hb
    have hd : isDigitByte b = true := by
      by_cases hn : n = 0
      · subst hn; simp [numeral] at hb; subst hb; decide
      · rw [numeral_pos hn, List.mem_map] at hb
        obtain ⟨d, hd, rfl⟩ := hb
        have := Nat.digits_lt_base (by omega) (List.mem_reverse.1 hd)
        rw [isDigitByte, digitByte_toNat this]
        simp; omega
    rw [Bool.eq_false_iff, Ne, isBlankByte_iff]
    rintro (rfl | rfl) <;> exact absurd hd (by decide)
  exact ⟨fun b hb => key b (List.mem_of_mem_head? hb), fun b hb => key b (List.mem_of_getLast? hb)⟩

/-! ### The checks in the terms of Safety.lean -/

theorem headerValue_eq (headers : Headers) (name : String) :
    headerValue headers name = (headers.lookup (Config.ascii name)).map trimmed := rfl

theorem methodOk_iff (method : Bytes) : methodOk method = true ↔ method = [0x47, 0x45, 0x54] := by
  rw [methodOk, beq_iff_eq]
  exact Iff.rfl

/-- A padded text that spells a lower-case name, by the code's own comparison. -/
theorem padded_spells_iff (v : Bytes) (name : String)
    (hname : ∀ b ∈ Config.ascii name, lowerByte b = b)
    (htight : ∀ b ∈ Config.ascii name, 0x61 ≤ b.toNat) :
    sameNoCase (trimmed v) (Config.ascii name) = true ↔ ∃ t, isPadded v t ∧ spells t name := by
  rw [sameNoCase_iff _ _ hname]
  constructor
  · exact fun h => ⟨_, trimmed_isPadded v, h⟩
  · rintro ⟨t, hp, hs⟩
    rwa [trimmed_eq (spells_isTight hs htight) hp]

theorem upgradeOk_iff (headers : Headers) : upgradeOk headers = true ↔ asksForWebsocket headers := by
  unfold upgradeOk asksForWebsocket
  rw [headerValue_eq]
  cases headers.lookup (Config.ascii "upgrade") with
  | none => simp
  | some v =>
    simpa using padded_spells_iff v "websocket" (by decide) (by decide)

theorem connectionOk_iff (headers : Headers) : connectionOk headers = true ↔ listsUpgrade headers := by
  unfold connectionOk listsUpgrade
  cases headers.lookup (Config.ascii "connection") with
  | none => simp
  | some v =>
    simp only [List.any_eq_true]
    constructor
    · rintro ⟨piece, hm, hs⟩
      obtain ⟨t, hp, hsp⟩ := (padded_spells_iff piece "upgrade" (by decide) (by decide)).1 hs
      obtain ⟨-, before, after, hv, hb, ha⟩ := (mem_splitCommas v piece).1 hm
      exact ⟨v, before, piece, after, t, rfl, hv, hb, ha, hp, hsp⟩
    · rintro ⟨v', before, piece, after, t, hv', hv, hb, ha, hp, hsp⟩
      cases hv'
      refine ⟨piece, (mem_splitCommas v piece).2 ⟨?_, before, after, hv, hb, ha⟩,
        (padded_spells_iff piece "upgrade" (by decide) (by decide)).2 ⟨t, hp, hsp⟩⟩
      obtain ⟨pre, post, rfl, h1, h2⟩ := hp
      have ht : ∀ b ∈ t, b ≠ 0x2C := by
        have hlow : ∀ y ∈ Config.ascii "upgrade", 0x61 ≤ y.toNat := by decide
        unfold spells at hsp
        revert hsp hlow
        generalize Config.ascii "upgrade" = u
        intro hsp hlow
        clear * - hsp hlow
        induction hsp with
        | nil => simp
        | @cons x y xs ys hxy _ ih =>
          have hy := hlow y (by simp)
          intro b hb
          rcases List.mem_cons.1 hb with rfl | hb
          · rintro rfl
            rcases hxy with rfl | hxy <;> simp at *
          · exact ih (fun z hz => hlow z (by simp [hz])) b hb
      intro b hb
      simp only [List.mem_append] at hb
      rcases hb with (hb | hb) | hb
      · rcases h1 b hb with rfl | rfl <;> decide
      · exact ht b hb
      · rcases h2 b hb with rfl | rfl <;> decide

theorem versionOk_iff (cfg : Params) (headers : Headers) :
    versionOk cfg headers = true ↔ offersVersion cfg headers := by
  unfold versionOk offersVersion
  rw [headerValue_eq]
  cases headers.lookup (Config.ascii "sec-websocket-version") with
  | none => simp
  | some v =>
    simp only [Option.map_some]
    constructor
    · intro h
      cases hd : decimalNumeral (trimmed v) with
      | none => rw [hd] at h; cases h
      | some n =>
        rw [hd] at h
        refine ⟨v, n, rfl, by simpa using h, ?_⟩
        rw [← (decimalNumeral_iff _ _).1 hd]
        exact trimmed_isPadded v
    · rintro ⟨v', n, hv, hn, hp⟩
      cases hv
      rw [trimmed_eq (numeral_isTight n) hp, (decimalNumeral_iff _ _).2 rfl]
      simpa using hn

/-- The chaining values, the registers a digest is read from. -/
def sameChaining (r r' : Sha1Regs) : Prop :=
  r.h0 = r'.h0 ∧ r.h1 = r'.h1 ∧ r.h2 = r'.h2 ∧ r.h3 = r'.h3 ∧ r.h4 = r'.h4

/-- A block on the same chaining values gives the same registers. -/
theorem sha1Block_same {r r' : Sha1Regs} (h : sameChaining r r') (block : Bytes) :
    sha1Block r block = sha1Block r' block := by
  obtain ⟨h0, h1, h2, h3, h4⟩ := h
  unfold sha1Block
  rw [h0, h1, h2, h3, h4]

/-- The digest does not depend on what the registers held before. -/
theorem sha1Digest_run (r r' : Sha1Regs) (m : Bytes) :
    sha1Digest (sha1Run r m) = sha1Digest (sha1Run r' m) := by
  have fold : ∀ (blocks : List Bytes) (r r' : Sha1Regs), sameChaining r r' →
      sameChaining (blocks.foldl sha1Block r) (blocks.foldl sha1Block r') := by
    intro blocks
    induction blocks with
    | nil => exact fun _ _ h => h
    | cons b bs ih =>
      intro r r' h
      rw [List.foldl_cons, List.foldl_cons, sha1Block_same h]
      exact ih _ _ ⟨rfl, rfl, rfl, rfl, rfl⟩
  obtain ⟨h0, h1, h2, h3, h4⟩ :=
    fold (sha1Blocks (sha1Pad m).length (sha1Pad m)) (sha1Load r) (sha1Load r')
      ⟨rfl, rfl, rfl, rfl, rfl⟩
  unfold sha1Digest sha1Run
  rw [h0, h1, h2, h3, h4]

end Sys2Proof.Machine
end

