-- ==== Sys2Proof/Laws/PerInstr.lean ====
section
/-! SUPPORT. Statements for all instructions, one lemma for each constructor: the size of a frame
(30_encoding.md R92, R106). -/

namespace Sys2Proof

@[simp] theorem unmaskFrom_length (key : Key) (n : Nat) (w : Bytes) :
    (unmaskFrom key n w).length = w.length := by
  induction w generalizing n with
  | nil => rfl
  | cons b rest ih => simp [unmaskFrom, ih]

@[simp] theorem toBe_length (n v : Nat) : (toBe n v).length = n := by
  induction n with
  | zero => rfl
  | succ n ih => simp [toBe, ih]

namespace Laws.FrameSize

/-- A frame is a header and a body as long as the payload; the header has 6, 8 or 14 bytes in a received
frame (with the key) and 2, 4 or 10 in a transmitted one. -/
def Statement (i : Instr) : Prop :=
  ∃ hdr body : Bytes, encode i = hdr ++ body ∧ body.length = i.payload.length ∧
    (if i.received then hdr.length = 6 ∨ hdr.length = 8 ∨ hdr.length = 14
      else hdr.length = 2 ∨ hdr.length = 4 ∨ hdr.length = 10)

theorem rx (fin : Bool) (op : BitVec 4) (form : LenForm) (key : Key) (p : Bytes) :
    ∃ hdr body : Bytes, rxFrame fin op form key p = hdr ++ body ∧ body.length = p.length ∧
      (hdr.length = 6 ∨ hdr.length = 8 ∨ hdr.length = 14) :=
  ⟨headerByte0 fin op :: headerByte1 true (form.field p.length) ::
      (form.ext p.length ++ key.bytes), unmask p key, by simp [rxFrame], by simp [unmask],
    by cases form <;> simp [LenForm.ext, Key.bytes]⟩

theorem tx (fin : Bool) (op : BitVec 4) (p : Bytes) :
    ∃ hdr body : Bytes, encodeFrame fin op p = hdr ++ body ∧ body.length = p.length ∧
      (hdr.length = 2 ∨ hdr.length = 4 ∨ hdr.length = 10) := by
  refine ⟨_, p, rfl, rfl, ?_⟩
  split
  · simp
  · split <;> simp

theorem cont (fin : Bool) (form : LenForm) (key : Key) (payload : Bytes) :
    Statement (.cont fin form key payload) := rx fin 0 form key payload

theorem text (fin : Bool) (form : LenForm) (key : Key) (payload : Bytes) :
    Statement (.text fin form key payload) := rx fin 1 form key payload

theorem binary (fin : Bool) (form : LenForm) (key : Key) (payload : Bytes) :
    Statement (.binary fin form key payload) := rx fin 2 form key payload

theorem close (key : Key) (payload : Bytes) : Statement (.close key payload) :=
  rx true 8 .len7 key payload

theorem ping (key : Key) (payload : Bytes) : Statement (.ping key payload) :=
  rx true 9 .len7 key payload

theorem pong (key : Key) (payload : Bytes) : Statement (.pong key payload) :=
  rx true 10 .len7 key payload

theorem txCont (fin : Bool) (payload : Bytes) : Statement (.txCont fin payload) := tx fin 0 payload

theorem txText (fin : Bool) (payload : Bytes) : Statement (.txText fin payload) := tx fin 1 payload

theorem txBinary (fin : Bool) (payload : Bytes) : Statement (.txBinary fin payload) :=
  tx fin 2 payload

theorem txClose (payload : Bytes) : Statement (.txClose payload) := tx true 8 payload

theorem txPing (payload : Bytes) : Statement (.txPing payload) := tx true 9 payload

theorem txPong (payload : Bytes) : Statement (.txPong payload) := tx true 10 payload

end Laws.FrameSize

end Sys2Proof
end

