-- ==== Sys2Proof/Tests/Slice0.lean ====
section
/-! SUPPORT. Tests: ill-formed terms the checks refuse, words written out from the spec's encodings, vectors
of 95_test_vectors.md, and for every statement with hypotheses a witness that meets them. -/

namespace Sys2Proof.Tests

open Sys2Proof.Machine

-- one theorem at a time: the many small ones, elaborated at once, ask for more threads than there are
set_option Elab.async false

/-! ### Helpers -/

/-- The outcome is a next state with this property. -/
def answers (o : Outcome) (p : State → Bool) : Bool :=
  match o with
  | .next t => p t
  | .fault _ => false
  | .refused _ => false

theorem answers_next {o : Outcome} {p : State → Bool} (h : answers o p = true) :
    ∃ t, o = .next t ∧ p t = true := by
  cases o with
  | next t => exact ⟨t, rfl, h⟩
  | fault f => cases h
  | refused e => cases h

/-- Why the decoder refused. -/
def refusal (r : Except DecodeError (Instr × Bytes)) : Option DecodeError :=
  match r with
  | .ok _ => none
  | .error e => some e

/-- The micro-step ran and gave a next state with this property. -/
def microAnswers (m : Micro) (p : State → Bool) : Bool :=
  match m with
  | .ran o => answers o p
  | .suspended => false

/-- An OPEN connection with these parameters and pending inputs (10_state.md R45). -/
def openWith (cfg : Params) (inputs : List Input) : State :=
  { State.create cfg with
    k := { Connection.created with state := .opened }
    inputs := inputs }

/-- An OPEN connection with the parameters of the vectors. -/
def openState (inputs : List Input) : State := openWith Config.defaultParams inputs

/-- The same after a local close: CLOSING with the timer armed. -/
def closingState (inputs : List Input) : State :=
  { openState inputs with
    k := { state := .closing, closeSent := true, closeRecv := false, timerArmed := true,
           paused := false } }

/-- A message in progress. -/
def active (kind : MsgKind) (buf : Bytes) (s : State) : State := { s with a := ⟨true, some kind, buf⟩ }

/-- The decoder in this state with these header registers and one buffered chunk. -/
def decoderAt (st : DecState) (h : Header) (chunk : Bytes) (s : State) : State :=
  { s with
    d := { s.d with state := st }
    h := h
    c := Cursor.append chunk s.c }

/-- The header registers of a data frame of this opcode and length. -/
def headerFor (op : BitVec 4) (len7 : BitVec 7) (len : BitVec 63) (key : Key) : Header :=
  { Header.created with
    fin := true, opcode := op, masked := true, rawLen7 := len7, effLen := len, key := key }

/-- The key of all zeros and the key of the source's RFC example. -/
def key0 : Key := ⟨0, 0, 0, 0⟩
def keyA : Key := ⟨0x37, 0xFA, 0x21, 0x3D⟩

/-- The step on this one chunk ends with these outputs. -/
def chunkGives (s : State) (chunk : Bytes) (outs : List Output) : Bool :=
  answers (step { s with inputs := [.rxChunk chunk] }) fun t => t.out == outs

/-- A failure's four outputs (95_test_vectors.md V-ILL). -/
def failureOuts (code : U16) (kind : Kind) (codeWire : Bytes) : List Output :=
  [.ev (.error kind), .txWrite ([0x88, 0x02] ++ codeWire), .ev (.close (some code) []), .txEnd]

/-- The headers of the source's example request (95_test_vectors.md V-HS). -/
def goodHeaders : Headers :=
  [(Config.ascii "upgrade", Config.ascii "websocket"),
   (Config.ascii "connection", Config.ascii "keep-alive, Upgrade"),
   (Config.ascii "sec-websocket-key", Config.ascii "dGhlIHNhbXBsZSBub25jZQ=="),
   (Config.ascii "sec-websocket-version", Config.ascii "13")]

/-! ### WellFormed: one ill-formed term for each check -/

/-- A received data frame whose payload its length form cannot hold is refused. -/
theorem refuses_data (form : LenForm) (n : Nat) (h : form.fits n = false) :
    (Instr.cont true form key0 (List.replicate n 0)).wf = false ∧
    (Instr.text true form key0 (List.replicate n 0)).wf = false ∧
    (Instr.binary true form key0 (List.replicate n 0)).wf = false := by
  simp [Instr.wf, h]

/-- A transmitted data frame over its limit is refused. -/
theorem refuses_send (n : Nat) (h : decide (n < 2 ^ Config.lenBits) = false) :
    (Instr.txCont true (List.replicate n 0)).wf = false ∧
    (Instr.txText true (List.replicate n 0)).wf = false ∧
    (Instr.txBinary true (List.replicate n 0)).wf = false := by
  simp only [Instr.wf, sendFits, List.length_replicate, h, and_self]

/-- A control frame over its limit is refused. -/
theorem refuses_control (n : Nat) (h : decide (n ≤ Config.controlMax) = false) :
    (Instr.close key0 (List.replicate n 0)).wf = false ∧
    (Instr.ping key0 (List.replicate n 0)).wf = false ∧
    (Instr.pong key0 (List.replicate n 0)).wf = false ∧
    (Instr.txClose (List.replicate n 0)).wf = false ∧
    (Instr.txPing (List.replicate n 0)).wf = false ∧
    (Instr.txPong (List.replicate n 0)).wf = false := by
  simp only [Instr.wf, controlFits, List.length_replicate, h, and_self]

theorem test_wf_len7 : (Instr.cont true .len7 key0 (List.replicate 126 0)).wf = false :=
  (refuses_data .len7 126 (by decide)).1

theorem test_wf_len16 : (Instr.text true .len16 key0 (List.replicate (2 ^ 16) 0)).wf = false :=
  (refuses_data .len16 (2 ^ 16) (by decide)).2.1

theorem test_wf_len64 : (Instr.binary true .len64 key0 (List.replicate (2 ^ 63) 0)).wf = false :=
  (refuses_data .len64 (2 ^ 63) (by decide)).2.2

theorem test_wf_send : (Instr.txText true (List.replicate (2 ^ 63) 0)).wf = false :=
  (refuses_send (2 ^ 63) (by decide)).2.1

theorem test_wf_control :
    (Instr.close key0 (List.replicate 126 0)).wf = false ∧
    (Instr.txPing (List.replicate 126 0)).wf = false :=
  ⟨(refuses_control 126 (by decide)).1, (refuses_control 126 (by decide)).2.2.2.2.1⟩

theorem test_wf_accepts :
    (Instr.text true .len64 key0 []).wf = true ∧
    (Instr.close key0 (List.replicate 125 0)).wf = true ∧
    (Instr.txText false (List.replicate 126 0)).wf = true := by decide +kernel

/-! ### Decoding: one word of each constructor (30_encoding.md R98, R107; V-LEN, V-NONMIN) -/

theorem test_decode_cont :
    decode [0x80, 0x82, 0xA1, 0xB2, 0xC3, 0xD4, 0xCD, 0xDD] =
      .ok (.cont true .len7 ⟨0xA1, 0xB2, 0xC3, 0xD4⟩ [0x6C, 0x6F], []) := by decide +kernel

theorem test_decode_text :
    decode [0x81, 0xFE, 0x00, 0x05, 0x37, 0xFA, 0x21, 0x3D, 0x7F, 0x9F, 0x4D, 0x51, 0x58] =
      .ok (.text true .len16 keyA [0x48, 0x65, 0x6C, 0x6C, 0x6F], []) := by decide +kernel

theorem test_decode_binary :
    decode [0x02, 0xFF, 0, 0, 0, 0, 0, 0, 0, 2, 0x37, 0xFA, 0x21, 0x3D, 0x37, 0x05] =
      .ok (.binary false .len64 keyA [0x00, 0xFF], []) := by decide +kernel

theorem test_decode_close :
    decode [0x88, 0x85, 0x0A, 0x0B, 0x0C, 0x0D, 0x09, 0xE3, 0x6E, 0x74, 0x6F] =
      .ok (.close ⟨0x0A, 0x0B, 0x0C, 0x0D⟩ [0x03, 0xE8, 0x62, 0x79, 0x65], []) := by decide +kernel

theorem test_decode_ping :
    decode [0x89, 0x83, 0x11, 0x22, 0x33, 0x44, 0x70, 0x40, 0x50] =
      .ok (.ping ⟨0x11, 0x22, 0x33, 0x44⟩ [0x61, 0x62, 0x63], []) := by decide +kernel

theorem test_decode_pong :
    decode [0x8A, 0x83, 0x11, 0x22, 0x33, 0x44, 0x70, 0x40, 0x50] =
      .ok (.pong ⟨0x11, 0x22, 0x33, 0x44⟩ [0x61, 0x62, 0x63], []) := by decide +kernel

theorem test_decode_txCont : decode [0x80, 0x02, 0x6C, 0x6F] = .ok (.txCont true [0x6C, 0x6F], []) := by
  decide +kernel

theorem test_decode_txText :
    decode [0x01, 0x03, 0x48, 0x65, 0x6C] = .ok (.txText false [0x48, 0x65, 0x6C], []) := by
  decide +kernel

theorem test_decode_txBinary :
    decode [0x82, 0x02, 0x00, 0xFF] = .ok (.txBinary true [0x00, 0xFF], []) := by decide +kernel

theorem test_decode_txClose : decode [0x88, 0x02, 0x03, 0xEA] = .ok (.txClose [0x03, 0xEA], []) := by
  decide +kernel

theorem test_decode_txPing :
    decode [0x89, 0x03, 0x61, 0x62, 0x63] = .ok (.txPing [0x61, 0x62, 0x63], []) := by decide +kernel

theorem test_decode_txPong : decode [0x8A, 0x00] = .ok (.txPong [], []) := by decide +kernel

/-- The illegal headers of V-ILL rows 1 to 10 are refused by name, and so are a frame that ends early and, among
transmitted frames, one with a longer length form than it needs and one with MASK = 1. -/
theorem test_decode_refuses :
    [refusal (decode [0xC1, 0x80]), refusal (decode [0xA1, 0x80]), refusal (decode [0x91, 0x80]),
      refusal (decode [0x83, 0x80]), refusal (decode [0x8B, 0x80]), refusal (decodeRx [0x81, 0x05]),
      refusal (decode [0x09, 0x80]), refusal (decode [0x89, 0xFE]), refusal (decode [0x88, 0xFF]),
      refusal (decode [0x82, 0xFF, 0x80, 0, 0, 0, 0, 0, 0, 0]), refusal (decode [0x81]),
      refusal (decode [0x81, 0x7E, 0x00, 0x05]), refusal (decodeTx [0x81, 0x82, 0x48, 0x69])] =
    [some .rsvSet, some .rsvSet, some .rsvSet, some .reservedOpcode, some .reservedOpcode,
      some .notMasked, some .controlFragmented, some .controlTooLong, some .controlTooLong,
      some .lengthTopBit, some .truncated, some .nonMinimalLength, some .masked] := by decide +kernel

/-- The opcode table's numbering: `hdr16` is the whole word, operand bytes follow. -/
theorem test_decodeTableWord :
    decodeTableWord 16 0x8180 = some (.text true .len7 key0 []) ∧
    decodeTableWord 16 0x0281 = some (.binary false .len7 key0 [0]) ∧
    decodeTableWord 16 0x8A00 = some (.txPong []) ∧
    decodeTableWord 32 0x48698102 = some (.txText true [0x48, 0x69]) ∧
    decodeTableWord 16 0x8380 = none := by decide +kernel

/-- Each row of the table runs as the first instruction after reset: what the first step outputs. -/
theorem test_rows_run_from_reset :
    ([0x8180, 0x8280, 0x8880, 0x8980, 0x8A80, 0x8000, 0x8100, 0x8200, 0x8800, 0x8900, 0x8A00].map
      fun w => answers (step (State.reset.withFetchWord 16 w)) fun t => t.out ==
        (match w with
          | 0x8180 => [.ev (.message .text [])]
          | 0x8280 => [.ev (.message .binary [])]
          | 0x8880 => [.txWrite [0x88, 0x00], .ev (.close none []), .txEnd]
          | 0x8980 => [.txWrite [0x8A, 0x00], .ev (.ping [])]
          | 0x8A80 => [.ev (.pong [])]
          | 0x8000 => [.txWrite [0x80, 0x00]]
          | 0x8100 => [.txWrite [0x81, 0x00]]
          | 0x8200 => [.txWrite [0x82, 0x00]]
          | 0x8800 => [.txWrite [0x88, 0x00]]
          | 0x8900 => [.txWrite [0x89, 0x00]]
          | _ => [.txWrite [0x8A, 0x00]])) = List.replicate 11 true := by decide +kernel

/-! ### Received frames (95_test_vectors.md sections 1, 5 and 6) -/

/-- V-ILL row 11: a continuation with no message in progress. -/
theorem test_cont_unstarted :
    chunkGives (openState []) [0x80, 0x80, 0, 0, 0, 0]
      (failureOuts 1002 .protocolViolation [0x03, 0xEA]) = true := by decide +kernel

/-- S4: two fragments make one message. -/
theorem test_cont_completes :
    chunkGives (openState [])
      [0x01, 0x83, 0x01, 0x02, 0x03, 0x04, 0x49, 0x67, 0x6F, 0x80, 0x82, 0xA1, 0xB2, 0xC3, 0xD4, 0xCD, 0xDD]
      [.ev (.message .text [0x48, 0x65, 0x6C, 0x6C, 0x6F])] = true := by decide +kernel

/-- V-ILL row 12: a text frame while a message is in progress. -/
theorem test_text_interleaved :
    chunkGives (openState []) [0x01, 0x81, 0, 0, 0, 0, 0x61, 0x81, 0x81, 0, 0, 0, 0, 0x62]
      (failureOuts 1002 .protocolViolation [0x03, 0xEA]) = true := by decide +kernel

/-- V-ILL row 16: an ill-formed text under TEXT_UTF8_CHECK. -/
theorem test_text_utf8 :
    chunkGives (openWith ⟨1024, [13, 8], true⟩ []) [0x81, 0x82, 0, 0, 0, 0, 0xC3, 0x28]
      (failureOuts 1007 .invalidPayload [0x03, 0xEF]) = true := by decide +kernel

/-- V-DATA row 2. -/
theorem test_binary :
    chunkGives (openState []) [0x82, 0x82, 0x37, 0xFA, 0x21, 0x3D, 0x37, 0x05]
      [.ev (.message .binary [0x00, 0xFF])] = true := by decide +kernel

/-- V-ILL row 15: the size check comes before the payload arrives. -/
theorem test_binary_too_large :
    chunkGives (openWith ⟨16, [13, 8], false⟩ []) [0x82, 0x91, 0, 0, 0, 0]
      (failureOuts 1009 .payloadTooLarge [0x03, 0xF1]) = true := by decide +kernel

/-- S9: the first close is echoed with its code alone. -/
theorem test_close_echo :
    chunkGives (openState []) [0x88, 0x85, 0x0A, 0x0B, 0x0C, 0x0D, 0x09, 0xE3, 0x6E, 0x74, 0x6F]
      [.txWrite [0x88, 0x02, 0x03, 0xE8], .ev (.close (some 1000) [0x62, 0x79, 0x65]), .txEnd] = true := by
  decide +kernel

/-- V-CLOSE row 3: no echo after a local close, and the timer is cancelled. -/
theorem test_close_acknowledged :
    answers (step (closingState [.rxChunk [0x88, 0x82, 0x12, 0x34, 0x56, 0x78, 0x11, 0xDC]])) (fun t =>
      t.out == [.ev (.close (some 1000) []), .txEnd] && t.k.state == .closed && !t.k.timerArmed) = true := by
  decide +kernel

/-- S8: the pong first, then the event. -/
theorem test_ping :
    chunkGives (openState []) [0x89, 0x83, 0x11, 0x22, 0x33, 0x44, 0x70, 0x40, 0x50]
      [.txWrite [0x8A, 0x03, 0x61, 0x62, 0x63], .ev (.ping [0x61, 0x62, 0x63])] = true := by decide +kernel

/-- V-CTRL row 5: none in CLOSING. -/
theorem test_ping_closing :
    chunkGives (closingState []) [0x89, 0x83, 0x11, 0x22, 0x33, 0x44, 0x70, 0x40, 0x50] [] = true := by
  decide +kernel

/-- V-CTRL row 3. -/
theorem test_pong :
    chunkGives (openState []) [0x8A, 0x83, 0x11, 0x22, 0x33, 0x44, 0x70, 0x40, 0x50]
      [.ev (.pong [0x61, 0x62, 0x63])] = true := by decide +kernel

/-! ### Transmitted frames and commands (95_test_vectors.md V-ENC, V-CMD) -/

theorem test_txCont :
    answers (exec (.txCont false [0x63, 0x64]) (openState [])) (fun t =>
      t.out == [.txWrite [0x00, 0x02, 0x63, 0x64]]) = true := by decide +kernel

theorem test_txText :
    answers (exec (.txText true [0x48, 0x69]) (openState [])) (fun t =>
      t.out == [.txWrite [0x81, 0x02, 0x48, 0x69]]) = true := by decide +kernel

/-- V-LEN, L = 126: the shortest form is the 16-bit one. -/
theorem test_txBinary :
    answers (exec (.txBinary true (List.replicate 126 0)) (openState [])) (fun t =>
      t.out == [.txWrite ([0x82, 0x7E, 0x00, 0x7E] ++ List.replicate 126 0)]) = true := by decide +kernel

theorem test_txClose :
    answers (exec (.txClose [0x03, 0xE8]) (openState [])) (fun t =>
      t.out == [.txWrite [0x88, 0x02, 0x03, 0xE8]] && t.k.state == .closing && t.k.timerArmed) = true := by
  decide +kernel

theorem test_txPing :
    answers (exec (.txPing [0x61, 0x62, 0x63]) (openState [])) (fun t =>
      t.out == [.txWrite [0x89, 0x03, 0x61, 0x62, 0x63]]) = true := by decide +kernel

theorem test_txPong :
    answers (exec (.txPong []) (closingState [])) (fun t => t.out == []) = true := by decide +kernel

/-- V-CMD row 3: four fragments of at most two bytes. -/
theorem test_send_fragments :
    answers (step (openState
      [.sendMessage 2 [0x61, 0x62, 0x63, 0x64, 0x65, 0x66, 0x67] (some 2)])) (fun t =>
      t.out == [.txWrite [0x02, 0x02, 0x61, 0x62], .txWrite [0x00, 0x02, 0x63, 0x64],
        .txWrite [0x00, 0x02, 0x65, 0x66], .txWrite [0x80, 0x01, 0x67]]) = true := by decide +kernel

/-- V-CMD last row: a reason that is not UTF-8. -/
theorem test_close_bad_reason :
    answers (step (openState [.close 1000 [0xFF]])) (fun t =>
      t.out == [] && t.k.state == .opened) = true := by decide +kernel

/-! ### ByteCursor, suspension, UTF-8, handshake -/

/-- V-CUR steps 3, 4, 6 and 9. -/
theorem test_cursor :
    let c := (Cursor.created.append [0x81, 0x85]).append [0x37]
    c.tryConsume 4 = none ∧ c.peekUint16BE 1 = some 34103 ∧ c.peekUint32BE 0 = none ∧
    c.tryConsume 1 = some ([0x81], ⟨[[0x81, 0x85], [0x37]], 1, 2, 1⟩) ∧
    (Cursor.mk [[0x81, 0x85], [0x37]] 1 2 1).tryConsume 2 = some ([0x85, 0x37], ⟨[], 0, 0, 3⟩) := by
  decide +kernel

/-- V-SPLIT, k = 8: what the first chunk leaves. -/
theorem test_suspended :
    answers (step (openState [.rxChunk [0x81, 0x85, 0x37, 0xFA, 0x21, 0x3D, 0x7F, 0x9F]])) (fun t =>
      t.d.state == .awaitingPayload && t.c.pos == 6 && t.c.bytes == [0x7F, 0x9F] && t.h.effLen == 5) =
      true := by decide +kernel

/-- V-UTF8, the well-formed and the ill-formed rows. -/
theorem test_utf8 :
    ([[], [0x41], [0xC3, 0xA9], [0xC2, 0x80], [0xE2, 0x82, 0xAC], [0xE0, 0xA0, 0x80], [0xED, 0x9F, 0xBF],
      [0xEF, 0xBF, 0xBF], [0xF0, 0x90, 0x80, 0x80], [0xF4, 0x8F, 0xBF, 0xBF]].all utf8Wellformed) = true ∧
    ([[0xC0, 0xAF], [0xC1, 0xBF], [0xC3, 0x28], [0xE2, 0x82, 0x28], [0xE0, 0x9F, 0x80], [0xED, 0xA0, 0x80],
      [0xF0, 0x8F, 0x80, 0x80], [0xF4, 0x90, 0x80, 0x80], [0xF5, 0x80, 0x80, 0x80], [0x80], [0xC3],
      [0xE2, 0x82]].any utf8Wellformed) = false := by decide +kernel

/-- The source's example, through the whole handshake (S7, V-HS). -/
theorem test_handshake_accepts :
    answers (step { State.reset with inputs := [.hsRequest (Config.ascii "GET") goodHeaders] }) (fun t =>
      t.out == [.txWrite (response101 (Config.ascii "s3pPLMBiTxaQ9kYGzzhZRbK+xOo=")),
        .ev .connectionOpened] && t.k.state == .opened) = true := by decide +kernel

/-- V-HS: a wrong method is answered with 405 and the connection ends. -/
theorem test_handshake_rejects :
    answers (step { State.reset with inputs := [.hsRequest (Config.ascii "POST") goodHeaders] }) (fun t =>
      t.out == [.txWrite (Config.ascii "HTTP/1.1 405 Method Not Allowed" ++ [0x0D, 0x0A, 0x0D, 0x0A]),
        .txEnd] && t.k.state == .closed) = true := by decide +kernel

/-! ### Witnesses: for each statement with hypotheses, a state and operands that meet them -/

/-- A cursor of two chunks with one byte consumed (V-CUR step 6), and one chunk with the same bytes. -/
def cursorTwo : Cursor := ⟨[[0x81, 0x85], [0x37]], 1, 2, 1⟩
def cursorOne : Cursor := ⟨[[0x85, 0x37]], 0, 2, 1⟩

/-- A cursor with these bytes in one chunk. -/
def cursorOf (bytes : Bytes) : Cursor := Cursor.created.append bytes

theorem witness_DecodeOfEncodeIsTheFrame :
    (Instr.text true .len7 key0 (List.replicate 125 0)).wf = true ∧
    (Instr.cont false .len16 keyA []).wf = true ∧ (Instr.binary true .len64 keyA [1]).wf = true ∧
    (Instr.txPong (List.replicate 125 0)).wf = true := by decide +kernel

theorem witness_EncodeOfDecodeIsTheBytes :
    decode [0x81, 0x02, 0x48, 0x69, 0xFF] = .ok (.txText true [0x48, 0x69], [0xFF]) := by decide +kernel

theorem witness_LegalHeadersAreTheTablePatterns :
    headerFault (baseHeader 0x89 0xFD) = none ∧ headerFault (baseHeader 0x02 0xFF) = none ∧
    txHeaderFault (baseHeader 0x88 0x7D) = none ∧ txHeaderFault (baseHeader 0x81 0x82) = some .masked := by
  decide +kernel

theorem witness_BigEndianNumbersAreInverse : 65535 < 256 ^ 2 ∧ 0 < 256 ^ 0 := by decide

theorem witness_UnmaskIsXorWithTheCyclicKey :
    ([0x7F, 0x9F, 0x4D, 0x51, 0x58] : Bytes)[4]? = some 0x58#8 ∧ keyA.bytes[4 % 4]? = some 0x37#8 := by
  decide +kernel

theorem bytes_of_length (n : Nat) : ∃ p : Bytes, p.length = n :=
  ⟨List.replicate n 0, List.length_replicate⟩

theorem too_long_to_send : ∃ p : Bytes, 2 ^ 63 ≤ p.length :=
  (bytes_of_length (2 ^ 63)).imp fun _ h => Nat.le_of_eq h.symm

/-- The four length boundaries of R200. -/
theorem witness_EncodeFrameLayout :
    legalOpcode 1 = true ∧ (∃ p : Bytes, p.length < 2 ^ 63 ∧ p.length = 125) ∧
    (∃ p : Bytes, p.length < 2 ^ 63 ∧ 125 < p.length ∧ p.length = 126) ∧
    (∃ p : Bytes, p.length < 2 ^ 63 ∧ p.length ≤ 65535 ∧ p.length = 65535) ∧
    (∃ p : Bytes, p.length < 2 ^ 63 ∧ 65535 < p.length) := by
  obtain ⟨p, hp⟩ := bytes_of_length 125
  obtain ⟨q, hq⟩ := bytes_of_length 126
  obtain ⟨r, hr⟩ := bytes_of_length 65535
  obtain ⟨u, hu⟩ := bytes_of_length 65536
  exact ⟨by decide, ⟨p, by omega, hp⟩, ⟨q, by omega, by omega, hq⟩, ⟨r, by omega, by omega, hr⟩,
    ⟨u, by omega, by omega⟩⟩

theorem witness_MaskedTransmittedFrameIsReceivedFrame :
    (legalOpcode 2 = true ∧ controlOpcode 2 = false) ∧ legalOpcode 9 = true ∧ controlOpcode 9 = true ∧
    (List.replicate 125 (0#8)).length ≤ 125 := by decide +kernel

theorem witness_Utf8IsConcatenationOfShapes :
    utf8Wellformed [0xE2, 0x82, 0xAC, 0x41] = true ∧ utf8Wellformed [0xED, 0xA0, 0x80] = false := by
  decide +kernel

theorem witness_TryConsumeIsExactOrNothing :
    cursorTwo.wf = true ∧ 0 ≤ cursorTwo.total ∧ 2 ≤ cursorTwo.total ∧ cursorTwo.total < 3 := by
  decide +kernel

theorem witness_ReadsDoNotSeeChunkBoundaries :
    cursorTwo.wf = true ∧ 1 + 1 ≤ cursorTwo.total ∧ cursorOne.wf = true ∧
    cursorTwo.bytes = cursorOne.bytes ∧ cursorTwo ≠ cursorOne ∧
    (cursorTwo.tryConsume 1).isSome = true ∧ (cursorOne.tryConsume 1).isSome = true := by decide +kernel

/-- Each peek at its last offset, and one past it. -/
theorem witness_AppendAndPeeks :
    let c := cursorOf [1, 2, 3, 4, 5, 6, 7, 8]
    c.wf = true ∧ c.bytes[7]? = some 8#8 ∧ (c.bytes[6]? = some 7#8 ∧ c.bytes[6 + 1]? = some 8#8) ∧
    4 + 4 ≤ c.bytes.length ∧ 0 + 8 ≤ c.bytes.length ∧ c.bytes.length < 8 + 1 ∧ c.bytes.length < 7 + 2 ∧
    c.bytes.length < 5 + 4 ∧ c.bytes.length < 1 + 8 := by decide +kernel

/-- The state and one header for each of the four checks (V-ILL rows 3, 4, 6, 7 and 8). -/
theorem witness_IllegalHeadersFailWith1002 :
    let s := openState [.rxChunk [0x91, 0x80]]
    s.k.state = .opened ∧ s.d.state = .awaitingHeader ∧ s.c.wf = true ∧
    s.c.bytes ++ [0x91, 0x80] = [0x91, 0x80] ∧ (0x91#8).extractLsb' 4 3 ≠ 0 ∧
    (0x83#8).extractLsb' 0 4 ∉ [0#4, 1#4, 2#4, 8#4, 9#4, 10#4] ∧ (0x05#8).getLsbD 7 = false ∧
    ((0x09#8).extractLsb' 0 4 ∈ [8#4, 9#4, 10#4] ∧ (0x09#8).getLsbD 7 = false) ∧
    ((0x89#8).extractLsb' 0 4 ∈ [8#4, 9#4, 10#4] ∧ 125 < ((0xFE#8).extractLsb' 0 7).toNat) := by
  decide +kernel

/-- LEN7 = 125, 126 and 127. -/
theorem witness_LegalHeadersAreFetched :
    let s := { openState [] with c := cursorOf [0x81, 0xFD] }
    s.d.state = .awaitingHeader ∧ s.c.wf = true ∧ s.c.bytes = [0x81, 0xFD] ∧
    headerFault (baseHeader 0x81 0xFD) = none ∧ ((0xFD#8).extractLsb' 0 7).toNat = 125 ∧
    headerFault (baseHeader 0x81 0xFE) = none ∧ ((0xFE#8).extractLsb' 0 7).toNat = 126 ∧
    headerFault (baseHeader 0x81 0xFF) = none ∧ ((0xFF#8).extractLsb' 0 7).toNat = 127 := by
  decide +kernel

/-- The three states with their bytes, the greatest legal 64-bit length and the least illegal one, and each
state one byte short. -/
theorem witness_ExtendedLengthAndKeyAreFetched :
    (let s := decoderAt .awaitingExtLen16 (headerFor 1 126 0 key0) [0xFF, 0xFF] (openState []);
      s.d.state = .awaitingExtLen16 ∧ s.c.wf = true ∧ s.c.bytes = [0xFF, 0xFF]) ∧
    (let s := decoderAt .awaitingExtLen64 (headerFor 1 127 0 key0)
        [0x7F, 0xFF, 0xFF, 0xFF, 0xFF, 0xFF, 0xFF, 0xFF] (openState []);
      s.d.state = .awaitingExtLen64 ∧ s.c.wf = true ∧ s.c.bytes.length = 8 ∧
        be s.c.bytes < 2 ^ 63) ∧
    2 ^ 63 ≤ be [0x80, 0, 0, 0, 0, 0, 0, 0] ∧
    (let s := decoderAt .awaitingMaskKey (headerFor 1 5 5 key0) [0x37, 0xFA, 0x21, 0x3D] (openState []);
      s.d.state = .awaitingMaskKey ∧ s.c.wf = true ∧ s.c.bytes = [0x37, 0xFA, 0x21, 0x3D]) ∧
    (cursorOf [0]).bytes.length < 2 ∧ (cursorOf [0, 0, 0, 0, 0, 0, 0]).bytes.length < 8 ∧
    (cursorOf [0, 0, 0]).bytes.length < 4 := by decide +kernel

/-- A frame one byte over the limit, and a continuation that makes the message one byte too long. -/
theorem witness_OversizedFrameFailsBeforeItsPayload :
    (let s := decoderAt .awaitingPayload (headerFor 2 17 17 key0) [] (openWith ⟨16, [13], false⟩ []);
      s.d.state = .awaitingPayload ∧ s.cfg.maxPayload < s.h.effLen.toNat) ∧
    (let s := active .text (List.replicate 10 0x61)
        (decoderAt .awaitingPayload (headerFor 0 7 7 key0) [] (openWith ⟨16, [13], false⟩ []));
      s.d.state = .awaitingPayload ∧ s.h.opcode = 0 ∧ s.a.active = true ∧
        s.cfg.maxPayload < s.a.buf.length + s.h.effLen.toNat) := by decide +kernel

/-- A payload one byte short, and one that has arrived with a byte of the next frame. -/
theorem witness_PayloadIsFetchedWholeAndRun :
    (let s := decoderAt .awaitingPayload (headerFor 1 2 2 keyA) [0x7F] (openState []);
      s.d.state = .awaitingPayload ∧ s.c.wf = true ∧ s.h.effLen.toNat ≤ s.cfg.maxPayload ∧
        s.h.opcode ≠ 0 ∧ s.c.bytes.length < s.h.effLen.toNat) ∧
    (let s := decoderAt .awaitingPayload (headerFor 1 2 2 keyA) [0x7F, 0x9F, 0x81] (openState []);
      s.c.bytes = [0x7F, 0x9F] ++ [0x81] ∧ [(0x7F : Byte), 0x9F].length = s.h.effLen.toNat ∧
        rxInstr s.h.opcode s.h.fin (lenForm s.h.rawLen7) s.h.key (unmask [0x7F, 0x9F] s.h.key) =
          some (.text true .len7 keyA [0x48, 0x65])) := by decide +kernel

/-- A header of one byte, and an oversized frame whose payload has not arrived. -/
theorem witness_SuspensionChangesNothing :
    (let s := openState [.rxChunk [0x81]];
      s.k.state = .opened ∧ s.d.state ≠ .failed ∧ s.c.total < s.needed ∧
        s.c.total + [(0x81 : Byte)].length < s.needed ∧ microAnswers (microStep s) (fun _ => true) = false) ∧
    (let s := decoderAt .awaitingPayload (headerFor 2 17 17 key0) [] (openWith ⟨16, [13], false⟩ []);
      s.c.total < s.needed ∧ microAnswers (microStep s) (fun t => t.d.failCode == some 1009) = true) := by
  decide +kernel

theorem witness_DecoderRunsToExhaustion :
    (openState [.rxChunk [0x81, 0x80]]).k.state = .opened ∧
    (openState [.rxChunk [0x81, 0x80]]).d.state ≠ .failed ∧
    ∃ t, step (openState [.rxChunk [0x81, 0x80]]) = .next t ∧ (t.d.state == .awaitingMaskKey) = true :=
  ⟨by decide, by decide, answers_next (by decide +kernel)⟩

theorem witness_ChunkBoundariesAreInvisible :
    (openState []).inv = true ∧ (closingState []).inv = true ∧ State.reset.inv = true := by
  decide +kernel

/-- The frame's first byte is buffered, the rest arrives with a byte of the next frame. -/
theorem witness_StepRunsTheReceivedFrame :
    let chunk : Bytes := [0x82, 0x37, 0xFA, 0x21, 0x3D, 0x7F, 0x9F, 0x81]
    let s := { openState [.rxChunk chunk] with c := cursorOf [0x81] }
    s.k.state = .opened ∧ s.d.state = .awaitingHeader ∧ s.c.wf = true ∧
    decode (s.c.bytes ++ chunk) = .ok (.text true .len7 keyA [0x48, 0x65], [0x81]) ∧
    (Instr.text true .len7 keyA [0x48, 0x65]).received = true ∧ s.tooLarge 1 2 = false := by
  decide +kernel

/-- A transmitted frame; and bytes that are none: MASK = 1, and a byte too many. -/
theorem witness_StepRunsTheTransmittedFrame :
    refusal (decode [0x81, 0x82, 0x48, 0x69]) = some .truncated ∧
    decode [0x89, 0x01, 0x61, 0x00] = .ok (.txPing [0x61], [0x00]) ∧
    decode [0x89, 0x01, 0x61] = .ok (.txPing [0x61], []) ∧ (Instr.txPing [0x61]).received = false ∧
    (openState [.txFrame [0x89, 0x01, 0x61]]).inputs = [.txFrame [0x89, 0x01, 0x61]] := by decide +kernel

theorem witness_TextAndBinaryFrames :
    (let s := openWith ⟨2, [13], true⟩ [];
      s.k.state = .opened ∧ s.d.state ≠ .failed ∧ [(0xC3 : Byte), 0xA9].length ≤ s.cfg.maxPayload ∧
        s.a.active = false ∧ utf8Wellformed [0xC3, 0xA9] = true) ∧
    (openState []).cfg.textUtf8Check = false ∧
    (closingState []).k.state = .closing ∧ (closingState []).d.state ≠ .failed ∧
    (closingState []).a.active = false := by decide +kernel

theorem witness_DeliverHandsOffTheMessage :
    (openWith ⟨16, [13], true⟩ []).cfg.textUtf8Check = true ∧ utf8Wellformed [0xC3, 0x28] = false ∧
    utf8Wellformed [0x41] = true ∧ (openState []).k.state = .opened ∧
    (closingState []).k.state ≠ .opened := by decide +kernel

/-- No message in progress; a message in progress that the fragment fills to the limit, of each kind. -/
theorem witness_ContinuationFrames :
    (let s := openWith ⟨4, [13], false⟩ [];
      s.k.state = .opened ∧ s.d.state ≠ .failed ∧ s.a.active = false) ∧
    (let s := active .text [0x61, 0x62] (openWith ⟨4, [13], true⟩ []);
      s.k.state = .opened ∧ s.d.state ≠ .failed ∧ [(0x63 : Byte), 0x64].length ≤ s.cfg.maxPayload ∧
        s.a.active = true ∧ s.a.buf.length + [(0x63 : Byte), 0x64].length ≤ s.cfg.maxPayload ∧
        s.a.opcode = some .text ∧ utf8Wellformed (s.a.buf ++ [0x63, 0x64]) = true) ∧
    (active .binary [] (closingState [])).a.opcode = some .binary ∧
    (active .binary [] (closingState [])).k.state = .closing := by decide +kernel

theorem witness_InterleavedAndOversizedFramesFail :
    (let s := active .text [0x61, 0x62] (openWith ⟨2, [13], false⟩ []);
      s.k.state = .opened ∧ s.d.state ≠ .failed ∧ [(0x63 : Byte), 0x64].length ≤ s.cfg.maxPayload ∧
        s.a.active = true ∧ s.cfg.maxPayload < s.a.buf.length + [(0x63 : Byte)].length ∧
        s.cfg.maxPayload < [(0x63 : Byte), 0x64, 0x65].length) := by decide +kernel

theorem witness_ClosePayloadParse :
    utf8Wellformed [0x62, 0x79, 0x65] = true ∧ utf8Wellformed [0xFF] = false := by decide +kernel

/-- A malformed payload, a payload with a code, the empty payload; before and after a close was sent. -/
theorem witness_CloseFrames :
    (openState []).k.state = .opened ∧ (openState []).d.state ≠ .failed ∧
    [(0x03 : Byte), 0xE8].length ≤ (openState []).cfg.maxPayload ∧ parseClose [0x03] = none ∧
    parseClose [0x03, 0xE8] = some (some 1000, []) ∧ parseClose [] = some (none, []) ∧
    (openState []).k.closeSent = false ∧ (closingState []).k.state = .closing ∧
    (closingState []).k.closeSent = true ∧ (closingState []).d.state ≠ .failed := by decide +kernel

theorem witness_PingFrames :
    (openState []).k.state = .opened ∧ (openState []).d.state ≠ .failed ∧
    (List.replicate 125 (0#8)).length ≤ (openState []).cfg.maxPayload ∧
    (closingState []).k.state = .closing ∧ (closingState []).d.state ≠ .failed := by decide +kernel

theorem witness_PongFrames :
    (openState []).k.state = .opened ∧ (openState []).d.state ≠ .failed ∧
    ([] : Bytes).length ≤ (openState []).cfg.maxPayload ∧
    (closingState []).k.state = .closing ∧ (closingState []).d.state ≠ .failed := by decide +kernel

theorem witness_ClosingSuppressesOutputs :
    (closingState []).k.state = .closing ∧ (Instr.ping key0 [0x61]).received = true ∧
    ∃ t, exec (.ping key0 [0x61]) (closingState []) = .next t ∧ (t.k.state == .closing) = true :=
  ⟨by decide, by decide, answers_next (by decide +kernel)⟩

theorem witness_TransmittedDataFramesAreWritten :
    (openState []).k.state = .opened ∧ ([0x61] : Bytes).length < 2 ^ 63 := by decide +kernel

theorem witness_TransmittedControlFramesAreWritten :
    (openState []).k.state = .opened ∧ (List.replicate 125 (0x61#8)).length ≤ 125 ∧
    parseClose (List.replicate 125 0x61) ≠ none ∧ parseClose [] ≠ none := by decide +kernel

/-- A mode of each kind, and a frame beyond its limit. -/
theorem witness_FramesOutsideTheirModesHaveNoEffect :
    (Instr.ping key0 []).received = true ∧ State.reset.k.state = .connecting ∧
    ({ openState [] with d := ⟨.failed, some 1002, some .protocolViolation⟩ } : State).d.state = .failed ∧
    (Instr.txPing []).received = false ∧ (closingState []).k.state ≠ .opened ∧
    (Instr.txPing (List.replicate 126 0)).wf = false ∧ parseClose [0x03] = none ∧
    parseClose [0x03, 0xE8, 0xFF] = none := by decide +kernel

theorem witness_ReceivedFramesLeaveTheRestUnchanged :
    (Instr.close key0 []).received = true ∧ controlOpcode (Instr.close key0 []).opcode = true ∧
    ∃ t, exec (.close key0 []) (openState []) = .next t ∧ (t.k.state == .closed) = true :=
  ⟨by decide, by decide, answers_next (by decide +kernel)⟩

theorem witness_TransmittedFramesLeaveTheRestUnchanged :
    (Instr.txPing [0x61]).received = false ∧ (Instr.txPing [0x61]).opcode ≠ 8 ∧
    ∃ t, exec (.txPing [0x61]) (openState []) = .next t ∧
      (t.out == [.txWrite (encode (.txPing [0x61]))]) = true :=
  ⟨by decide, by decide, answers_next (by decide +kernel)⟩

theorem witness_SendMessageWritesOneFrame :
    (openState [.sendMessage 1 [0x61] none]).k.state = .opened ∧
    (openState [.sendMessage 2 [] none]).inputs = [.sendMessage 2 [] none] ∧
    ([0x61] : Bytes).length < 2 ^ 63 ∧ ∃ p : Bytes, 2 ^ 63 ≤ p.length :=
  ⟨by decide, by decide, by decide, too_long_to_send⟩

/-- A message that fits its fragment exactly, and one byte more. -/
theorem witness_FragmentedSendWritesThePieces :
    (openState [.sendMessage 1 [0x61, 0x62] (some 2)]).k.state = .opened ∧ 1 ≤ 1 ∧
    ([0x61, 0x62] : Bytes).length < 2 ^ 63 ∧ ([0x61, 0x62] : Bytes).length ≤ 2 ∧
    1 < ([0x61, 0x62] : Bytes).length := by decide +kernel

theorem witness_LocalCloseStartsTheHandshake :
    (openState [.close 1000 (List.replicate 123 0x61)]).k.state = .opened ∧
    (List.replicate 123 (0x61#8)).length ≤ 123 ∧ utf8Wellformed (List.replicate 123 0x61) = true := by
  decide +kernel

theorem witness_ControlCommandsAndRefusedOperands :
    (openState []).k.state = .opened ∧ (List.replicate 125 (0#8)).length ≤ 125 ∧
    125 < (List.replicate 126 (0#8)).length ∧ 123 < (List.replicate 124 (0#8)).length ∧
    utf8Wellformed [0xFF] = false ∧ ((0 : BitVec 4) ≠ 1 ∧ (0 : BitVec 4) ≠ 2) ∧
    ∃ p : Bytes, 2 ^ 63 ≤ p.length :=
  ⟨by decide, by decide +kernel, by decide +kernel, by decide +kernel, by decide, by decide,
    too_long_to_send⟩

/-- One cell of each group. -/
theorem witness_NoEffectCells :
    (openState [.hsRequest [] []]).k.state ≠ .connecting ∧ State.reset.k.state = .connecting ∧
    (closingState [.sendPing []]).k.state ≠ .opened ∧ (openState [.timerExpire]).k.state ≠ .closing ∧
    ({ openState [.rxEnd] with k := { Connection.created with state := .closed } } : State).k.state =
      .closed ∧
    ({ State.reset with inputs := [.pause] } : State).inputs = [.pause] := by decide +kernel

theorem witness_SocketTimerAndBackpressureInputs :
    (openState []).k.state = .opened ∧ (closingState []).k.state = .closing ∧
    State.reset.k.state = .connecting ∧ (closingState []).k.timerArmed = true := by decide +kernel

/-- A request that passes all five checks, with blanks and letter case the rules allow. -/
def paddedHeaders : Headers :=
  [(Config.ascii "upgrade", Config.ascii " WebSocket "),
   (Config.ascii "connection", Config.ascii "keep-alive ,\tUPGRADE"),
   (Config.ascii "sec-websocket-key", Config.ascii " dGhlIHNhbXBsZSBub25jZQ=="),
   (Config.ascii "sec-websocket-version", Config.ascii "8 ")]

/-- The key of `paddedHeaders`, without the blank. -/
theorem padded_offers_key : offersKey paddedHeaders (Config.ascii "dGhlIHNhbXBsZSBub25jZQ==") :=
  ⟨Config.ascii " dGhlIHNhbXBsZSBub25jZQ==", by decide +kernel,
    ⟨[0x20], [], by decide +kernel, by decide, by simp⟩, by decide +kernel, by decide +kernel,
    by decide +kernel⟩

/-- A request that each check but one passes, for each of the five. -/
theorem witness_HandshakeOpensOrRejects :
    State.reset.k.state = .connecting ∧ Config.ascii "get" ≠ [0x47, 0x45, 0x54] ∧
    Config.ascii "GET" = [0x47, 0x45, 0x54] ∧
    (asksForWebsocket paddedHeaders ∧ ¬asksForWebsocket [(Config.ascii "upgrade", Config.ascii "h2c")]) ∧
    (listsUpgrade paddedHeaders ∧ ¬listsUpgrade [(Config.ascii "connection", Config.ascii "upgraded")]) ∧
    (∃ key, offersKey paddedHeaders key) ∧ (¬∃ key, offersKey [] key) ∧
    (offersVersion State.reset.cfg paddedHeaders ∧ ¬offersVersion ⟨1024, [13], false⟩ paddedHeaders ∧
      ¬offersVersion State.reset.cfg
        [(Config.ascii "sec-websocket-version", Config.ascii "013")]) := by
  rw [← upgradeOk_iff, ← upgradeOk_iff, ← connectionOk_iff, ← connectionOk_iff, ← versionOk_iff,
    ← versionOk_iff, ← versionOk_iff]
  refine ⟨by decide, by decide, by decide, by decide +kernel, by decide +kernel,
    ⟨_, padded_offers_key⟩, ?_, by decide +kernel⟩
  rintro ⟨key, v, hv, -⟩
  cases hv

theorem witness_ConnectionStateNeverRegresses :
    ∃ t, step (openState [.close 1000 []]) = .next t ∧ (t.k.state == .closing) = true :=
  answers_next (by decide +kernel)

theorem witness_ClosedIsTerminal :
    ({ openState [.rxChunk [0x81, 0x80]] with
      k := { Connection.created with state := .closed } } : State).k.state = .closed := by decide

theorem witness_TimerIsSetOnlyByALocalClose :
    ((openState [.rxEnd]).k.state ≠ .closed ∧
      ∃ t, step (openState [.rxEnd]) = .next t ∧ (t.k.state == .closed) = true) ∧
    (openState [.close 1000 []]).k.timerArmed = false ∧
    (∃ t, step (openState [.close 1000 []]) = .next t ∧ t.k.timerArmed = true) ∧
    (∃ t, step (openState [.txFrame [0x88, 0x00]]) = .next t ∧ t.k.timerArmed = true) ∧
    decodeTx [0x88, 0x00] = .ok (.txClose [], []) :=
  ⟨⟨by decide, answers_next (by decide +kernel)⟩, by decide, answers_next (by decide +kernel),
    answers_next (by decide +kernel), by decide +kernel⟩

theorem witness_FailureEntry :
    (openState []).k.state = .opened ∧ (openState []).k.closeSent = false ∧
    (closingState []).k.state = .closing ∧ (closingState []).k.closeSent = true := by decide

theorem witness_FailedIsTerminal :
    ∃ s : State, s.inv = true ∧ s.d.state = .failed ∧
      ∃ t, step s = .next t ∧ (t.d.failCode == some 1002) = true :=
  ⟨{ protocolViolation (openState []) with inputs := [.rxChunk [0x81, 0x80]] }, by decide +kernel,
    by decide +kernel, answers_next (by decide +kernel)⟩

theorem witness_InvariantHoldsAfterEveryStep :
    (openState [.rxChunk [0x01, 0x81, 0, 0, 0, 0, 0x61, 0x80]]).inv = true ∧
    ∃ t, step (openState [.rxChunk [0x01, 0x81, 0, 0, 0, 0, 0x61, 0x80]]) = .next t ∧
      t.a.active = true :=
  ⟨by decide +kernel, answers_next (by decide +kernel)⟩

theorem witness_NoStepAborts : (openState [.rxChunk [0x80, 0x80, 0, 0, 0, 0]]).inv = true := by
  decide +kernel

theorem witness_TraceInvariantHoldsAfterEveryStep :
    (openState [.close 1000 []]).inv = true ∧ (openState [.close 1000 []]).traceInv = true ∧
    ∃ t, step (openState [.close 1000 []]) = .next t ∧ t.k.closeSent = true :=
  ⟨by decide +kernel, by decide +kernel, answers_next (by decide +kernel)⟩

theorem witness_TraceGrowsAndParametersStay :
    ∃ t, step (openState [.sendPing []]) = .next t ∧ (t.out.length == 1) = true :=
  answers_next (by decide +kernel)

/-- Suspended in the key: the registers that differ are not live. -/
theorem witness_UnwrittenHeaderRegistersDecideNothing :
    let h := headerFor 1 5 5 key0
    sameLive .awaitingMaskKey h { h with rsv := 7, masked := false, extLen := some 9, key := keyA } := by
  simp [sameLive]

theorem witness_ConnectionsAreIndependent :
    (0 : Nat) ≠ 1 ∧ ([openState [.sendPing []], closingState []])[1]? = some (closingState []) ∧
    ([openState [.sendPing []], closingState []])[0]? = ([openState [.sendPing []]])[0]? := by
  decide +kernel

theorem witness_KeyCheckAcceptsExactlyTheNonceForm :
    (Config.ascii "dGhlIHNhbXBsZSBub25jZQ==").length = 24 ∧
    (base64Decode (Config.ascii "dGhlIHNhbXBsZSBub25jZQ==")).map List.length = some 16 := by
  decide +kernel

end Sys2Proof.Tests
end

section
/-! SUPPORT. Big-endian numbers (00_scope.md R8, 20_memory.md R64): `be` and `toBe` as base-256 digits, and
their being inverse to each other. -/

namespace Sys2Proof

/-- The accumulator of `be` counts as the digits before the string. -/
theorem be_foldl (acc : Nat) (s : Bytes) :
    s.foldl (fun acc b => acc * 256 + b.toNat) acc = acc * 256 ^ s.length + be s := by
  induction s generalizing acc with
  | nil => simp [be]
  | cons b s ih =>
    have hs : be (b :: s) = b.toNat * 256 ^ s.length + be s := by
      simpa [be] using ih b.toNat
    rw [List.foldl_cons, ih, hs, List.length_cons]
    ring

@[simp] theorem be_nil : be [] = 0 := rfl

/-- The first byte is the most significant digit. -/
theorem be_cons (b : Byte) (s : Bytes) : be (b :: s) = b.toNat * 256 ^ s.length + be s := by
  simpa [be] using be_foldl b.toNat s

theorem be_lt (s : Bytes) : be s < 256 ^ s.length := by
  induction s with
  | nil => simp
  | cons b s ih =>
    have hb : b.toNat + 1 ≤ 256 := b.isLt
    calc be (b :: s) < (b.toNat + 1) * 256 ^ s.length := by rw [be_cons, Nat.succ_mul]; omega
      _ ≤ 256 * 256 ^ s.length := Nat.mul_le_mul_right _ hb
      _ = 256 ^ (b :: s).length := by rw [List.length_cons, pow_succ']

/-- `toBe n` writes the `n` low digits, whatever stands above them. -/
theorem be_toBe (n v : Nat) : be (toBe n v) = v % 256 ^ n := by
  induction n with
  | zero => simp [toBe, Nat.mod_one]
  | succ n ih =>
    rw [toBe, be_cons, ih, toBe_length, Nat.mod_pow_succ, BitVec.toNat_ofNat]
    ring

theorem mul_pow_add_div (n k v : Nat) : (k * 256 ^ n + v) / 256 ^ n = k + v / 256 ^ n := by
  rw [Nat.mul_comm, Nat.mul_add_div (by positivity)]

/-- Digits above the `n` low ones do not change what `toBe n` writes. -/
theorem toBe_mul_pow_add (n k v : Nat) : toBe n (k * 256 ^ n + v) = toBe n v := by
  induction n generalizing k with
  | zero => rfl
  | succ n ih =>
    have hv : k * 256 ^ (n + 1) + v = k * 256 * 256 ^ n + v := by ring
    rw [toBe, toBe, hv, ih, mul_pow_add_div]
    congr 1
    apply BitVec.eq_of_toNat_eq
    simp

theorem toBe_be (s : Bytes) : toBe s.length (be s) = s := by
  induction s with
  | nil => rfl
  | cons b s ih =>
    rw [be_cons, List.length_cons, toBe, toBe_mul_pow_add, ih, mul_pow_add_div,
      Nat.div_eq_of_lt (be_lt s), Nat.add_zero, BitVec.ofNat_toNat, BitVec.setWidth_eq]

/-- Settles O5: `toBe n` writes the value modulo `256 ^ n`, and writing a string's value digit by digit gives
back the string. -/
theorem bigEndianNumbersAreInverse : Obligations.BigEndianNumbersAreInverse := by
  refine ⟨fun n v hv => ⟨toBe_length n v, ?_⟩, fun s => ⟨be_lt s, toBe_be s⟩⟩
  rw [be_toBe, Nat.mod_eq_of_lt hv]

end Sys2Proof
end

section
/-! SUPPORT. What no rule of the block undoes (00_scope.md R10, 10_state.md R39): outputs are only appended,
the parameters are never written, and only the step itself takes from the pending inputs. -/

namespace Sys2Proof.Machine

/-- `t` has the trace of `s` with outputs added, and the parameters and pending inputs of `s`. -/
structure State.ExtendedBy (s t : State) : Prop where
  out : s.out <+: t.out
  cfg : t.cfg = s.cfg
  inputs : t.inputs = s.inputs

theorem State.ExtendedBy.refl (s : State) : s.ExtendedBy s := ⟨List.prefix_rfl, rfl, rfl⟩

theorem State.ExtendedBy.trans {s t u : State} (h : s.ExtendedBy t) (h' : t.ExtendedBy u) :
    s.ExtendedBy u :=
  ⟨h.out.trans h'.out, h'.cfg.trans h.cfg, h'.inputs.trans h.inputs⟩

theorem State.extendedBy_output (o : Output) (s : State) : s.ExtendedBy (s.output o) :=
  ⟨List.prefix_append _ _, rfl, rfl⟩

theorem State.extendedBy_enterClosed (s : State) : s.ExtendedBy s.enterClosed :=
  ⟨List.prefix_rfl, rfl, rfl⟩

theorem State.extendedBy_localClose (p : Bytes) (s : State) : s.ExtendedBy (s.localClose p) := by
  rw [State.localClose_eq]
  exact ⟨List.prefix_append _ _, rfl, rfl⟩

theorem extendedBy_raiseFail (code : U16) (kind : Kind) (s : State) :
    s.ExtendedBy (raiseFail code kind s) := by
  rw [raiseFail_eq]
  exact ⟨List.prefix_append _ _, rfl, rfl⟩

/-! ### Frames -/

theorem ReceivedOutcome.extendedBy {s t : State} (h : ReceivedOutcome s t) : s.ExtendedBy t := by
  obtain ⟨hcfg, -, -, -, hinputs, -, -⟩ := h.frame
  refine ⟨?_, hcfg, hinputs⟩
  cases h with
  | failed a' code kind _ _ => exact (extendedBy_raiseFail code kind { s with a := a' }).out
  | runs a' outs _ _ _ => exact List.prefix_append _ _
  | closes code reason => rw [State.closeReceived_eq]; exact List.prefix_append _ _

theorem exec_extendedBy {i : Instr} {s t : State} (h : exec i s = .next t) : s.ExtendedBy t := by
  cases hi : i.received with
  | true =>
    rcases exec_received hi h with ⟨-, rfl⟩ | ⟨-, hr⟩
    · exact .refl _
    · exact hr.extendedBy
  | false =>
    rcases exec_transmitted hi h with rfl | ⟨-, -, -, rfl⟩ | ⟨-, p, -, rfl⟩
    · exact .refl _
    · exact s.extendedBy_output _
    · exact s.extendedBy_localClose p

theorem execAll_extendedBy {is : List Instr} {s t : State} (h : execAll is s = .next t) :
    s.ExtendedBy t := by
  induction is generalizing s with
  | nil => cases h; exact .refl _
  | cons i rest ih =>
    simp only [execAll] at h
    split at h
    · rename_i u hu
      exact (exec_extendedBy hu).trans (ih h)
    · rename_i hnext
      exact absurd h (hnext t)

/-! ### The decoder -/

theorem afterHeader_extendedBy (s : State) : s.ExtendedBy (afterHeader s) := by
  unfold afterHeader
  split
  · exact ⟨List.prefix_rfl, rfl, rfl⟩
  · split <;> exact ⟨List.prefix_rfl, rfl, rfl⟩

theorem runFrame_extendedBy {p : Bytes} {s t : State} (h : runFrame p s = .next t) :
    s.ExtendedBy t := by
  unfold runFrame at h
  split at h
  · exact exec_extendedBy h
  · cases h

theorem microHeader_extendedBy {s t : State} (h : microHeader s = .ran (.next t)) :
    s.ExtendedBy t := by
  unfold microHeader at h
  split at h
  · cases h
  · rename_i bs c _
    have hload : s.ExtendedBy
        { s with c := c, h := s.h.load (baseHeader (bs.getD 0 0) (bs.getD 1 0)) } :=
      ⟨List.prefix_rfl, rfl, rfl⟩
    simp only at h
    split at h <;> cases h
    · exact hload.trans (extendedBy_raiseFail ..)
    · exact hload.trans (afterHeader_extendedBy _)

theorem microExtLen16_extendedBy {s t : State} (h : microExtLen16 s = .ran (.next t)) :
    s.ExtendedBy t := by
  unfold microExtLen16 at h
  split at h <;> cases h
  exact ⟨List.prefix_rfl, rfl, rfl⟩

theorem microExtLen64_extendedBy {s t : State} (h : microExtLen64 s = .ran (.next t)) :
    s.ExtendedBy t := by
  unfold microExtLen64 at h
  split at h
  · cases h
  · rename_i bs c _
    have hload : s.ExtendedBy
        { s with c := c, h := { s.h with extLen := some (BitVec.ofNat 64 (be bs)) } } :=
      ⟨List.prefix_rfl, rfl, rfl⟩
    simp only at h
    split at h <;> cases h
    · exact ⟨List.prefix_rfl, rfl, rfl⟩
    · exact hload.trans (extendedBy_raiseFail ..)

theorem microMaskKey_extendedBy {s t : State} (h : microMaskKey s = .ran (.next t)) :
    s.ExtendedBy t := by
  unfold microMaskKey at h
  split at h <;> cases h
  exact ⟨List.prefix_rfl, rfl, rfl⟩

theorem microPayload_extendedBy {s t : State} (h : microPayload s = .ran (.next t)) :
    s.ExtendedBy t := by
  unfold microPayload at h
  split at h
  · cases h; exact extendedBy_raiseFail ..
  · split at h
    · cases h
    · rename_i w c _
      have hfetched : s.ExtendedBy ({ s with c := c }.setDec .awaitingHeader) :=
        ⟨List.prefix_rfl, rfl, rfl⟩
      exact hfetched.trans (runFrame_extendedBy (Micro.ran.inj h))

theorem microStep_extendedBy {s t : State} (h : microStep s = .ran (.next t)) :
    s.ExtendedBy t := by
  unfold microStep at h
  split at h
  · exact microHeader_extendedBy h
  · exact microExtLen16_extendedBy h
  · exact microExtLen64_extendedBy h
  · exact microMaskKey_extendedBy h
  · exact microPayload_extendedBy h
  · cases h

theorem drain_extendedBy {s t : State} (h : drain s = .next t) : s.ExtendedBy t :=
  drain_keeps (fun _ _ _ hu hstep => hu.trans (microStep_extendedBy hstep)) h (.refl s)

/-! ### The inputs -/

theorem hsRequest_extendedBy {method : Bytes} {headers : Headers} {s t : State}
    (h : hsRequest method headers s = .next t) : s.ExtendedBy t := by
  unfold hsRequest at h
  split at h
  · simp only at h
    split at h <;> cases h <;> exact ⟨by simp, rfl, rfl⟩
  all_goals cases h; exact .refl _

theorem rxChunk_extendedBy {bytes : Bytes} {s t : State} (h : rxChunk bytes s = .next t) :
    s.ExtendedBy t := by
  have happend : s.ExtendedBy { s with c := s.c.append bytes } := ⟨List.prefix_rfl, rfl, rfl⟩
  unfold rxChunk at h
  split at h
  · cases h; exact .refl _
  · exact happend.trans (drain_extendedBy h)
  · exact happend.trans (drain_extendedBy h)
  · cases h; exact .refl _

/-- Entry into CLOSED after one output (44_connection.md R239 to R243). -/
theorem State.extendedBy_output_enterClosed (o : Output) (s : State) :
    s.ExtendedBy (s.output o).enterClosed :=
  (s.extendedBy_output o).trans (State.extendedBy_enterClosed _)

theorem rxEnd_extendedBy {s t : State} (h : rxEnd s = .next t) : s.ExtendedBy t := by
  unfold rxEnd at h
  split at h <;> cases h
  · exact s.extendedBy_enterClosed
  · exact s.extendedBy_output_enterClosed _
  · exact s.extendedBy_output_enterClosed _
  · exact .refl _

theorem rxError_extendedBy {s t : State} (h : rxError s = .next t) : s.ExtendedBy t := by
  unfold rxError at h
  split at h <;> cases h
  · exact s.extendedBy_enterClosed
  · exact s.extendedBy_output_enterClosed _
  · exact s.extendedBy_output_enterClosed _
  · exact .refl _

theorem timerExpire_extendedBy {s t : State} (h : timerExpire s = .next t) : s.ExtendedBy t := by
  unfold timerExpire at h
  split at h
  case h_3 =>
    split at h <;> cases h
    · exact s.extendedBy_output_enterClosed _
    · exact .refl _
  all_goals cases h; exact .refl _

theorem drivePause_extendedBy (level : Bool) (s : State) : s.ExtendedBy (drivePause level s) := by
  unfold drivePause
  split
  · exact .refl _
  · exact ⟨List.prefix_append _ _, rfl, rfl⟩

theorem pauseResume_extendedBy {level : Bool} {s t : State} (h : pauseResume level s = .next t) :
    s.ExtendedBy t := by
  unfold pauseResume at h
  split at h <;> cases h
  · exact .refl _
  · exact drivePause_extendedBy level s
  · exact drivePause_extendedBy level s
  · exact .refl _

theorem sendMessage_extendedBy {op : BitVec 4} {payload : Bytes} {frag : Option Nat} {s t : State}
    (h : sendMessage op payload frag s = .next t) : s.ExtendedBy t := by
  unfold sendMessage at h
  split at h
  · cases h; exact .refl _
  · split at h
    · split at h
      · exact exec_extendedBy h
      · split at h
        · cases h; exact .refl _
        · exact execAll_extendedBy h
    · cases h; exact .refl _

theorem closeCommand_extendedBy {code : U16} {reason : Bytes} {s t : State}
    (h : closeCommand code reason s = .next t) : s.ExtendedBy t := by
  unfold closeCommand at h
  split at h
  · exact exec_extendedBy h
  · cases h; exact .refl _

theorem txFrameInput_extendedBy {bytes : Bytes} {s t : State}
    (h : txFrameInput bytes s = .next t) : s.ExtendedBy t := by
  unfold txFrameInput at h
  split at h
  · exact exec_extendedBy h
  · cases h; exact .refl _
  · cases h; exact .refl _

/-- Whatever an input event does, it extends the trace and writes neither the parameters nor the queue. -/
theorem handleInput_extendedBy {input : Input} {s t : State} (h : handleInput input s = .next t) :
    s.ExtendedBy t := by
  cases input with
  | hsRequest method headers => exact hsRequest_extendedBy h
  | rxChunk bytes => exact rxChunk_extendedBy h
  | rxEnd => exact rxEnd_extendedBy h
  | rxError => exact rxError_extendedBy h
  | timerExpire => exact timerExpire_extendedBy h
  | sendMessage op payload frag => exact sendMessage_extendedBy h
  | sendPing payload => exact exec_extendedBy (i := .txPing payload) h
  | sendPong payload => exact exec_extendedBy (i := .txPong payload) h
  | close code reason => exact closeCommand_extendedBy h
  | pause => exact pauseResume_extendedBy h
  | resume => exact pauseResume_extendedBy h
  | txFrame bytes => exact txFrameInput_extendedBy h

/-- The two cases of a step: it waits, or it handles the oldest input in the state without it. -/
theorem step_cases (s : State) :
    (s.inputs = [] ∧ step s = .next s) ∨
    (∃ input rest, s.inputs = input :: rest ∧
      step s = handleInput input { s with inputs := rest }) := by
  unfold step takeInput
  split
  · rename_i hnil; exact .inl ⟨hnil, rfl⟩
  · rename_i input rest hcons; exact .inr ⟨input, rest, hcons, rfl⟩

/-- Settles O53: handling an input extends the trace and keeps the rest, and the step itself takes the first
input; without one nothing changes. -/
theorem traceGrowsAndParametersStay : Obligations.TraceGrowsAndParametersStay := by
  intro s t h
  rcases step_cases s with ⟨hnil, hstep⟩ | ⟨input, rest, hcons, hstep⟩ <;> rw [hstep] at h
  · cases h
    exact ⟨List.prefix_rfl, rfl, by rw [hnil]; rfl⟩
  · obtain ⟨hout, hcfg, hinputs⟩ := handleInput_extendedBy h
    exact ⟨hout, hcfg, by rw [hinputs, hcons]; rfl⟩

end Sys2Proof.Machine
end

section
/-! SUPPORT. What a micro-step of the decoder and an input event can do, said once: the inversions of
`microStep` and `handleInput`, in the terms of the shared operations. -/

namespace Sys2Proof.Machine

/-! ### The header registers in each decoder state -/

theorem headerInv_awaitingExtLen16_iff {s : State} (h : s.d.state = .awaitingExtLen16) :
    headerInv s = true ↔
      headerFault s.h.base = none ∧ s.h.rawLen7.toNat = 126 ∧ s.h.extLen = none := by
  simp [headerInv, h, and_assoc]

theorem headerInv_awaitingExtLen64_iff {s : State} (h : s.d.state = .awaitingExtLen64) :
    headerInv s = true ↔
      headerFault s.h.base = none ∧ s.h.rawLen7.toNat = 127 ∧ s.h.extLen = none := by
  simp [headerInv, h, and_assoc]

theorem headerInv_awaitingMaskKey_iff {s : State} (h : s.d.state = .awaitingMaskKey) :
    headerInv s = true ↔ headerFault s.h.base = none ∧ lengthInv s.h = true := by
  simp [headerInv, h]

theorem headerInv_awaitingPayload_iff {s : State} (h : s.d.state = .awaitingPayload) :
    headerInv s = true ↔ headerFault s.h.base = none ∧ lengthInv s.h = true := by
  simp [headerInv, h]

theorem lengthInv_short {h : Header} (hlen : h.rawLen7.toNat ≤ 125) (hext : h.extLen = none)
    (heff : h.effLen.toNat = h.rawLen7.toNat) : lengthInv h = true := by
  simp [lengthInv, hlen, hext, heff]

/-- An extended length of `n` bytes, in both registers (10_state.md R29). -/
theorem lengthInv_extended {h : Header} {n : Nat} (hlen : 125 < h.rawLen7.toNat)
    (hext : h.extLen = some (BitVec.ofNat 64 n)) (heff : h.effLen = BitVec.ofNat 63 n)
    (hn : n < 2 ^ 63) (h16 : h.rawLen7.toNat = 126 → n < 2 ^ 16) : lengthInv h = true := by
  have hv : (BitVec.ofNat 64 n).toNat = n := Nat.mod_eq_of_lt (by omega)
  have he : (BitVec.ofNat 63 n).toNat = n := Nat.mod_eq_of_lt hn
  simp only [lengthInv, Nat.not_le.2 hlen, if_false, hext, heff, hv, he, beq_self_eq_true,
    Bool.true_and]
  by_cases h126 : h.rawLen7.toNat = 126
  · simpa [h126] using h16 h126
  · simp [h126]

/-! ### Micro-steps -/

/-- What a micro-step that goes on can do: advance to another decoder state, fail, or run a received frame
at a decoder that awaits the next header. -/
inductive MicroOutcome (s : State) : State → Prop where
  | advances (c' : Cursor) (h' : Header) (st : DecState) (hc : s.c.wf = true → c'.wf = true)
      (hst : st ≠ .failed)
      (hh : s.c.wf = true → headerInv s = true →
        headerInv ({ s with c := c', h := h' }.setDec st) = true) :
      MicroOutcome s ({ s with c := c', h := h' }.setDec st)
  | fails (c' : Cursor) (h' : Header) (code : U16) (kind : Kind) (hc : s.c.wf = true → c'.wf = true)
      (hf : isFailure code kind) :
      MicroOutcome s (raiseFail code kind { s with c := c', h := h' })
  | runs (c' : Cursor) (i : Instr) (t : State) (hc : s.c.wf = true → c'.wf = true)
      (hi : i.received = true) (h : exec i ({ s with c := c' }.setDec .awaitingHeader) = .next t) :
      MicroOutcome s t

theorem Cursor.tryConsume_wf {n : Nat} {c c' : Cursor} {r : Bytes}
    (ht : c.tryConsume n = some (r, c')) (h : c.wf = true) : c'.wf = true :=
  (Cursor.tryConsume_some h ht).2.2.1

/-- The three states AWAITING_HEADER leads to (41_decoder.md R156). -/
theorem afterHeader_cases (s : State) :
    (s.h.rawLen7.toNat ≤ 125 ∧ afterHeader s =
      { s with h := { s.h with effLen := BitVec.ofNat 63 s.h.rawLen7.toNat } }.setDec
        .awaitingMaskKey) ∨
    (s.h.rawLen7.toNat = 126 ∧ afterHeader s = s.setDec .awaitingExtLen16) ∨
    (s.h.rawLen7.toNat = 127 ∧ afterHeader s = s.setDec .awaitingExtLen64) := by
  have hlt := s.h.rawLen7.isLt
  unfold afterHeader
  split
  · exact .inl ⟨‹_›, rfl⟩
  · split
    · exact .inr (.inl ⟨‹_›, rfl⟩)
    · exact .inr (.inr ⟨by omega, rfl⟩)

theorem microHeader_outcome {s t : State} (h : microHeader s = .ran (.next t)) :
    MicroOutcome s t := by
  unfold microHeader at h
  split at h
  · cases h
  · rename_i bs c hc
    have hc' : s.c.wf = true → c.wf = true := Cursor.tryConsume_wf hc
    simp only at h
    split at h <;> cases h
    · exact .fails _ _ 1002 .protocolViolation hc' (.inl ⟨rfl, rfl⟩)
    · rename_i hfault
      rcases afterHeader_cases { s with c := c, h := s.h.load (baseHeader (bs.getD 0 0) (bs.getD 1 0)) }
        with ⟨hlen, heq⟩ | ⟨hlen, heq⟩ | ⟨hlen, heq⟩ <;> rw [heq]
      · have heff : (BitVec.ofNat 63 (baseHeader (bs.getD 0 0) (bs.getD 1 0)).rawLen7.toNat).toNat =
            (baseHeader (bs.getD 0 0) (bs.getD 1 0)).rawLen7.toNat :=
          Nat.mod_eq_of_lt (lt_of_le_of_lt hlen (by decide))
        exact .advances c _ .awaitingMaskKey hc' (by decide) fun _ _ =>
          (headerInv_awaitingMaskKey_iff rfl).2 ⟨hfault, lengthInv_short hlen rfl heff⟩
      · exact .advances c _ .awaitingExtLen16 hc' (by decide) fun _ _ =>
          (headerInv_awaitingExtLen16_iff rfl).2 ⟨hfault, hlen, rfl⟩
      · exact .advances c _ .awaitingExtLen64 hc' (by decide) fun _ _ =>
          (headerInv_awaitingExtLen64_iff rfl).2 ⟨hfault, hlen, rfl⟩

theorem microExtLen16_outcome {s t : State} (hst : s.d.state = .awaitingExtLen16)
    (h : microExtLen16 s = .ran (.next t)) : MicroOutcome s t := by
  unfold microExtLen16 at h
  split at h <;> cases h
  rename_i bs c hc
  refine .advances c _ .awaitingMaskKey (Cursor.tryConsume_wf hc) (by decide) fun hwf hh => ?_
  obtain ⟨hfault, h126, -⟩ := (headerInv_awaitingExtLen16_iff hst).1 hh
  have hlt : be bs < 2 ^ 16 := by
    have := be_lt bs
    rwa [(Cursor.tryConsume_some hwf hc).2.1] at this
  exact (headerInv_awaitingMaskKey_iff rfl).2
    ⟨hfault, lengthInv_extended (by simp [h126]) rfl rfl (by omega) fun _ => hlt⟩

theorem microExtLen64_outcome {s t : State} (hst : s.d.state = .awaitingExtLen64)
    (h : microExtLen64 s = .ran (.next t)) : MicroOutcome s t := by
  unfold microExtLen64 at h
  split at h
  · cases h
  · rename_i bs c hc
    simp only at h
    split at h <;> cases h
    · rename_i hlt
      refine .advances c _ .awaitingMaskKey (Cursor.tryConsume_wf hc) (by decide) fun _ hh => ?_
      obtain ⟨hfault, h127, -⟩ := (headerInv_awaitingExtLen64_iff hst).1 hh
      exact (headerInv_awaitingMaskKey_iff rfl).2
        ⟨hfault, lengthInv_extended (by simp [h127]) rfl rfl hlt (by simp [h127])⟩
    · exact .fails c _ 1002 .protocolViolation (Cursor.tryConsume_wf hc) (.inl ⟨rfl, rfl⟩)

theorem microMaskKey_outcome {s t : State} (hst : s.d.state = .awaitingMaskKey)
    (h : microMaskKey s = .ran (.next t)) : MicroOutcome s t := by
  unfold microMaskKey at h
  split at h <;> cases h
  rename_i bs c hc
  exact .advances c _ .awaitingPayload (Cursor.tryConsume_wf hc) (by decide) fun _ hh =>
    (headerInv_awaitingPayload_iff rfl).2 ((headerInv_awaitingMaskKey_iff hst).1 hh)

theorem microPayload_outcome {s t : State} (h : microPayload s = .ran (.next t)) :
    MicroOutcome s t := by
  unfold microPayload at h
  split at h
  · cases h
    exact .fails s.c s.h 1009 .payloadTooLarge id (.inr (.inl ⟨rfl, rfl⟩))
  · split at h
    · cases h
    · rename_i w c hc
      simp only [Micro.ran.injEq, runFrame] at h
      split at h
      · rename_i i hi
        exact .runs c i t (Cursor.tryConsume_wf hc) (rxInstr_received hi).1 h
      · cases h

/-- The inversion of a micro-step that goes on. -/
theorem microStep_outcome {s t : State} (h : microStep s = .ran (.next t)) : MicroOutcome s t := by
  unfold microStep at h
  split at h
  · exact microHeader_outcome h
  · exact microExtLen16_outcome ‹_› h
  · exact microExtLen64_outcome ‹_› h
  · exact microMaskKey_outcome ‹_› h
  · exact microPayload_outcome h
  · cases h

/-! ### The SHA-1 registers -/

theorem blockWords_length (n : Nat) (bs : Bytes) : (blockWords n bs).length = n := by
  induction n generalizing bs with
  | zero => rfl
  | succ n ih => simp [blockWords, ih]

theorem extendSchedule_length (n : Nat) (ws : List Word32) :
    (extendSchedule n ws).length = n + ws.length := by
  induction n generalizing ws with
  | zero => simp [extendSchedule]
  | succ n ih => rw [extendSchedule, ih, List.length_cons]; omega

theorem sha1Schedule_length (block : Bytes) : (sha1Schedule block).length = 80 := by
  simp [sha1Schedule, extendSchedule_length, blockWords_length]

theorem sha1Rounds_w (t : Nat) (ws : List Word32) (r : Sha1Regs) : (sha1Rounds t ws r).w = r.w := by
  induction ws generalizing t r with
  | nil => rfl
  | cons wt ws ih => rw [sha1Rounds, ih]; rfl

theorem sha1Block_w_length (r : Sha1Regs) (block : Bytes) : (sha1Block r block).w.length = 80 := by
  simp [sha1Block, sha1Rounds_w, sha1Schedule_length]

/-- The message schedule keeps its 80 words (45_handshake.md R273). -/
theorem sha1Run_w_length {r : Sha1Regs} (h : r.w.length = 80) (m : Bytes) :
    (sha1Run r m).w.length = 80 :=
  List.foldlRecOn (motive := fun r => r.w.length = 80)
    (sha1Blocks (sha1Pad m).length (sha1Pad m)) sha1Block (b := sha1Load r) h
    fun r _ block _ => sha1Block_w_length r block

/-- The two results of the negotiation: which one does not depend on the SHA-1 registers. -/
theorem negotiate_cases (cfg : Params) (method : Bytes) (headers : Headers) :
    (∃ status extra, ∀ sha, negotiate cfg sha method headers = (.reject status extra, sha)) ∨
    (∀ sha, negotiate cfg sha method headers =
      (.accept (base64 (sha1Digest (sha1Run sha (acceptMessage headers)))),
        sha1Run sha (acceptMessage headers))) := by
  unfold negotiate
  cases methodOk method
  · exact .inl ⟨_, _, fun _ => rfl⟩
  cases upgradeOk headers
  · exact .inl ⟨_, _, fun _ => rfl⟩
  cases connectionOk headers
  · exact .inl ⟨_, _, fun _ => rfl⟩
  cases keyOk headers
  · exact .inl ⟨_, _, fun _ => rfl⟩
  cases versionOk cfg headers
  · exact .inl ⟨_, _, fun _ => rfl⟩
  · exact .inr fun _ => rfl

/-! ### Input events -/

/-- The first byte of every handshake response, `H`. -/
theorem response101_head (accept : Bytes) : (response101 accept).head? = some 0x48 := by
  simp [response101, Config.ascii]

theorem responseError_head (status : RejectStatus) (extra : List (Bytes × Bytes)) :
    (responseError status extra).head? = some 0x48 := by
  cases status <;> simp [responseError, statusLine, Config.ascii]

/-- What an input event can do: nothing, the two results of the handshake, the end of the connection from
outside (44_connection.md R239 to R243), a change of the pause level, transmitted frames in order, or a
received chunk that is drained. -/
inductive InputOutcome (s : State) : State → Prop where
  | waits : InputOutcome s s
  | accepts (sha' : Sha1Regs) (response : Bytes) (hk : s.k.state = .connecting)
      (hw : s.sha.w.length = 80 → sha'.w.length = 80) (hr : response.head? = some 0x48) :
      InputOutcome s ((({ s with sha := sha' }.txWrite response).createDecoder.setConn
        .opened).emit .connectionOpened)
  | rejects (response : Bytes) (hk : s.k.state = .connecting) (hr : response.head? = some 0x48) :
      InputOutcome s (s.txWrite response).txEnd.enterClosed
  | ends (outs : List Output) (hk : s.k.state ≠ .closed)
      (ho : outs = [] ∨ outs = [.txEnd] ∨ outs = [.ev (.error .transportError)]) :
      InputOutcome s { s with out := s.out ++ outs }.enterClosed
  | pauses (level : Bool) (hk : s.k.state = .opened ∨ s.k.state = .closing) :
      InputOutcome s ((s.setPaused level).output (.rxPause level))
  | transmits (is : List Instr) (t : State) (hi : ∀ i ∈ is, i.received = false)
      (h : execAll is s = .next t) : InputOutcome s t
  | receives (bytes : Bytes) (t : State) (hk : s.k.state = .opened ∨ s.k.state = .closing)
      (h : drain { s with c := s.c.append bytes } = .next t) : InputOutcome s t

theorem InputOutcome.transmitsOne {i : Instr} {s t : State} (hi : i.received = false)
    (h : exec i s = .next t) : InputOutcome s t :=
  .transmits [i] t (by simpa using hi) (by simp [execAll, h])

theorem hsRequest_outcome {method : Bytes} {headers : Headers} {s t : State}
    (h : hsRequest method headers s = .next t) : InputOutcome s t := by
  unfold hsRequest at h
  split at h
  case h_1 hk =>
    rcases negotiate_cases s.cfg method headers with ⟨status, extra, hn⟩ | hn <;>
      simp only [hn] at h <;> cases h
    · exact .rejects _ hk (responseError_head status extra)
    · exact .accepts _ _ hk (fun hw => sha1Run_w_length hw _) (response101_head _)
  all_goals cases h; exact .waits

theorem InputOutcome.endsSilently {s : State} (hk : s.k.state ≠ .closed) :
    InputOutcome s s.enterClosed := by
  simpa using InputOutcome.ends [] hk (.inl rfl)

theorem InputOutcome.endsTx {s : State} (hk : s.k.state ≠ .closed) :
    InputOutcome s s.txEnd.enterClosed :=
  .ends [.txEnd] hk (.inr (.inl rfl))

theorem rxChunk_outcome {bytes : Bytes} {s t : State} (h : rxChunk bytes s = .next t) :
    InputOutcome s t := by
  unfold rxChunk at h
  split at h
  case h_2 hk => exact .receives bytes t (.inl hk) h
  case h_3 hk => exact .receives bytes t (.inr hk) h
  all_goals cases h; exact .waits

theorem rxEnd_outcome {s t : State} (h : rxEnd s = .next t) : InputOutcome s t := by
  unfold rxEnd at h
  split at h <;> cases h <;> rename_i hk
  · exact .endsSilently (by simp [hk])
  · exact .endsTx (by simp [hk])
  · exact .endsTx (by simp [hk])
  · exact .waits

theorem rxError_outcome {s t : State} (h : rxError s = .next t) : InputOutcome s t := by
  unfold rxError at h
  split at h <;> cases h <;> rename_i hk
  · exact .endsSilently (by simp [hk])
  · exact .ends _ (by simp [hk]) (.inr (.inr rfl))
  · exact .ends _ (by simp [hk]) (.inr (.inr rfl))
  · exact .waits

theorem timerExpire_outcome {s t : State} (h : timerExpire s = .next t) : InputOutcome s t := by
  unfold timerExpire at h
  split at h
  case h_3 hk =>
    split at h <;> cases h
    · exact .endsTx (by simp [hk])
    · exact .waits
  all_goals cases h; exact .waits

theorem drivePause_outcome (level : Bool) {s : State}
    (hk : s.k.state = .opened ∨ s.k.state = .closing) : InputOutcome s (drivePause level s) := by
  unfold drivePause
  split
  · exact .waits
  · exact .pauses level hk

theorem pauseResume_outcome {level : Bool} {s t : State} (h : pauseResume level s = .next t) :
    InputOutcome s t := by
  unfold pauseResume at h
  split at h <;> cases h <;> rename_i hk
  · exact .waits
  · exact drivePause_outcome level (.inl hk)
  · exact drivePause_outcome level (.inr hk)
  · exact .waits

theorem messageFrame_transmitted (kind : MsgKind) (fin : Bool) (p : Bytes) :
    (messageFrame kind fin p).received = false := by
  cases kind <;> rfl

theorem fragments_transmitted {kind : MsgKind} {p : Bytes} {f : Nat} :
    ∀ i ∈ fragments kind p f, i.received = false := by
  unfold fragments
  split
  · simpa using messageFrame_transmitted kind true p
  · intro i hi
    simp only [List.mem_append, List.mem_cons, List.mem_map, List.not_mem_nil, or_false] at hi
    rcases hi with (rfl | ⟨k, -, rfl⟩) | rfl
    · exact messageFrame_transmitted kind false _
    · rfl
    · rfl

theorem sendMessage_outcome {op : BitVec 4} {payload : Bytes} {frag : Option Nat} {s t : State}
    (h : sendMessage op payload frag s = .next t) : InputOutcome s t := by
  unfold sendMessage at h
  split at h
  · cases h; exact .waits
  · split at h
    · split at h
      · exact .transmitsOne (messageFrame_transmitted ..) h
      · split at h
        · cases h; exact .waits
        · exact .transmits _ t fragments_transmitted h
    · cases h; exact .waits

theorem closeCommand_outcome {code : U16} {reason : Bytes} {s t : State}
    (h : closeCommand code reason s = .next t) : InputOutcome s t := by
  unfold closeCommand at h
  split at h
  · exact .transmitsOne rfl h
  · cases h; exact .waits

theorem txFrameInput_outcome {bytes : Bytes} {s t : State}
    (h : txFrameInput bytes s = .next t) : InputOutcome s t := by
  unfold txFrameInput at h
  split at h
  · exact .transmitsOne (decode_of_decodeTx ‹_›).1 h
  · cases h; exact .waits
  · cases h; exact .waits

/-- The inversion of an input event. -/
theorem handleInput_outcome {input : Input} {s t : State} (h : handleInput input s = .next t) :
    InputOutcome s t := by
  cases input with
  | hsRequest method headers => exact hsRequest_outcome h
  | rxChunk bytes => exact rxChunk_outcome h
  | rxEnd => exact rxEnd_outcome h
  | rxError => exact rxError_outcome h
  | timerExpire => exact timerExpire_outcome h
  | sendMessage op payload frag => exact sendMessage_outcome h
  | sendPing payload => exact .transmitsOne (i := .txPing payload) rfl h
  | sendPong payload => exact .transmitsOne (i := .txPong payload) rfl h
  | close code reason => exact closeCommand_outcome h
  | pause => exact pauseResume_outcome h
  | resume => exact pauseResume_outcome h
  | txFrame bytes => exact txFrameInput_outcome h

/-- What every transmitted frame keeps, a list of them keeps. -/
theorem execAll_keeps {P : State → Prop}
    (step : ∀ i s t, i.received = false → P s → exec i s = .next t → P t) {is : List Instr}
    {s t : State} (hi : ∀ i ∈ is, i.received = false) (h : execAll is s = .next t) (hs : P s) :
    P t := by
  induction is generalizing s with
  | nil => cases h; exact hs
  | cons i rest ih =>
    simp only [execAll] at h
    split at h
    · rename_i u hu
      exact ih (fun j hj => hi j (by simp [hj])) h (step i s u (hi i (by simp)) hs hu)
    · rename_i hnext
      exact absurd h (hnext t)

end Sys2Proof.Machine
end

section
/-! SUPPORT. The invariant of the connection's state: all of it but the suspended decoder is kept by every
frame, micro-step and input event; the decoder is suspended again when the drain ends (20_memory.md R73). -/

namespace Sys2Proof.Machine

/-- The invariant while an input event is handled: `State.inv` without the suspended decoder. -/
structure State.BusyInv (s : State) : Prop where
  memory : s.c.wf = true
  accumulator : accumulatorInv s = true
  connection : connectionInv s = true
  failure : failureInv s = true
  header : headerInv s = true
  unopened : unopenedInv s = true
  schedule : s.sha.w.length = 80

theorem State.inv_iff (s : State) : s.inv = true ↔ s.BusyInv ∧ quiescent s = true := by
  simp only [State.inv, Bool.and_eq_true, beq_iff_eq]
  constructor
  · rintro ⟨⟨⟨⟨⟨⟨⟨hm, ha⟩, hc⟩, hf⟩, hh⟩, hq⟩, hu⟩, hs⟩
    exact ⟨⟨hm, ha, hc, hf, hh, hu, hs⟩, hq⟩
  · rintro ⟨⟨hm, ha, hc, hf, hh, hu, hs⟩, hq⟩
    exact ⟨⟨⟨⟨⟨⟨⟨hm, ha⟩, hc⟩, hf⟩, hh⟩, hq⟩, hu⟩, hs⟩

/-! ### The parts of the invariant -/

theorem connectionInv_opened_iff {s : State} (h : s.k.state = .opened) :
    connectionInv s = true ↔
      s.k.timerArmed = false ∧ s.k.closeSent = false ∧ s.k.closeRecv = false := by
  have hst : (ConnState.opened == .closing) = false := rfl
  simp [connectionInv, h, hst]

theorem connectionInv_closing_iff {s : State} (h : s.k.state = .closing) :
    connectionInv s = true ↔
      s.k.timerArmed = true ∧ s.k.closeSent = true ∧ s.k.closeRecv = false := by
  simp [connectionInv, h]

theorem connectionInv_closed_iff {s : State} (h : s.k.state = .closed) :
    connectionInv s = true ↔
      s.k.timerArmed = false ∧ (s.k.closeRecv = true → s.k.closeSent = true) := by
  have hst : (ConnState.closed == .closing) = false := rfl
  cases hr : s.k.closeRecv <;> simp [connectionInv, h, hr, hst]

/-- The peer's close is recorded only after a close frame was sent (10_state.md R38). -/
theorem closeRecv_closeSent {s : State} (h : connectionInv s = true) (hr : s.k.closeRecv = true) :
    s.k.closeSent = true := by
  unfold connectionInv at h
  split at h <;> simp_all

theorem failureInv_running {s : State} (h : s.d.state ≠ .failed) :
    failureInv s = true ↔ s.d.failCode = none ∧ s.d.failKind = none := by
  unfold failureInv
  split <;> simp_all

/-- While the decoder runs the failure record depends on the decoder alone. -/
theorem failureInv_congr {s t : State} (h : failureInv s = true) (hs : s.d.state ≠ .failed)
    (ht : t.d.state ≠ .failed) (hcode : t.d.failCode = s.d.failCode)
    (hkind : t.d.failKind = s.d.failKind) : failureInv t = true := by
  rw [failureInv_running ht, hcode, hkind]
  exact (failureInv_running hs).1 h

theorem failureInv_failed {s : State} {code : U16} {kind : Kind} (hk : s.k.state = .closed)
    (hd : s.d = ⟨.failed, some code, some kind⟩) (hf : isFailure code kind) :
    failureInv s = true := by
  rcases hf with ⟨rfl, rfl⟩ | ⟨rfl, rfl⟩ | ⟨rfl, rfl⟩ <;> simp [failureInv, hk, hd]

/-- The decoder fails only in CLOSED (60_exceptions.md R310). -/
theorem closed_of_failed {s : State} (h : failureInv s = true) (hd : s.d.state = .failed) :
    s.k.state = .closed := by
  simp only [failureInv, hd, Bool.and_eq_true, beq_iff_eq] at h
  exact h.1

theorem headerInv_failed {s : State} (h : s.d.state = .failed) : headerInv s = true := by
  simp [headerInv, h]

theorem unopenedInv_of_ne {s : State} (h : s.k.state ≠ .connecting) : unopenedInv s = true := by
  unfold unopenedInv
  split <;> simp_all

/-- OPEN and CLOSING are neither CONNECTING nor CLOSED. -/
theorem ConnState.running {a : ConnState} (h : a = .opened ∨ a = .closing) :
    a ≠ .connecting ∧ a ≠ .closed := by
  rcases h with rfl | rfl <;> simp

theorem State.decoding_ne_connecting {s : State} (h : s.decoding = true) :
    s.k.state ≠ .connecting :=
  (ConnState.running ((State.decoding_iff s).1 h).1).1

theorem State.decoding_ne_closed {s : State} (h : s.decoding = true) : s.k.state ≠ .closed :=
  (ConnState.running ((State.decoding_iff s).1 h).1).2

/-! ### Frames -/

theorem raiseFail_busyInv {s : State} {code : U16} {kind : Kind} (hf : isFailure code kind)
    (hm : s.c.wf = true) (ha : accumulatorInv s = true) (hw : s.sha.w.length = 80) :
    (raiseFail code kind s).BusyInv := by
  rw [raiseFail_eq]
  exact ⟨hm, ha, (connectionInv_closed_iff rfl).2 ⟨rfl, fun _ => rfl⟩, failureInv_failed rfl rfl hf,
    headerInv_failed rfl, unopenedInv_of_ne (by simp), hw⟩

theorem ReceivedOutcome.busyInv {s t : State} (h : ReceivedOutcome s t) (hd : s.decoding = true)
    (hs : s.BusyInv) : t.BusyInv := by
  obtain ⟨hm, hacc, hc, hf, hh, hu, hw⟩ := hs
  have hne := State.decoding_ne_connecting hd
  cases h with
  | failed a' code kind ha hfail =>
    refine raiseFail_busyInv hfail hm ?_ hw
    rcases ha with rfl | rfl
    · exact hacc
    · exact accumulatorInv_created s
  | runs a' outs ha _ _ => exact ⟨hm, ha hacc, hc, hf, hh, unopenedInv_of_ne hne, hw⟩
  | closes code reason =>
    have hrun := ((State.decoding_iff s).1 hd).2
    rw [State.closeReceived_eq]
    exact ⟨hm, hacc, (connectionInv_closed_iff rfl).2 ⟨rfl, fun _ => rfl⟩,
      failureInv_congr hf hrun hrun rfl rfl, hh, unopenedInv_of_ne (by simp), hw⟩

theorem State.localClose_busyInv {s : State} (hk : s.k.state = .opened) (p : Bytes)
    (hs : s.BusyInv) : (s.localClose p).BusyInv := by
  obtain ⟨hm, hacc, hc, hf, hh, hu, hw⟩ := hs
  obtain ⟨-, -, hrecv⟩ := (connectionInv_opened_iff hk).1 hc
  have hrun : s.d.state ≠ .failed := fun hd => by simp [closed_of_failed hf hd] at hk
  rw [State.localClose_eq]
  exact ⟨hm, hacc, (connectionInv_closing_iff rfl).2 ⟨rfl, rfl, hrecv⟩,
    failureInv_congr hf hrun hrun rfl rfl, hh, unopenedInv_of_ne (by simp), hw⟩

/-- An output outside CONNECTING touches no part of the invariant. -/
theorem State.output_busyInv {s : State} (hk : s.k.state ≠ .connecting) (o : Output)
    (hs : s.BusyInv) : (s.output o).BusyInv := by
  obtain ⟨hm, hacc, hc, hf, hh, -, hw⟩ := hs
  exact ⟨hm, hacc, hc, hf, hh, unopenedInv_of_ne hk, hw⟩

theorem exec_received_busyInv {i : Instr} {s t : State} (hi : i.received = true)
    (h : exec i s = .next t) (hs : s.BusyInv) : t.BusyInv := by
  rcases exec_received hi h with ⟨-, rfl⟩ | ⟨hd, hr⟩
  · exact hs
  · exact hr.busyInv hd hs

theorem exec_transmitted_busyInv {i : Instr} {s t : State} (hi : i.received = false)
    (hs : s.BusyInv) (h : exec i s = .next t) : t.BusyInv := by
  rcases exec_transmitted hi h with rfl | ⟨hk, -, -, rfl⟩ | ⟨hk, p, -, rfl⟩
  · exact hs
  · exact State.output_busyInv (by simp [hk]) _ hs
  · exact State.localClose_busyInv hk p hs

/-! ### The decoder -/

theorem microStep_busyInv {s t : State} (hd : s.decoding = true) (hs : s.BusyInv)
    (h : microStep s = .ran (.next t)) : t.BusyInv := by
  have hrun := ((State.decoding_iff s).1 hd).2
  have hne := State.decoding_ne_connecting hd
  obtain ⟨hm, hacc, hc, hf, hh, -, hw⟩ := hs
  cases microStep_outcome h with
  | advances c' h' st hwf hst hhdr =>
    exact ⟨hwf hm, hacc, hc, failureInv_congr hf hrun hst rfl rfl, hhdr hm hh,
      unopenedInv_of_ne hne, hw⟩
  | fails c' h' code kind hwf hfail => exact raiseFail_busyInv hfail (hwf hm) hacc hw
  | runs c' i t hwf hi hexec =>
    exact exec_received_busyInv hi hexec ⟨hwf hm, hacc, hc,
      failureInv_congr hf hrun (by simp) rfl rfl, rfl, unopenedInv_of_ne hne, hw⟩

/-- A suspended decoder that has not failed lacks bytes, and the frame it waits for is not too large
(41_decoder.md R164). -/
theorem microStep_suspended {s : State} (hrun : s.d.state ≠ .failed)
    (h : microStep s = .suspended) :
    s.c.total < s.needed ∧
      (s.d.state = .awaitingPayload → s.tooLarge s.h.opcode s.h.effLen.toNat = false) := by
  unfold microStep at h
  unfold State.needed
  cases hst : s.d.state <;> simp only [hst] at h ⊢
  case awaitingHeader =>
    unfold microHeader at h
    split at h
    · exact ⟨(Cursor.tryConsume_none_iff _ _).1 ‹_›, nofun⟩
    · simp only at h
      split at h <;> cases h
  case awaitingExtLen16 =>
    unfold microExtLen16 at h
    split at h
    · exact ⟨(Cursor.tryConsume_none_iff _ _).1 ‹_›, nofun⟩
    · cases h
  case awaitingExtLen64 =>
    unfold microExtLen64 at h
    split at h
    · exact ⟨(Cursor.tryConsume_none_iff _ _).1 ‹_›, nofun⟩
    · simp only at h
      split at h <;> cases h
  case awaitingMaskKey =>
    unfold microMaskKey at h
    split at h
    · exact ⟨(Cursor.tryConsume_none_iff _ _).1 ‹_›, nofun⟩
    · cases h
  case awaitingPayload =>
    unfold microPayload at h
    split at h
    · cases h
    · rename_i hsize
      split at h
      · exact ⟨(Cursor.tryConsume_none_iff _ _).1 ‹_›, fun _ => by simpa using hsize⟩
      · cases h
  case failed => exact absurd hst hrun

/-- Where no rule decodes, nothing is asked of the buffered bytes. -/
theorem quiescent_of_idle {s : State} (h : s.k.state = .connecting ∨ s.k.state = .closed) :
    quiescent s = true := by
  rcases h with hk | hk <;> simp [quiescent, hk]

theorem quiescent_of_suspended {s : State} (hrun : s.d.state ≠ .failed)
    (h : microStep s = .suspended) : quiescent s = true := by
  obtain ⟨hneed, hsize⟩ := microStep_suspended hrun h
  have hsize' : (s.d.state == .awaitingPayload && s.tooLarge s.h.opcode s.h.effLen.toNat) = false := by
    simpa using hsize
  unfold quiescent
  split <;> simp [hneed, hsize']

/-- The drain leaves the decoder suspended or the connection CLOSED (20_memory.md R73). -/
theorem drain_inv {s t : State} (hs : s.BusyInv) (h : drain s = .next t) : t.inv = true := by
  have ht : t.BusyInv := drain_keeps (fun _ _ hd hu => microStep_busyInv hd hu) h hs
  refine (State.inv_iff t).2 ⟨ht, ?_⟩
  by_cases hfailed : t.d.state = .failed
  · exact quiescent_of_idle (.inr (closed_of_failed ht.failure hfailed))
  rcases drain_exhausts h with hidle | hsusp
  · refine quiescent_of_idle ?_
    have hnot : ¬ t.decoding = true := by simp [hidle]
    rw [State.decoding_iff] at hnot
    cases hk : t.k.state <;> simp_all
  · exact quiescent_of_suspended hfailed hsusp

/-! ### Transmitted frames -/

/-- A transmitted frame leaves what quiescence reads, but may close. -/
theorem exec_transmitted_quiescent {i : Instr} {s t : State} (hi : i.received = false)
    (hs : quiescent s = true) (h : exec i s = .next t) : quiescent t = true := by
  rcases exec_transmitted hi h with rfl | ⟨-, -, -, rfl⟩ | ⟨hk, p, -, rfl⟩
  · exact hs
  · exact hs
  · simp only [quiescent, hk] at hs
    exact hs

theorem exec_transmitted_inv {i : Instr} {s t : State} (hi : i.received = false)
    (hs : s.inv = true) (h : exec i s = .next t) : t.inv = true := by
  obtain ⟨hbusy, hq⟩ := (State.inv_iff s).1 hs
  exact (State.inv_iff t).2
    ⟨exec_transmitted_busyInv hi hbusy h, exec_transmitted_quiescent hi hq h⟩

/-! ### Input events -/

/-- What an accepted handshake creates (10_state.md R45, 44_connection.md R232). -/
theorem accepted_inv {s : State} (hs : s.inv = true) (hk : s.k.state = .connecting)
    {sha' : Sha1Regs} (hw : sha'.w.length = 80) (response : Bytes) :
    ((({ s with sha := sha' }.txWrite response).createDecoder.setConn .opened).emit
      .connectionOpened).inv = true := by
  obtain ⟨hbusy, -⟩ := (State.inv_iff s).1 hs
  have hc := hbusy.connection
  simp only [connectionInv, hk, Bool.and_eq_true] at hc
  refine (State.inv_iff _).2 ⟨⟨Cursor.created_wf, rfl, ?_, rfl, rfl, rfl, hw⟩, rfl⟩
  refine (connectionInv_opened_iff rfl).2 ?_
  simp_all

/-- Entry into CLOSED outside a frame, after any outputs: the decoder stops where it is. -/
theorem State.enterClosed_inv {s : State} (hs : s.BusyInv) (outs : List Output) :
    { s with out := outs }.enterClosed.inv = true := by
  obtain ⟨hm, hacc, hc, hf, hh, -, hw⟩ := hs
  have hf' : failureInv { s with out := outs }.enterClosed = true := by
    unfold failureInv at hf ⊢
    split at hf <;> simp_all
  have hc' : connectionInv { s with out := outs }.enterClosed = true :=
    (connectionInv_closed_iff rfl).2 ⟨rfl, closeRecv_closeSent (s := s) hc⟩
  exact (State.inv_iff _).2 ⟨⟨hm, hacc, hc', hf', hh, rfl, hw⟩, rfl⟩

/-- The pause level is no part of the invariant once the handshake has succeeded. -/
theorem State.setPaused_inv {s : State} (hs : s.inv = true)
    (hk : s.k.state = .opened ∨ s.k.state = .closing) (level : Bool) :
    ((s.setPaused level).output (.rxPause level)).inv = true := by
  obtain ⟨⟨hm, hacc, hc, hf, hh, -, hw⟩, hq⟩ := (State.inv_iff s).1 hs
  have hc' : connectionInv (s.setPaused level) = true := by
    rcases hk with hk | hk
    · exact (connectionInv_opened_iff (s := s.setPaused level) hk).2
        ((connectionInv_opened_iff hk).1 hc)
    · exact (connectionInv_closing_iff (s := s.setPaused level) hk).2
        ((connectionInv_closing_iff hk).1 hc)
  exact (State.inv_iff _).2
    ⟨⟨hm, hacc, hc', hf, hh, unopenedInv_of_ne (ConnState.running hk).1, hw⟩, hq⟩

/-- A received chunk, before it is drained. -/
theorem State.append_busyInv {s : State} (hs : s.BusyInv)
    (hk : s.k.state = .opened ∨ s.k.state = .closing) (bytes : Bytes) :
    State.BusyInv { s with c := s.c.append bytes } := by
  obtain ⟨hm, hacc, hc, hf, hh, -, hw⟩ := hs
  exact ⟨(Cursor.append_spec bytes hm).1, hacc, hc, hf, hh,
    unopenedInv_of_ne (ConnState.running hk).1, hw⟩

theorem InputOutcome.inv {s t : State} (h : InputOutcome s t) (hs : s.inv = true) :
    t.inv = true := by
  obtain ⟨hbusy, -⟩ := (State.inv_iff s).1 hs
  cases h with
  | waits => exact hs
  | accepts sha' response hk hw _ => exact accepted_inv hs hk (hw hbusy.schedule) response
  | rejects response _ _ => exact State.enterClosed_inv hbusy _
  | ends outs _ _ => exact State.enterClosed_inv hbusy _
  | pauses level hk => exact State.setPaused_inv hs hk level
  | transmits is t hi h =>
    exact execAll_keeps (fun _ _ _ hi hu hexec => exec_transmitted_inv hi hu hexec) hi h hs
  | receives bytes t hk h => exact drain_inv (State.append_busyInv hbusy hk bytes) h

/-- Settles O50: a step without input changes nothing, and an input event keeps the invariant in each of its
outcomes; the drain restores the suspended decoder. -/
theorem invariantHoldsAfterEveryStep : Obligations.InvariantHoldsAfterEveryStep := by
  intro s t hs h
  rcases step_cases s with ⟨-, hstep⟩ | ⟨input, rest, -, hstep⟩ <;> rw [hstep] at h
  · cases h; exact hs
  · exact (handleInput_outcome h).inv (s := { s with inputs := rest }) hs

end Sys2Proof.Machine
end

section
/-! SUPPORT. The invariant of the output trace (10_state.md R47, 44_connection.md R236, R238): what may be
appended to a trace that meets it, and that every frame, micro-step and input event appends no more. -/

namespace Sys2Proof.Machine

/-! ### Appending to a trace -/

theorem quietAfterClose_cons (o : Output) (l : List Output) :
    quietAfterClose (o :: l) = true ↔
      ((isCloseWrite o = true ∨ isTxEnd o = true) → ∀ o' ∈ l, isTxWrite o' = false) ∧
        quietAfterClose l = true := by
  by_cases ho : isCloseWrite o = true ∨ isTxEnd o = true <;> simp [quietAfterClose, ho]

theorem quietAfterClose_append (l r : List Output) :
    quietAfterClose (l ++ r) = true ↔
      quietAfterClose l = true ∧ quietAfterClose r = true ∧
        ((∃ o ∈ l, isCloseWrite o = true ∨ isTxEnd o = true) → ∀ o ∈ r, isTxWrite o = false) := by
  induction l with
  | nil => simp [quietAfterClose]
  | cons o l ih =>
    rw [List.cons_append, quietAfterClose_cons, quietAfterClose_cons, ih]
    by_cases ho : isCloseWrite o = true ∨ isTxEnd o = true
    · constructor
      · rintro ⟨hstop, hql, hqr, -⟩
        obtain ⟨hl, hr⟩ := List.forall_mem_append.1 (hstop ho)
        exact ⟨⟨fun _ => hl, hql⟩, hqr, fun _ => hr⟩
      · rintro ⟨⟨hl, hql⟩, hqr, hstop⟩
        have hr := hstop ⟨o, by simp, ho⟩
        exact ⟨fun _ => List.forall_mem_append.2 ⟨hl ho, hr⟩, hql, hqr, fun _ => hr⟩
    · simp [ho]

theorem State.traceInv_iff (s : State) :
    s.traceInv = true ↔
      s.out.countP isCloseWrite = s.k.closeSent.toNat ∧ s.out.countP isTxEnd ≤ 1 ∧
        (s.out.countP isTxEnd = 0 ∨ s.k.state = .closed) ∧ quietAfterClose s.out = true := by
  simp [State.traceInv, and_assoc]

/-- Outputs that keep the trace invariant of an open connection: they write nothing once a close frame was
sent, and they send a close frame or end TX as `K` then says. -/
theorem traceInv_append {s t : State} {outs : List Output} (hs : s.traceInv = true)
    (hk : s.k.state ≠ .closed) (hout : t.out = s.out ++ outs)
    (hwrites : s.k.closeSent = true → ∀ o ∈ outs, isTxWrite o = false)
    (hquiet : quietAfterClose outs = true)
    (hclose : s.k.closeSent.toNat + outs.countP isCloseWrite = t.k.closeSent.toNat)
    (hend : outs.countP isTxEnd = 0 ∨ outs.countP isTxEnd = 1 ∧ t.k.state = .closed) :
    t.traceInv = true := by
  obtain ⟨hsent, -, hended, hq⟩ := (State.traceInv_iff s).1 hs
  have hnone : s.out.countP isTxEnd = 0 := hended.resolve_right hk
  have hstop : (∃ o ∈ s.out, isCloseWrite o = true ∨ isTxEnd o = true) → s.k.closeSent = true := by
    rintro ⟨o, ho, hc | he⟩
    · have : 0 < s.out.countP isCloseWrite := List.countP_pos_iff.2 ⟨o, ho, hc⟩
      cases hcs : s.k.closeSent with
      | true => rfl
      | false => rw [hsent, hcs] at this; cases this
    · exact absurd he (List.countP_eq_zero.1 hnone o ho)
  refine (State.traceInv_iff t).2 ⟨?_, ?_, ?_, ?_⟩
  · rw [hout, List.countP_append, hsent, hclose]
  · rw [hout, List.countP_append, hnone]; omega
  · rw [hout, List.countP_append, hnone]; exact hend.imp (by omega) And.right
  · rw [hout]
    exact (quietAfterClose_append _ _).2 ⟨hq, hquiet, fun h => hwrites (hstop h)⟩

/-! ### Frames -/

theorem isCloseWrite_closeFrame (p : Bytes) :
    isCloseWrite (.txWrite (encodeFrame true 8#4 p)) = true := by
  simp [isCloseWrite, encodeFrame_head, headerByte0]

@[simp] theorem isCloseWrite_ev (e : Event) : isCloseWrite (.ev e) = false := rfl
@[simp] theorem isCloseWrite_txEnd : isCloseWrite .txEnd = false := rfl

/-- Outputs that neither send a close frame nor end TX stop nothing. -/
theorem plainOutputs_spec {outs : List Output} (h : ∀ o ∈ outs, isPlainOutput o = true) :
    quietAfterClose outs = true ∧ outs.countP isCloseWrite = 0 ∧ outs.countP isTxEnd = 0 := by
  induction outs with
  | nil => exact ⟨rfl, rfl, rfl⟩
  | cons o outs ih =>
    obtain ⟨ho, houts⟩ := List.forall_mem_cons.1 h
    obtain ⟨hclose, hend⟩ : isCloseWrite o = false ∧ isTxEnd o = false := by
      simpa [isPlainOutput] using ho
    simpa [quietAfterClose, hclose, hend] using ih houts

/-- Plain outputs in OPEN, where no close frame was sent yet. -/
theorem traceInv_append_plain {s t : State} {outs : List Output} (hs : s.traceInv = true)
    (hk : s.k.state = .opened) (hc : connectionInv s = true) (hout : t.out = s.out ++ outs)
    (hsent : t.k.closeSent = s.k.closeSent) (ho : ∀ o ∈ outs, isPlainOutput o = true) :
    t.traceInv = true := by
  obtain ⟨hquiet, hclose, hend⟩ := plainOutputs_spec ho
  obtain ⟨-, hnot, -⟩ := (connectionInv_opened_iff hk).1 hc
  exact traceInv_append hs (by simp [hk]) hout (by simp [hnot]) hquiet (by simp [hclose, hsent])
    (.inl hend)

/-- A failure sends the close frame unless one was sent, and ends TX (60_exceptions.md R310, R312). -/
theorem raiseFail_traceInv {s : State} (hs : s.traceInv = true) (hk : s.k.state ≠ .closed)
    (code : U16) (kind : Kind) : (raiseFail code kind s).traceInv = true := by
  rw [raiseFail_eq]
  refine traceInv_append hs hk rfl ?_ ?_ ?_ (.inr ⟨?_, rfl⟩) <;> cases hc : s.k.closeSent <;>
    simp [failOutputs, quietAfterClose, isCloseWrite_closeFrame, isTxWrite, isTxEnd]

/-- The peer's close is echoed unless a close frame was sent, and ends TX (42_dispatch.md R188). -/
theorem closeReceived_traceInv {s : State} (hs : s.traceInv = true) (hk : s.k.state ≠ .closed)
    (code : Option U16) (reason : Bytes) : (s.closeReceived code reason).traceInv = true := by
  rw [State.closeReceived_eq]
  refine traceInv_append hs hk rfl ?_ ?_ ?_ (.inr ⟨?_, rfl⟩) <;> cases hc : s.k.closeSent <;>
    simp [closeOutputs, quietAfterClose, isCloseWrite_closeFrame, isTxWrite, isTxEnd]

theorem localClose_traceInv {s : State} (hs : s.traceInv = true) (hk : s.k.state = .opened)
    (hc : connectionInv s = true) (p : Bytes) : (s.localClose p).traceInv = true := by
  obtain ⟨-, hnot, -⟩ := (connectionInv_opened_iff hk).1 hc
  rw [State.localClose_eq]
  exact traceInv_append hs (by simp [hk]) rfl (by simp [hnot]) (by simp [quietAfterClose])
    (by simp [hnot, isCloseWrite_closeFrame]) (.inl rfl)

theorem exec_received_traceInv {i : Instr} {s t : State} (hi : i.received = true)
    (h : exec i s = .next t) (hc : connectionInv s = true) (hs : s.traceInv = true) :
    t.traceInv = true := by
  rcases exec_received hi h with ⟨-, rfl⟩ | ⟨hd, hr⟩
  · exact hs
  have hk := State.decoding_ne_closed hd
  cases hr with
  | failed a' code kind _ _ => exact raiseFail_traceInv (s := { s with a := a' }) hs hk code kind
  | runs a' outs _ ho hidle =>
    by_cases hopen : s.k.state = .opened
    · exact traceInv_append_plain hs hopen hc rfl rfl ho
    · rw [hidle hopen, List.append_nil]
      exact hs
  | closes code reason => exact closeReceived_traceInv hs hk code reason

theorem exec_transmitted_traceInv {i : Instr} {s t : State} (hi : i.received = false)
    (h : exec i s = .next t) (hc : connectionInv s = true) (hs : s.traceInv = true) :
    t.traceInv = true := by
  rcases exec_transmitted hi h with rfl | ⟨hk, -, hplain, rfl⟩ | ⟨hk, p, -, rfl⟩
  · exact hs
  · exact traceInv_append_plain hs hk hc rfl rfl (by simpa using hplain)
  · exact localClose_traceInv hs hk hc p

/-! ### The decoder and the inputs -/

theorem microStep_traceInv {s t : State} (hd : s.decoding = true) (hc : connectionInv s = true)
    (hs : s.traceInv = true) (h : microStep s = .ran (.next t)) : t.traceInv = true := by
  cases microStep_outcome h with
  | advances c' h' st _ _ _ => exact hs
  | fails c' h' code kind _ _ =>
    exact raiseFail_traceInv (s := { s with c := c', h := h' }) hs (State.decoding_ne_closed hd)
      code kind
  | runs c' i t _ hi hexec => exact exec_received_traceInv hi hexec hc hs

theorem drain_traceInv {s t : State} (hbusy : s.BusyInv) (hs : s.traceInv = true)
    (h : drain s = .next t) : t.traceInv = true :=
  (drain_keeps (P := fun u => u.BusyInv ∧ u.traceInv = true)
    (fun _ _ hd hu hstep => ⟨microStep_busyInv hd hu.1 hstep,
      microStep_traceInv hd hu.1.connection hu.2 hstep⟩) h ⟨hbusy, hs⟩).2

theorem execAll_traceInv {is : List Instr} {s t : State} (hi : ∀ i ∈ is, i.received = false)
    (hbusy : s.BusyInv) (hs : s.traceInv = true) (h : execAll is s = .next t) :
    t.traceInv = true :=
  (execAll_keeps (P := fun u => u.BusyInv ∧ u.traceInv = true)
    (fun _ _ _ hi hu hexec => ⟨exec_transmitted_busyInv hi hu.1 hexec,
      exec_transmitted_traceInv hi hexec hu.1.connection hu.2⟩) hi h ⟨hbusy, hs⟩).2

theorem InputOutcome.traceInv {s t : State} (h : InputOutcome s t) (hbusy : s.BusyInv)
    (hs : s.traceInv = true) : t.traceInv = true := by
  have hunsent : s.k.state = .connecting → s.k.closeSent = false := by
    intro hk
    have hc := hbusy.connection
    simp_all [connectionInv]
  cases h with
  | waits => exact hs
  | accepts sha' response hk _ hr =>
    exact traceInv_append (outs := [.txWrite response, .ev .connectionOpened]) hs (by simp [hk])
      (by simp) (by simp [hunsent hk]) (by simp [quietAfterClose, isCloseWrite, isTxEnd, hr])
      (by simp [isCloseWrite, hr]) (.inl rfl)
  | rejects response hk hr =>
    exact traceInv_append (outs := [.txWrite response, .txEnd]) hs (by simp [hk])
      (by simp) (by simp [hunsent hk]) (by simp [quietAfterClose, isCloseWrite, isTxEnd, hr])
      (by simp [isCloseWrite, hr]) (.inr ⟨rfl, rfl⟩)
  | ends outs hk ho =>
    refine traceInv_append hs hk rfl ?_ ?_ ?_ ?_ <;> rcases ho with rfl | rfl | rfl <;>
      simp [quietAfterClose, isCloseWrite, isTxWrite, isTxEnd]
  | pauses level hk =>
    exact traceInv_append hs (ConnState.running hk).2 rfl (by simp [isTxWrite])
      (by simp [quietAfterClose]) rfl (.inl rfl)
  | transmits is t hi h => exact execAll_traceInv hi hbusy hs h
  | receives bytes t hk h => exact drain_traceInv (State.append_busyInv hbusy hk bytes) hs h

/-- Settles O52: with the state's invariant each outcome of an input event appends only what the trace
invariant allows. -/
theorem traceInvariantHoldsAfterEveryStep : Obligations.TraceInvariantHoldsAfterEveryStep := by
  intro s t hinv hs h
  obtain ⟨hbusy, -⟩ := (State.inv_iff s).1 hinv
  rcases step_cases s with ⟨-, hstep⟩ | ⟨input, rest, -, hstep⟩ <;> rw [hstep] at h
  · cases h; exact hs
  · obtain ⟨hm, ha, hc, hf, hh, hu, hw⟩ := hbusy
    exact (handleInput_outcome h).traceInv (s := { s with inputs := rest })
      ⟨hm, ha, hc, hf, hh, hu, hw⟩ hs

end Sys2Proof.Machine
end

section
/-! SUPPORT. What decides nothing: the ghost position (10_state.md R24, decision D7), the SHA-1 registers
between computations (R40) and the header registers that were not written in the current frame (R27). One
relation between two states covers all of them; every frame, micro-step and input event keeps it. -/

namespace Sys2Proof.Machine

/-! ### Replacing the registers -/

/-- The state with another ghost position, other header registers and other SHA-1 registers. -/
def State.withUnread (pos : Nat) (h : Header) (sha : Sha1Regs) (s : State) : State :=
  { s with c := { s.c with pos := pos }, h := h, sha := sha }

/-- Apply `f` to the next state, if there is one. -/
def mapNext (f : State → State) : Outcome → Outcome
  | .next t => .next (f t)
  | .fault r => .fault r
  | .refused r => .refused r

/-- An operation that neither reads nor writes the ghost position, the header and the SHA-1 registers, and
moves the decoder only to FAILED. -/
structure LeavesUnread (f : State → Outcome) : Prop where
  commutes : ∀ (s : State) (pos : Nat) (h : Header) (sha : Sha1Regs),
    f (s.withUnread pos h sha) = mapNext (State.withUnread pos h sha) (f s)
  keeps : ∀ s t : State, f s = .next t →
    t.c.pos = s.c.pos ∧ t.h = s.h ∧ t.sha = s.sha ∧ (t.d = s.d ∨ t.d.state = .failed)

section

variable (s : State) (pos : Nat) (h : Header) (sha : Sha1Regs)

theorem raiseFail_withUnread (code : U16) (kind : Kind) :
    raiseFail code kind (s.withUnread pos h sha) = (raiseFail code kind s).withUnread pos h sha := by
  simp only [raiseFail_eq]
  rfl

theorem State.closeReceived_withUnread (code : Option U16) (reason : Bytes) :
    (s.withUnread pos h sha).closeReceived code reason =
      (s.closeReceived code reason).withUnread pos h sha := by
  simp only [State.closeReceived_eq]
  rfl

theorem receiveFrame_withUnread {op : BitVec 4} {p : Bytes} {dispatch : State → Outcome}
    (hd : dispatch (s.withUnread pos h sha) = mapNext (State.withUnread pos h sha) (dispatch s)) :
    receiveFrame op p (s.withUnread pos h sha) dispatch =
      mapNext (State.withUnread pos h sha) (receiveFrame op p s dispatch) := by
  have hdec : (s.withUnread pos h sha).decoding = s.decoding := rfl
  have hlarge : (s.withUnread pos h sha).tooLarge op p.length = s.tooLarge op p.length := rfl
  unfold receiveFrame
  rw [hdec, hlarge]
  split
  · rfl
  · split
    · exact congrArg Host.Outcome.next (raiseFail_withUnread ..)
    · exact hd

theorem deliver_withUnread (kind : MsgKind) (bytes : Bytes) :
    deliver kind bytes (s.withUnread pos h sha) = (deliver kind bytes s).withUnread pos h sha := by
  have hcfg : (s.withUnread pos h sha).cfg = s.cfg := rfl
  have hopen : (s.withUnread pos h sha).isOpen = s.isOpen := rfl
  unfold deliver
  rw [hcfg, hopen]
  split
  · exact raiseFail_withUnread ..
  · split <;> rfl

theorem startMessage_withUnread (kind : MsgKind) (fin : Bool) (p : Bytes) :
    startMessage kind fin p (s.withUnread pos h sha) =
      (startMessage kind fin p s).withUnread pos h sha := by
  have ha : (s.withUnread pos h sha).a = s.a := rfl
  unfold startMessage
  rw [ha]
  split
  · exact raiseFail_withUnread ..
  · split
    · exact deliver_withUnread ..
    · rfl

theorem transmitFrame_withUnread (fin : Bool) (op : BitVec 4) (p : Bytes) (fits : Bool) :
    transmitFrame fin op p fits (s.withUnread pos h sha) =
      mapNext (State.withUnread pos h sha) (transmitFrame fin op p fits s) := by
  have hopen : (s.withUnread pos h sha).isOpen = s.isOpen := rfl
  unfold transmitFrame
  rw [hopen]
  split <;> rfl

theorem exec_withUnread (i : Instr) :
    exec i (s.withUnread pos h sha) = mapNext (State.withUnread pos h sha) (exec i s) := by
  have hopen : (s.withUnread pos h sha).isOpen = s.isOpen := rfl
  have ha : (s.withUnread pos h sha).a = s.a := rfl
  cases i with
  | cont fin form key p =>
    simp only [exec, execCont]
    refine receiveFrame_withUnread _ _ _ _ ?_
    simp only [ha]
    split
    · exact congrArg Host.Outcome.next (raiseFail_withUnread ..)
    · split
      · split
        · exact congrArg Host.Outcome.next (deliver_withUnread { s with a := .created } ..)
        · rfl
      · rfl
  | text fin form key p =>
    simp only [exec, execText]
    exact receiveFrame_withUnread _ _ _ _ (congrArg Host.Outcome.next (startMessage_withUnread ..))
  | binary fin form key p =>
    simp only [exec, execBinary]
    exact receiveFrame_withUnread _ _ _ _ (congrArg Host.Outcome.next (startMessage_withUnread ..))
  | close key p =>
    simp only [exec, execClose]
    refine receiveFrame_withUnread _ _ _ _ ?_
    split
    · exact congrArg Host.Outcome.next (raiseFail_withUnread ..)
    · exact congrArg Host.Outcome.next (State.closeReceived_withUnread ..)
  | ping key p =>
    simp only [exec, execPing]
    refine receiveFrame_withUnread _ _ _ _ ?_
    rw [hopen]
    split <;> rfl
  | pong key p =>
    simp only [exec, execPong]
    refine receiveFrame_withUnread _ _ _ _ ?_
    rw [hopen]
    split <;> rfl
  | txCont fin p => exact transmitFrame_withUnread ..
  | txText fin p => exact transmitFrame_withUnread ..
  | txBinary fin p => exact transmitFrame_withUnread ..
  | txClose p =>
    show execTxClose p _ = mapNext _ (execTxClose p s)
    unfold execTxClose
    rw [hopen]
    split <;> rfl
  | txPing p => exact transmitFrame_withUnread ..
  | txPong p => exact transmitFrame_withUnread ..

end

theorem exec_leavesUnread (i : Instr) : LeavesUnread (exec i) where
  commutes s pos h sha := exec_withUnread s pos h sha i
  keeps s t h := by
    cases hi : i.received with
    | true =>
      rcases exec_received hi h with ⟨-, rfl⟩ | ⟨-, hr⟩
      · exact ⟨rfl, rfl, rfl, .inl rfl⟩
      · obtain ⟨-, hc, hh, hsha, -, -, hd⟩ := hr.frame
        exact ⟨by rw [hc], hh, hsha, hd.imp id And.left⟩
    | false =>
      rcases exec_transmitted hi h with rfl | ⟨-, -, -, rfl⟩ | ⟨-, p, -, rfl⟩ <;>
        exact ⟨rfl, rfl, rfl, .inl rfl⟩

/-! ### Operations that leave the registers alone -/

theorem LeavesUnread.waits : LeavesUnread Host.Outcome.next where
  commutes _ _ _ _ := rfl
  keeps _ _ h := by cases h; exact ⟨rfl, rfl, rfl, .inl rfl⟩

/-- A guard that does not look at the registers either. -/
theorem LeavesUnread.guarded {f : State → Outcome} {c : State → Bool} (hf : LeavesUnread f)
    (hc : ∀ s pos h sha, c (s.withUnread pos h sha) = c s) :
    LeavesUnread fun s => if c s then f s else .next s where
  commutes s pos h sha := by
    rw [hc]
    split
    · exact hf.commutes s pos h sha
    · rfl
  keeps s t h := by
    split at h
    · exact hf.keeps s t h
    · exact waits.keeps s t h

theorem execAll_leavesUnread (is : List Instr) : LeavesUnread (execAll is) := by
  induction is with
  | nil => exact .waits
  | cons i rest ih =>
    constructor
    · intro s pos h sha
      simp only [execAll, exec_withUnread]
      cases exec i s with
      | next u => exact ih.commutes u pos h sha
      | fault r => rfl
      | refused r => rfl
    · intro s t h
      simp only [execAll] at h
      split at h
      · rename_i u hu
        obtain ⟨hpos, hh, hsha, hd⟩ := (exec_leavesUnread i).keeps s u hu
        obtain ⟨hpos', hh', hsha', hd'⟩ := ih.keeps u t h
        refine ⟨hpos'.trans hpos, hh'.trans hh, hsha'.trans hsha, ?_⟩
        rcases hd' with hd' | hd'
        · rw [hd']; exact hd
        · exact .inr hd'
      · rename_i hnext
        exact absurd h (hnext t)

theorem rxEnd_leavesUnread : LeavesUnread rxEnd where
  commutes s pos h sha := by
    have hk : (s.withUnread pos h sha).k = s.k := rfl
    unfold rxEnd
    rw [hk]
    split <;> rfl
  keeps s t h := by
    unfold rxEnd at h
    split at h <;> cases h <;> exact ⟨rfl, rfl, rfl, .inl rfl⟩

theorem rxError_leavesUnread : LeavesUnread rxError where
  commutes s pos h sha := by
    have hk : (s.withUnread pos h sha).k = s.k := rfl
    unfold rxError
    rw [hk]
    split <;> rfl
  keeps s t h := by
    unfold rxError at h
    split at h <;> cases h <;> exact ⟨rfl, rfl, rfl, .inl rfl⟩

theorem timerExpire_leavesUnread : LeavesUnread timerExpire where
  commutes s pos h sha := by
    have hk : (s.withUnread pos h sha).k = s.k := rfl
    unfold timerExpire
    rw [hk]
    split
    case h_3 => split <;> rfl
    all_goals rfl
  keeps s t h := by
    unfold timerExpire at h
    split at h
    case h_3 => split at h <;> cases h <;> exact ⟨rfl, rfl, rfl, .inl rfl⟩
    all_goals cases h; exact ⟨rfl, rfl, rfl, .inl rfl⟩

theorem drivePause_leavesUnread (level : Bool) :
    LeavesUnread fun s => .next (drivePause level s) where
  commutes s pos h sha := by
    have hk : (s.withUnread pos h sha).k = s.k := rfl
    unfold drivePause
    rw [hk]
    split <;> rfl
  keeps s t h := by
    unfold drivePause at h
    split at h <;> cases h <;> exact ⟨rfl, rfl, rfl, .inl rfl⟩

theorem pauseResume_leavesUnread (level : Bool) : LeavesUnread (pauseResume level) where
  commutes s pos h sha := by
    have hk : (s.withUnread pos h sha).k = s.k := rfl
    unfold pauseResume
    rw [hk]
    split
    case h_2 => exact (drivePause_leavesUnread level).commutes s pos h sha
    case h_3 => exact (drivePause_leavesUnread level).commutes s pos h sha
    all_goals rfl
  keeps s t h := by
    unfold pauseResume at h
    split at h
    case h_2 => exact (drivePause_leavesUnread level).keeps s t h
    case h_3 => exact (drivePause_leavesUnread level).keeps s t h
    all_goals exact LeavesUnread.waits.keeps s t h

theorem sendMessage_leavesUnread (op : BitVec 4) (payload : Bytes) (frag : Option Nat) :
    LeavesUnread (sendMessage op payload frag) := by
  unfold sendMessage
  cases sendKind op with
  | none => exact .waits
  | some kind =>
    refine LeavesUnread.guarded ?_ fun _ _ _ _ => rfl
    cases frag with
    | none => exact exec_leavesUnread _
    | some f =>
      by_cases hf : f = 0
      · simpa only [hf, if_true] using LeavesUnread.waits
      · simpa only [hf, if_false] using execAll_leavesUnread _

theorem closeCommand_leavesUnread (code : U16) (reason : Bytes) :
    LeavesUnread (closeCommand code reason) :=
  LeavesUnread.guarded (exec_leavesUnread (.txClose (codeBytes code ++ reason))) fun _ _ _ _ => rfl

theorem txFrameInput_leavesUnread (bytes : Bytes) : LeavesUnread (txFrameInput bytes) := by
  unfold txFrameInput
  split
  · exact exec_leavesUnread _
  · exact .waits
  · exact .waits

end Sys2Proof.Machine
end

section
/-! SUPPORT. Two states that differ only in registers that decide nothing answer alike: the relation, kept by
every micro-step, the drain and every input event. -/

namespace Sys2Proof.Machine

/-! ### The relation -/

/-- The states agree on everything but the ghost position, the SHA-1 registers and the header registers that
are not live; under `sameHeader` they agree on the whole header, under `sameGhosts` on the other two. -/
structure SameButUnread (sameHeader sameGhosts : Prop) (s s' : State) : Prop where
  eq : s' = s.withUnread s'.c.pos s'.h s'.sha
  live : sameLive s.d.state s.h s'.h
  header : sameHeader → s'.h = s.h
  ghosts : sameGhosts → s'.c.pos = s.c.pos ∧ s'.sha = s.sha

theorem sameLive_refl (st : DecState) (h : Header) : sameLive st h h := by
  cases st <;> simp [sameLive]

theorem outcomesRelated_cases {r : State → State → Prop} {o o' : Outcome}
    (h : outcomesRelated r o o') :
    (∃ t t', o = .next t ∧ o' = .next t' ∧ r t t') ∨ (∃ f, o = .fault f ∧ o' = .fault f) ∨
    (∃ e, o = .refused e ∧ o' = .refused e) := by
  cases o <;> cases o'
  case next.next t t' => exact .inl ⟨t, t', rfl, rfl, h⟩
  case fault.fault f f' => exact .inr (.inl ⟨f, rfl, congrArg _ (Eq.symm h)⟩)
  case refused.refused e e' => exact .inr (.inr ⟨e, rfl, congrArg _ (Eq.symm h)⟩)
  all_goals exact False.elim h

theorem outcomesRelated_mapNext {r : State → State → Prop} {f : State → State} {o : Outcome}
    (h : ∀ t, o = .next t → r t (f t)) : outcomesRelated r o (mapNext f o) := by
  cases o with
  | next t => exact h t rfl
  | fault e => rfl
  | refused e => rfl

section

variable {sameHeader sameGhosts : Prop}

/-- An operation that leaves the registers alone keeps the relation: the decoder stays where it is, or fails
and has no live registers. -/
theorem LeavesUnread.related {f : State → Outcome} (hf : LeavesUnread f) {s s' : State}
    (h : SameButUnread sameHeader sameGhosts s s') :
    outcomesRelated (SameButUnread sameHeader sameGhosts) (f s) (f s') := by
  obtain ⟨heq, hlive, hheader, hghosts⟩ := h
  rw [heq, hf.commutes]
  refine outcomesRelated_mapNext fun t ht => ?_
  obtain ⟨hpos, hh, hsha, hd⟩ := hf.keeps s t ht
  refine ⟨rfl, ?_, fun hp => (hheader hp).trans hh.symm, fun hq => ?_⟩
  · show sameLive t.d.state t.h s'.h
    rcases hd with hd | hd
    · rw [hd, hh]; exact hlive
    · rw [hd]; trivial
  · exact ⟨(hghosts hq).1.trans hpos.symm, (hghosts hq).2.trans hsha.symm⟩

/-! ### Micro-steps -/

/-- The two micro-steps both suspend, or both run with related outcomes. -/
def microsRelated (r : State → State → Prop) : Micro → Micro → Prop
  | .suspended, .suspended => True
  | .ran o, .ran o' => outcomesRelated r o o'
  | _, _ => False

theorem microsRelated_cases {r : State → State → Prop} {m m' : Micro} (h : microsRelated r m m') :
    (m = .suspended ∧ m' = .suspended) ∨
    (∃ o o', m = .ran o ∧ m' = .ran o' ∧ outcomesRelated r o o') := by
  cases m <;> cases m'
  case suspended.suspended => exact .inl ⟨rfl, rfl⟩
  case ran.ran o o' => exact .inr ⟨o, o', rfl, rfl, h⟩
  all_goals exact False.elim h

/-- The ghost position decides nothing about the bytes consumed. -/
theorem Cursor.tryConsume_withPos (n pos : Nat) (c : Cursor) :
    Cursor.tryConsume n { c with pos := pos } =
      (c.tryConsume n).map fun r => (r.1, { r.2 with pos := pos + n }) := by
  unfold Cursor.tryConsume
  split <;> rfl

theorem Cursor.tryConsume_pos {n : Nat} {c c' : Cursor} {r : Bytes}
    (ht : c.tryConsume n = some (r, c')) : c'.pos = c.pos + n := by
  unfold Cursor.tryConsume at ht
  split at ht <;> cases ht
  rfl

/-- Take `n` bytes and go on with them, or suspend: the shape of a micro-step (41_decoder.md R150). -/
def consuming (n : Nat) (k : Bytes → State → Outcome) (s : State) : Micro :=
  match s.c.tryConsume n with
  | none => .suspended
  | some (bs, c) => .ran (k bs { s with c := c })

theorem consuming_related {n : Nat} {k : Bytes → State → Outcome} {s s' : State}
    (h : SameButUnread sameHeader sameGhosts s s')
    (hk : ∀ bs u u', u.d = s.d → SameButUnread sameHeader sameGhosts u u' →
      outcomesRelated (SameButUnread sameHeader sameGhosts) (k bs u) (k bs u')) :
    microsRelated (SameButUnread sameHeader sameGhosts) (consuming n k s) (consuming n k s') := by
  obtain ⟨heq, hlive, hheader, hghosts⟩ := h
  have hc' : s'.c.tryConsume n =
      (s.c.tryConsume n).map fun r => (r.1, { r.2 with pos := s'.c.pos + n }) := by
    rw [← Cursor.tryConsume_withPos, congrArg State.c heq]
    rfl
  unfold consuming
  rw [hc']
  cases hc : s.c.tryConsume n with
  | none => trivial
  | some r =>
    refine hk r.1 _ _ rfl ⟨?_, hlive, hheader, fun hq => ⟨?_, (hghosts hq).2⟩⟩
    · rw [heq]; rfl
    · show s'.c.pos + n = r.2.pos
      rw [Cursor.tryConsume_pos hc, (hghosts hq).1]

/-- Writing the header registers and the decoder's state keeps the relation when the live registers are
written alike. -/
theorem SameButUnread.setHeader {s s' : State} (h : SameButUnread sameHeader sameGhosts s s')
    {st : DecState} {h₁ h₂ : Header} (hlive : sameLive st h₁ h₂) (hheader : s'.h = s.h → h₂ = h₁) :
    SameButUnread sameHeader sameGhosts ({ s with h := h₁ }.setDec st)
      ({ s' with h := h₂ }.setDec st) where
  eq := by rw [h.eq]; rfl
  live := hlive
  header hp := hheader (h.header hp)
  ghosts := h.ghosts

/-- So does a failure, after which no header register is live. -/
theorem SameButUnread.fail {s s' : State} (h : SameButUnread sameHeader sameGhosts s s')
    (code : U16) (kind : Kind) {h₁ h₂ : Header} (hheader : s'.h = s.h → h₂ = h₁) :
    SameButUnread sameHeader sameGhosts (raiseFail code kind { s with h := h₁ })
      (raiseFail code kind { s' with h := h₂ }) := by
  simp only [raiseFail_eq]
  constructor
  · rw [h.eq]; rfl
  · trivial
  · exact fun hp => hheader (h.header hp)
  · exact h.ghosts

end

/-! ### What follows a fetch -/

/-- AWAITING_HEADER with its two bytes (41_decoder.md R151 to R156). -/
def headerFetched (bs : Bytes) (s : State) : Outcome :=
  let s := { s with h := s.h.load (baseHeader (bs.getD 0 0) (bs.getD 1 0)) }
  if (headerFault s.h.base).isSome then .next (protocolViolation s) else .next (afterHeader s)

/-- AWAITING_EXT_LEN16 with its two bytes (R157). -/
def extLen16Fetched (bs : Bytes) (s : State) : Outcome :=
  .next ({ s with h := { s.h with
    extLen := some (BitVec.ofNat 64 (be bs))
    effLen := BitVec.ofNat 63 (be bs) } }.setDec .awaitingMaskKey)

/-- AWAITING_EXT_LEN64 with its eight bytes (R158). -/
def extLen64Fetched (bs : Bytes) (s : State) : Outcome :=
  if be bs < 2 ^ Config.lenBits then extLen16Fetched bs s
  else .next (protocolViolation { s with h := { s.h with extLen := some (BitVec.ofNat 64 (be bs)) } })

/-- AWAITING_MASK_KEY with its four bytes (R159). -/
def maskKeyFetched (bs : Bytes) (s : State) : Outcome :=
  .next ({ s with h := { s.h with key := keyOf bs } }.setDec .awaitingPayload)

/-- AWAITING_PAYLOAD with the masked payload (R161 to R163). -/
def payloadFetched (w : Bytes) (s : State) : Outcome :=
  runFrame (unmask w s.h.key) (s.setDec .awaitingHeader)

theorem microHeader_eq (s : State) : microHeader s = consuming 2 headerFetched s := by
  unfold microHeader consuming headerFetched
  cases s.c.tryConsume 2 with
  | none => rfl
  | some r =>
    simp only
    split <;> simp_all

theorem microExtLen16_eq (s : State) : microExtLen16 s = consuming 2 extLen16Fetched s := rfl

theorem microExtLen64_eq (s : State) : microExtLen64 s = consuming 8 extLen64Fetched s := by
  unfold microExtLen64 consuming extLen64Fetched
  cases s.c.tryConsume 8 with
  | none => rfl
  | some r =>
    simp only
    split <;> rfl

theorem microMaskKey_eq (s : State) :
    microMaskKey s = consuming Config.keyBytes maskKeyFetched s := rfl

theorem microPayload_eq (s : State) :
    microPayload s =
      if s.tooLarge s.h.opcode s.h.effLen.toNat then .ran (.next (payloadTooLarge s))
      else consuming s.h.effLen.toNat payloadFetched s := rfl

section

variable {sameHeader sameGhosts : Prop}

theorem headerFetched_related (bs : Bytes) {u u' : State}
    (hu : SameButUnread sameHeader sameGhosts u u') :
    outcomesRelated (SameButUnread sameHeader sameGhosts) (headerFetched bs u)
      (headerFetched bs u') := by
  unfold headerFetched
  generalize baseHeader (bs.getD 0 0) (bs.getD 1 0) = b
  have hbase : (u'.h.load b).base = (u.h.load b).base := rfl
  simp only [hbase]
  split
  · exact hu.fail _ _ fun he => by rw [he]
  · simp only [afterHeader]
    have hlen : (u'.h.load b).rawLen7 = (u.h.load b).rawLen7 := rfl
    rw [hlen]
    split
    · exact hu.setHeader ⟨rfl, rfl, rfl, rfl⟩ fun he => by rw [he]
    · split
      · exact hu.setHeader ⟨rfl, rfl, rfl⟩ fun he => by rw [he]
      · exact hu.setHeader ⟨rfl, rfl, rfl⟩ fun he => by rw [he]

/-- Both extended-length states keep FIN, OPCODE and LEN7 live. -/
theorem extLenFetched_related (bs : Bytes) {u u' : State}
    (hlive : u.h.fin = u'.h.fin ∧ u.h.opcode = u'.h.opcode ∧ u.h.rawLen7 = u'.h.rawLen7)
    (hu : SameButUnread sameHeader sameGhosts u u') :
    outcomesRelated (SameButUnread sameHeader sameGhosts) (extLen16Fetched bs u)
      (extLen16Fetched bs u') := by
  obtain ⟨hfin, hop, hlen⟩ := hlive
  exact hu.setHeader ⟨hfin, hop, hlen, rfl⟩ fun he => by rw [he]

theorem extLen64Fetched_related (bs : Bytes) {u u' : State}
    (hlive : u.h.fin = u'.h.fin ∧ u.h.opcode = u'.h.opcode ∧ u.h.rawLen7 = u'.h.rawLen7)
    (hu : SameButUnread sameHeader sameGhosts u u') :
    outcomesRelated (SameButUnread sameHeader sameGhosts) (extLen64Fetched bs u)
      (extLen64Fetched bs u') := by
  unfold extLen64Fetched
  split
  · exact extLenFetched_related bs hlive hu
  · exact hu.fail _ _ fun he => by rw [he]

theorem payloadFetched_related (w : Bytes) {u u' : State} (hst : u.d.state = .awaitingPayload)
    (hu : SameButUnread sameHeader sameGhosts u u') :
    outcomesRelated (SameButUnread sameHeader sameGhosts) (payloadFetched w u)
      (payloadFetched w u') := by
  have hlive := hu.live
  rw [hst] at hlive
  obtain ⟨hfin, hop, hlen, -, hkey⟩ := hlive
  have hnext : SameButUnread sameHeader sameGhosts (u.setDec .awaitingHeader)
      (u'.setDec .awaitingHeader) := hu.setHeader trivial id
  simp only [payloadFetched, runFrame, State.setDec_h, ← hfin, ← hop, ← hlen, ← hkey]
  split
  · exact (exec_leavesUnread _).related hnext
  · rfl

theorem SameButUnread.decoder {s s' : State} (h : SameButUnread sameHeader sameGhosts s s') :
    s'.d = s.d := by
  rw [h.eq]
  rfl

theorem microPayload_related {s s' : State} (hst : s.d.state = .awaitingPayload)
    (h : SameButUnread sameHeader sameGhosts s s') :
    microsRelated (SameButUnread sameHeader sameGhosts) (microPayload s) (microPayload s') := by
  have hlive := h.live
  rw [hst] at hlive
  obtain ⟨-, hop, -, heff, -⟩ := hlive
  have hsize : s'.tooLarge s'.h.opcode s'.h.effLen.toNat = s.tooLarge s.h.opcode s.h.effLen.toNat := by
    rw [← hop, ← heff, h.eq]
    rfl
  rw [microPayload_eq, microPayload_eq, hsize, ← heff]
  split
  · exact h.fail 1009 .payloadTooLarge id
  · exact consuming_related h fun w u u' hd hu => payloadFetched_related w (by rw [hd, hst]) hu

theorem microStep_related {s s' : State} (h : SameButUnread sameHeader sameGhosts s s') :
    microsRelated (SameButUnread sameHeader sameGhosts) (microStep s) (microStep s') := by
  unfold microStep
  rw [h.decoder]
  cases hst : s.d.state
  case awaitingHeader =>
    simp only [microHeader_eq]
    exact consuming_related h fun bs u u' _ hu => headerFetched_related bs hu
  case awaitingExtLen16 =>
    simp only [microExtLen16_eq]
    refine consuming_related h fun bs u u' hd hu => extLenFetched_related bs ?_ hu
    have hlive := hu.live
    rwa [hd, hst] at hlive
  case awaitingExtLen64 =>
    simp only [microExtLen64_eq]
    refine consuming_related h fun bs u u' hd hu => extLen64Fetched_related bs ?_ hu
    have hlive := hu.live
    rwa [hd, hst] at hlive
  case awaitingMaskKey =>
    simp only [microMaskKey_eq]
    refine consuming_related h fun bs u u' hd hu => ?_
    have hlive := hu.live
    rw [hd, hst] at hlive
    obtain ⟨hfin, hop, hlen, heff⟩ := hlive
    exact hu.setHeader ⟨hfin, hop, hlen, heff, rfl⟩ fun he => by rw [he]
  case awaitingPayload => exact microPayload_related hst h
  case failed => trivial

/-! ### The drain and the inputs -/

theorem drainLoop_related (n : Nat) {s s' : State} (h : SameButUnread sameHeader sameGhosts s s') :
    outcomesRelated (SameButUnread sameHeader sameGhosts) (drainLoop n s) (drainLoop n s') := by
  induction n generalizing s s' with
  | zero => exact h
  | succ n ih =>
    have hdec : s'.decoding = s.decoding := by rw [h.eq]; rfl
    simp only [drainLoop, hdec]
    split
    · rcases microsRelated_cases (microStep_related h) with ⟨hm, hm'⟩ | ⟨o, o', hm, hm', ho⟩ <;>
        rw [hm, hm']
      · exact h
      · rcases outcomesRelated_cases ho with ⟨t, t', rfl, rfl, ht⟩ | ⟨f, rfl, rfl⟩ | ⟨e, rfl, rfl⟩
        · exact ih ht
        · rfl
        · rfl
    · exact h

theorem drain_related {s s' : State} (h : SameButUnread sameHeader sameGhosts s s') :
    outcomesRelated (SameButUnread sameHeader sameGhosts) (drain s) (drain s') := by
  have htotal : s'.c.total = s.c.total := by rw [h.eq]; rfl
  unfold drain
  rw [htotal]
  exact drainLoop_related _ h

end

/-- The registers that hold the chaining values agree. -/
def sameChain (r r' : Sha1Regs) : Prop :=
  r.h0 = r'.h0 ∧ r.h1 = r'.h1 ∧ r.h2 = r'.h2 ∧ r.h3 = r'.h3 ∧ r.h4 = r'.h4

/-- A block's compression loads every other register (45_handshake.md R275). -/
theorem sha1Block_eq {r r' : Sha1Regs} (h : sameChain r r') (block : Bytes) :
    sha1Block r block = sha1Block r' block := by
  obtain ⟨h0, h1, h2, h3, h4⟩ := h
  simp only [sha1Block, h0, h1, h2, h3, h4]

theorem sha1Blocks_pad_ne_nil (m : Bytes) :
    sha1Blocks (sha1Pad m).length (sha1Pad m) ≠ [] := by
  have hne : sha1Pad m ≠ [] := by simp [sha1Pad]
  obtain ⟨b, rest, hpad⟩ := List.exists_cons_of_ne_nil hne
  simp [hpad, sha1Blocks]

/-- The digest starts by loading the chaining values, and each block loads the rest, so nothing of the old
registers is left (45_handshake.md R272). -/
theorem sha1Run_eq (r r' : Sha1Regs) (m : Bytes) : sha1Run r m = sha1Run r' m := by
  obtain ⟨block, blocks, hb⟩ := List.exists_cons_of_ne_nil (sha1Blocks_pad_ne_nil m)
  simp only [sha1Run, hb, List.foldl_cons]
  rw [sha1Block_eq (r := sha1Load r) (r' := sha1Load r') ⟨rfl, rfl, rfl, rfl, rfl⟩]

section

variable {sameHeader sameGhosts : Prop}

theorem hsRequest_related (method : Bytes) (headers : Headers) {s s' : State}
    (h : SameButUnread sameHeader sameGhosts s s') :
    outcomesRelated (SameButUnread sameHeader sameGhosts) (hsRequest method headers s)
      (hsRequest method headers s') := by
  have hk : s'.k.state = s.k.state := by rw [h.eq]; rfl
  have hcfg : s'.cfg = s.cfg := by rw [h.eq]; rfl
  unfold hsRequest
  rw [hk, hcfg]
  split
  · rcases negotiate_cases s.cfg method headers with ⟨status, extra, hn⟩ | hn
    · simp only [hn]
      exact ⟨by rw [h.eq]; rfl, h.live, h.header, h.ghosts⟩
    · simp only [hn, sha1Run_eq s'.sha s.sha]
      exact ⟨by rw [h.eq]; rfl, sameLive_refl _ _, fun _ => rfl, fun _ => ⟨rfl, rfl⟩⟩
  all_goals exact h

theorem rxChunk_related (bytes : Bytes) {s s' : State}
    (h : SameButUnread sameHeader sameGhosts s s') :
    outcomesRelated (SameButUnread sameHeader sameGhosts) (rxChunk bytes s) (rxChunk bytes s') := by
  have hk : s'.k.state = s.k.state := by rw [h.eq]; rfl
  have happend : SameButUnread sameHeader sameGhosts { s with c := s.c.append bytes }
      { s' with c := s'.c.append bytes } := ⟨by rw [h.eq]; rfl, h.live, h.header, h.ghosts⟩
  unfold rxChunk
  rw [hk]
  split
  · exact h
  · exact drain_related happend
  · exact drain_related happend
  · exact h

theorem handleInput_related (input : Input) {s s' : State}
    (h : SameButUnread sameHeader sameGhosts s s') :
    outcomesRelated (SameButUnread sameHeader sameGhosts) (handleInput input s)
      (handleInput input s') := by
  cases input with
  | hsRequest method headers => exact hsRequest_related method headers h
  | rxChunk bytes => exact rxChunk_related bytes h
  | rxEnd => exact rxEnd_leavesUnread.related h
  | rxError => exact rxError_leavesUnread.related h
  | timerExpire => exact timerExpire_leavesUnread.related h
  | sendMessage op payload frag => exact (sendMessage_leavesUnread op payload frag).related h
  | sendPing payload => exact (exec_leavesUnread (.txPing payload)).related h
  | sendPong payload => exact (exec_leavesUnread (.txPong payload)).related h
  | close code reason => exact (closeCommand_leavesUnread code reason).related h
  | pause => exact (pauseResume_leavesUnread true).related h
  | resume => exact (pauseResume_leavesUnread false).related h
  | txFrame bytes => exact (txFrameInput_leavesUnread bytes).related h

theorem step_related {s s' : State} (h : SameButUnread sameHeader sameGhosts s s') :
    outcomesRelated (SameButUnread sameHeader sameGhosts) (step s) (step s') := by
  have hinputs : s'.inputs = s.inputs := by rw [h.eq]; rfl
  unfold step takeInput
  rw [hinputs]
  split
  · exact h
  · exact handleInput_related _ ⟨by rw [h.eq]; rfl, h.live, h.header, h.ghosts⟩

end

theorem outcomesRelated_mono {r r' : State → State → Prop} (hr : ∀ t t', r t t' → r' t t')
    {o o' : Outcome} (h : outcomesRelated r o o') : outcomesRelated r' o o' := by
  rcases outcomesRelated_cases h with ⟨t, t', rfl, rfl, ht⟩ | ⟨f, rfl, rfl⟩ | ⟨e, rfl, rfl⟩
  · exact hr t t' ht
  · rfl
  · rfl

/-- Settles O54: the relation with the ghost position and the SHA-1 registers alike. -/
theorem unwrittenHeaderRegistersDecideNothing : Obligations.UnwrittenHeaderRegistersDecideNothing := by
  intro s h' hlive
  have hstep : outcomesRelated (SameButUnread False True) (step s) (step { s with h := h' }) :=
    step_related ⟨rfl, hlive, False.elim, fun _ => ⟨rfl, rfl⟩⟩
  refine outcomesRelated_mono (fun t t' ht => ⟨?_, ht.live⟩) hstep
  obtain ⟨hpos, hsha⟩ := ht.ghosts trivial
  rw [ht.eq, hpos, hsha]
  rfl

/-- Settles O55: the relation with the header registers alike. -/
theorem ghostAndHandshakeRegistersDecideNothing :
    Obligations.GhostAndHandshakeRegistersDecideNothing := by
  intro s pos sha
  have hstep : outcomesRelated (SameButUnread True False) (step s)
      (step { s with c := { s.c with pos := pos }, sha := sha }) :=
    step_related ⟨rfl, sameLive_refl _ _, fun _ => rfl, False.elim⟩
  refine outcomesRelated_mono (fun t t' ht => ?_) hstep
  have hh := ht.header trivial
  rw [ht.eq, hh]
  rfl

end Sys2Proof.Machine
end

section
/-! SUPPORT. What the frames leave unchanged (20_memory.md R62, R70, 42_dispatch.md R180), in one piece for
each direction. -/

namespace Sys2Proof.Machine

/-- A guarded frame leaves the accumulator alone when its dispatch does. -/
theorem receiveFrame_accumulator {op : BitVec 4} {p : Bytes} {s t : State}
    {dispatch : State → Outcome} (h : receiveFrame op p s dispatch = .next t)
    (hd : dispatch s = .next t → t.a = s.a) : t.a = s.a := by
  rcases receiveFrame_cases op p s dispatch with ⟨-, hr⟩ | ⟨-, -, hr⟩ | ⟨-, -, hr⟩ <;> rw [hr] at h
  · cases h; rfl
  · cases h; rw [payloadTooLarge, raiseFail_eq]
  · exact hd h

/-- Only data frames write the accumulator (10_state.md R34). -/
theorem exec_control_accumulator {i : Instr} {s t : State} (hi : i.received = true)
    (hc : controlOpcode i.opcode = true) (h : exec i s = .next t) : t.a = s.a := by
  cases i with
  | cont _ _ _ _ => cases hc
  | text _ _ _ _ => cases hc
  | binary _ _ _ _ => cases hc
  | close key p =>
    simp only [exec, execClose] at h
    refine receiveFrame_accumulator h fun hd => ?_
    split at hd <;> cases hd
    · rw [protocolViolation, raiseFail_eq]
    · rw [State.closeReceived_eq]
  | ping key p =>
    simp only [exec, execPing] at h
    refine receiveFrame_accumulator h fun hd => ?_
    split at hd <;> cases hd <;> rfl
  | pong key p =>
    simp only [exec, execPong] at h
    refine receiveFrame_accumulator h fun hd => ?_
    split at hd <;> cases hd <;> rfl
  | txCont _ _ => cases hi
  | txText _ _ => cases hi
  | txBinary _ _ => cases hi
  | txClose _ => cases hi
  | txPing _ => cases hi
  | txPong _ => cases hi

/-- Settles O35: what a received frame leaves unchanged, that it extends the trace, and that control frames
leave the accumulator alone. -/
theorem receivedFramesLeaveTheRestUnchanged : Obligations.ReceivedFramesLeaveTheRestUnchanged := by
  intro i s t hi h
  have hout := (exec_extendedBy h).out
  have ha := fun hc => exec_control_accumulator hi hc h
  rcases exec_received hi h with ⟨-, rfl⟩ | ⟨-, hr⟩
  · exact ⟨rfl, rfl, rfl, rfl, rfl, rfl, hout, .inl rfl, ha⟩
  · obtain ⟨hcfg, hc, hh, hsha, hinputs, hpaused, hd⟩ := hr.frame
    exact ⟨hcfg, hc, hh, hsha, hinputs, hpaused, hout, hd, ha⟩

/-- Settles O36: the three outcomes of a transmitted frame, of which only the local close writes `K`. -/
theorem transmittedFramesLeaveTheRestUnchanged :
    Obligations.TransmittedFramesLeaveTheRestUnchanged := by
  intro i s t hi h
  rcases exec_transmitted hi h with rfl | ⟨-, -, -, rfl⟩ | ⟨-, p, rfl, rfl⟩
  · exact ⟨rfl, .inl rfl, fun _ => rfl, rfl, rfl⟩
  · exact ⟨rfl, .inr rfl, fun _ => rfl, rfl, rfl⟩
  · rw [State.localClose_eq]
    exact ⟨rfl, .inr rfl, fun h8 => absurd rfl h8, rfl, rfl⟩

end Sys2Proof.Machine
end

section
/-! SUPPORT. The mode order (10_state.md R36): frames and micro-steps only advance `K.state`, and leave
CONNECTING alone; of the inputs only HS_REQUEST, RX_END and RX_ERROR leave CONNECTING. -/

namespace Sys2Proof.Machine

/-- `K.state` does not go back, and what begins in CONNECTING ends there. -/
structure ConnState.Advances (a b : ConnState) : Prop where
  rank : a.rank ≤ b.rank
  connecting : a = .connecting → b = .connecting

theorem ConnState.Advances.refl (a : ConnState) : a.Advances a := ⟨le_rfl, id⟩

theorem ConnState.Advances.trans {a b c : ConnState} (h : a.Advances b) (h' : b.Advances c) :
    a.Advances c :=
  ⟨h.rank.trans h'.rank, fun ha => h'.connecting (h.connecting ha)⟩

theorem ConnState.rank_le_closed (a : ConnState) : a.rank ≤ ConnState.closed.rank := by
  cases a <;> decide

/-- From OPEN and CLOSING the way to CLOSED is open (R36). -/
theorem ConnState.advances_closed {a : ConnState} (h : a ≠ .connecting) : a.Advances .closed :=
  ⟨a.rank_le_closed, fun ha => absurd ha h⟩

theorem ConnState.opened_advances_closing : ConnState.Advances .opened .closing :=
  ⟨by decide, nofun⟩

theorem ConnState.Advances.legal {a b : ConnState} (h : a.Advances b) :
    legalTransition a b = true := by
  obtain ⟨hrank, hconn⟩ := h
  cases a <;> cases b <;> simp_all [ConnState.rank, legalTransition]

theorem raiseFail_connState (code : U16) (kind : Kind) (s : State) :
    (raiseFail code kind s).k.state = .closed := by
  rw [raiseFail_eq]

theorem exec_received_advances {i : Instr} {s t : State} (hi : i.received = true)
    (h : exec i s = .next t) : s.k.state.Advances t.k.state := by
  rcases exec_received hi h with ⟨-, rfl⟩ | ⟨hd, hr⟩
  · exact .refl _
  have hne := State.decoding_ne_connecting hd
  cases hr with
  | failed a' code kind _ _ =>
    rw [raiseFail_connState]
    exact ConnState.advances_closed hne
  | runs a' outs _ _ _ => exact .refl _
  | closes code reason =>
    rw [State.closeReceived_eq]
    exact ConnState.advances_closed hne

theorem exec_transmitted_advances {i : Instr} {s t : State} (hi : i.received = false)
    (h : exec i s = .next t) : s.k.state.Advances t.k.state := by
  rcases exec_transmitted hi h with rfl | ⟨-, -, -, rfl⟩ | ⟨hk, p, -, rfl⟩
  · exact .refl _
  · exact .refl _
  · rw [hk, State.localClose_eq]
    exact ConnState.opened_advances_closing

theorem microStep_advances {s t : State} (hd : s.decoding = true)
    (h : microStep s = .ran (.next t)) : s.k.state.Advances t.k.state := by
  cases microStep_outcome h with
  | advances c' h' st _ _ _ => exact .refl _
  | fails c' h' code kind _ _ =>
    rw [raiseFail_connState]
    exact ConnState.advances_closed (State.decoding_ne_connecting hd)
  | runs c' i t _ hi hexec => exact (exec_received_advances hi hexec :)

theorem drain_advances {s t : State} (h : drain s = .next t) : s.k.state.Advances t.k.state :=
  drain_keeps (P := fun u => s.k.state.Advances u.k.state)
    (fun _ _ hd hu hstep => hu.trans (microStep_advances hd hstep)) h (.refl _)

theorem execAll_advances {is : List Instr} {s t : State} (hi : ∀ i ∈ is, i.received = false)
    (h : execAll is s = .next t) : s.k.state.Advances t.k.state :=
  execAll_keeps (P := fun u => s.k.state.Advances u.k.state)
    (fun _ _ _ hi hu hexec => hu.trans (exec_transmitted_advances hi hexec)) hi h (.refl _)

theorem legalTransition_closed (a : ConnState) : legalTransition a .closed = true := by
  cases a <;> rfl

theorem InputOutcome.transition {s t : State} (h : InputOutcome s t) :
    s.k.state.rank ≤ t.k.state.rank ∧ legalTransition s.k.state t.k.state = true := by
  have stays : ∀ a : ConnState, a.rank ≤ a.rank ∧ legalTransition a a = true :=
    fun a => ⟨le_rfl, (ConnState.Advances.refl a).legal⟩
  cases h with
  | waits => exact stays _
  | accepts sha' response hk _ _ =>
    rw [hk]
    exact ⟨by simp [ConnState.rank], rfl⟩
  | rejects response _ _ => exact ⟨ConnState.rank_le_closed _, legalTransition_closed _⟩
  | ends outs _ _ => exact ⟨ConnState.rank_le_closed _, legalTransition_closed _⟩
  | pauses level _ => exact stays _
  | transmits is t hi h =>
    have hadv := execAll_advances hi h
    exact ⟨hadv.rank, hadv.legal⟩
  | receives bytes t _ h =>
    have hadv := drain_advances h
    exact ⟨hadv.rank, hadv.legal⟩

/-- Settles O44: each outcome of an input event is one of the transitions R36 lists, or none. -/
theorem connectionStateNeverRegresses : Obligations.ConnectionStateNeverRegresses := by
  intro s t h
  rcases step_cases s with ⟨-, hstep⟩ | ⟨input, rest, -, hstep⟩ <;> rw [hstep] at h
  · cases h; exact InputOutcome.waits.transition
  · exact (handleInput_outcome h).transition

end Sys2Proof.Machine
end

section
/-! SUPPORT. A step of a system changes one connection by a function of that connection alone
(10_state.md R52). -/

namespace Sys2Proof.Machine

/-- The connection after its step, or as it is when it stops. -/
def stepOrStay (s : State) : State :=
  match step s with
  | .next t => t
  | .fault _ => s
  | .refused _ => s

theorem systemStep_eq_modify (n : Nat) (sys : List State) :
    systemStep n sys = sys.modify n stepOrStay := by
  rw [List.modify_eq_set_getElem?, systemStep]
  cases hs : sys[n]? with
  | none => rfl
  | some s =>
    obtain ⟨hn, rfl⟩ := List.getElem?_eq_some_iff.1 hs
    show _ = sys.set n (stepOrStay sys[n])
    dsimp only [stepOrStay]
    cases step sys[n] with
    | next t => rfl
    | fault r => exact (List.set_getElem_self hn).symm
    | refused r => exact (List.set_getElem_self hn).symm

/-- Settles O56: modifications at different places commute, reach no other place, and read only their own. -/
theorem connectionsAreIndependent : Obligations.ConnectionsAreIndependent := by
  intro sys m n hmn
  simp only [systemStep_eq_modify]
  refine ⟨List.modify_modify_ne _ _ sys hmn.symm, List.getElem?_modify_ne _ sys hmn, ?_⟩
  intro sys' h
  rw [List.getElem?_modify_eq, List.getElem?_modify_eq, h]

end Sys2Proof.Machine
end

section
/-! SUPPORT. The ByteCursor through `C.bytes` alone (20_memory.md R66): reads in parts are one read, and on
canonical queues every operation is a function of the buffered bytes. -/

namespace Sys2Proof.Machine

/-! ### Reading in parts -/

/-- Taking `n + m` bytes is taking `n`, then `m` from what is left: the same bytes, chunks and offset. -/
theorem takeFromChunks_add (chunks : List Bytes) (off n m : Nat) :
    takeFromChunks off (n + m) chunks =
      let first := takeFromChunks off n chunks
      let second := takeFromChunks first.2.2 m first.2.1
      (first.1 ++ second.1, second.2) := by
  induction chunks generalizing off n with
  | nil => rfl
  | cons chunk rest ih =>
    by_cases hn : n < chunk.length - off
    · -- The first read ends inside the front chunk.
      by_cases hm : n + m < chunk.length - off
      · have hm' : m < chunk.length - (off + n) := by omega
        simp [takeFromChunks, hn, hm, hm', List.take_add, Nat.add_assoc]
      · have hm' : ¬ m < chunk.length - (off + n) := by omega
        have hleft : n + m - (chunk.length - off) = m - (chunk.length - (off + n)) := by omega
        have hfront : (chunk.drop off).take n ++ chunk.drop (off + n) = chunk.drop off := by
          rw [← List.drop_drop, List.take_append_drop]
        simp only [takeFromChunks, if_pos hn, if_neg hm, if_neg hm', hleft, ← List.append_assoc,
          hfront]
    · -- The first read empties the front chunk.
      have hm : ¬ n + m < chunk.length - off := by omega
      have hleft : n + m - (chunk.length - off) = n - (chunk.length - off) + m := by omega
      simp only [takeFromChunks, if_neg hn, if_neg hm, hleft, ih, List.append_assoc]

/-- Two reads in a row give the bytes of one read and leave the same cursor. -/
theorem Cursor.tryConsume_add {n m : Nat} {c c₁ c₂ : Cursor} {r₁ r₂ : Bytes}
    (h₁ : c.tryConsume n = some (r₁, c₁)) (h₂ : c₁.tryConsume m = some (r₂, c₂)) :
    c.tryConsume (n + m) = some (r₁ ++ r₂, c₂) := by
  unfold Cursor.tryConsume at h₁
  split at h₁ <;> cases h₁
  unfold Cursor.tryConsume at h₂
  split at h₂ <;> cases h₂
  have hle : n + m ≤ c.total := by simp only at *; omega
  simp [Cursor.tryConsume, hle, takeFromChunks_add, Nat.sub_sub, Nat.add_assoc]

/-! ### Cursors with the same buffered bytes -/

theorem Cursor.total_congr {c c' : Cursor} (hc : c.wf = true) (hc' : c'.wf = true)
    (hb : c.bytes = c'.bytes) : c.total = c'.total := by
  rw [Cursor.wf_total hc, Cursor.wf_total hc', hb]

/-- What `tryConsume` answers is read from the buffered bytes. -/
theorem Cursor.tryConsume_fst_congr {c c' : Cursor} (hc : c.wf = true) (hc' : c'.wf = true)
    (hb : c.bytes = c'.bytes) (n : Nat) :
    (c.tryConsume n).map Prod.fst = (c'.tryConsume n).map Prod.fst := by
  have ht := Cursor.total_congr hc hc' hb
  by_cases hn : n ≤ c.total
  · obtain ⟨d, hd, -⟩ := Cursor.tryConsume_of_le hc hn
    obtain ⟨d', hd', -⟩ := Cursor.tryConsume_of_le hc' (ht ▸ hn)
    rw [hd, hd', hb, Option.map_some, Option.map_some]
  · have hnone := (Cursor.tryConsume_none_iff n c).2 (by omega)
    have hnone' := (Cursor.tryConsume_none_iff n c').2 (by omega)
    rw [hnone, hnone']

/-- The bytes a read leaves are read from the buffered bytes. -/
theorem Cursor.tryConsume_bytes_congr {c c' d d' : Cursor} {n : Nat} {r r' : Bytes}
    (hc : c.wf = true) (hc' : c'.wf = true) (hb : c.bytes = c'.bytes)
    (h : c.tryConsume n = some (r, d)) (h' : c'.tryConsume n = some (r', d')) :
    d.bytes = d'.bytes := by
  obtain ⟨hsplit, hlen, -⟩ := Cursor.tryConsume_some hc h
  obtain ⟨hsplit', hlen', -⟩ := Cursor.tryConsume_some hc' h'
  have hsame : r ++ d.bytes = r' ++ d'.bytes := by rw [← hsplit, hb, hsplit']
  exact (List.append_inj hsame (hlen.trans hlen'.symm)).2

/-- A peek of any width is read from the buffered bytes. -/
theorem Cursor.peek_congr {c c' : Cursor} (hc : c.wf = true) (hc' : c'.wf = true)
    (hb : c.bytes = c'.bytes) (width offset : Nat) :
    c.peek width offset = c'.peek width offset := by
  unfold Cursor.peek
  rw [Cursor.total_congr hc hc' hb, hb]

/-- Settles O11: the two-read law of `takeFromChunks`, and each operation's congruence in `C.bytes`. -/
theorem readsDoNotSeeChunkBoundaries : Obligations.ReadsDoNotSeeChunkBoundaries := by
  refine ⟨fun c n m hc hle => ?_, fun c c' hc hc' hb => ⟨?_, ?_, ?_, ?_, ?_⟩⟩
  · obtain ⟨c₁, h₁, -, hwf₁, htotal₁, -⟩ := Cursor.tryConsume_of_le (n := n) hc (by omega)
    obtain ⟨c₂, h₂, -⟩ := Cursor.tryConsume_of_le (n := m) hwf₁ (by omega)
    exact ⟨_, c₁, _, c₂, h₁, h₂, Cursor.tryConsume_add h₁ h₂⟩
  · exact Cursor.tryConsume_fst_congr hc hc' hb
  · exact fun n r r' d d' => Cursor.tryConsume_bytes_congr hc hc' hb
  · exact Cursor.total_congr hc hc' hb
  · intro chunk
    rw [(Cursor.append_spec chunk hc).2.1, (Cursor.append_spec chunk hc').2.1, hb]
  · have hpeek := Cursor.peek_congr hc hc' hb
    exact fun o => ⟨hpeek 1 o, hpeek 2 o, hpeek 4 o, hpeek 8 o⟩

end Sys2Proof.Machine
end

section
/-! SUPPORT. The drain runs to exhaustion (20_memory.md R73): it needs of the state only that a failed decoder
stands in CLOSED, which every micro-step keeps, not the whole invariant. -/

namespace Sys2Proof.Machine

/-- The decoder has failed only in CLOSED (60_exceptions.md R310). -/
def State.FailedOnlyClosed (s : State) : Prop := s.d.state = .failed → s.k.state = .closed

theorem State.failedOnlyClosed_of_running {s : State} (hrun : s.d.state ≠ .failed) :
    s.FailedOnlyClosed :=
  fun hfailed => absurd hfailed hrun

theorem exec_received_failedOnlyClosed {i : Instr} {s t : State} (hi : i.received = true)
    (hrun : s.d.state ≠ .failed) (h : exec i s = .next t) : t.FailedOnlyClosed := by
  rcases exec_received hi h with ⟨-, rfl⟩ | ⟨-, hr⟩
  · exact State.failedOnlyClosed_of_running hrun
  · obtain ⟨-, -, -, -, -, -, hsame | ⟨-, hclosed⟩⟩ := hr.frame
    · exact State.failedOnlyClosed_of_running (by rwa [hsame])
    · exact fun _ => hclosed

theorem microStep_failedOnlyClosed {s t : State} (h : microStep s = .ran (.next t)) :
    t.FailedOnlyClosed := by
  cases microStep_outcome h with
  | advances c' h' st _ hst _ => exact State.failedOnlyClosed_of_running hst
  | fails c' h' code kind _ _ => exact fun _ => raiseFail_connState code kind _
  | runs c' i t _ hi hexec => exact exec_received_failedOnlyClosed hi (by simp) hexec

theorem drain_failedOnlyClosed {s t : State} (hs : s.FailedOnlyClosed) (h : drain s = .next t) :
    t.FailedOnlyClosed :=
  drain_keeps (fun _ _ _ _ hstep => microStep_failedOnlyClosed hstep) h hs

theorem ConnState.Advances.ne_connecting {a b : ConnState} (h : a.Advances b)
    (ha : a ≠ .connecting) : b ≠ .connecting := by
  rintro rfl
  have hrank := h.rank
  cases a <;> simp_all [ConnState.rank]

/-- A decoder that has not failed and does not run stands in CONNECTING or CLOSED. -/
theorem State.idle_of_not_decoding {s : State} (h : s.decoding = false) (hrun : s.d.state ≠ .failed) :
    s.k.state = .connecting ∨ s.k.state = .closed := by
  have hnot : ¬ s.decoding = true := by simp [h]
  rw [State.decoding_iff] at hnot
  cases hk : s.k.state <;> simp_all

/-- The drain ends in CLOSED, or with a running decoder that lacks bytes. -/
theorem drain_closed_or_lacksBytes {s t : State} (hk : s.k.state ≠ .connecting)
    (hs : s.FailedOnlyClosed) (h : drain s = .next t) :
    t.k.state = .closed ∨ (t.d.state ≠ .failed ∧ t.c.total < t.needed) := by
  by_cases hfailed : t.d.state = .failed
  · exact .inl (drain_failedOnlyClosed hs h hfailed)
  rcases drain_exhausts h with hidle | hsusp
  · have hopened := (drain_advances h).ne_connecting hk
    exact .inl ((State.idle_of_not_decoding hidle hfailed).resolve_left hopened)
  · exact .inr ⟨hfailed, (microStep_suspended hfailed hsusp).1⟩

theorem rxChunk_eq_drain {s : State} (hk : s.k.state = .opened ∨ s.k.state = .closing)
    (bytes : Bytes) : rxChunk bytes s = drain { s with c := s.c.append bytes } := by
  rcases hk with hk | hk <;> simp [rxChunk, hk]

/-- Settles O19: in OPEN and CLOSING the step is the drain of the appended chunk. -/
theorem decoderRunsToExhaustion : Obligations.DecoderRunsToExhaustion := by
  intro s t chunk rest hk hrun hinputs h
  have hstep : step s = rxChunk chunk { s with inputs := rest } := by
    simp [step, takeInput, hinputs, handleInput]
  rw [hstep, rxChunk_eq_drain (s := { s with inputs := rest }) hk] at h
  refine drain_closed_or_lacksBytes ?_ ?_ h
  · exact (ConnState.running hk).1
  · exact State.failedOnlyClosed_of_running hrun

end Sys2Proof.Machine
end

section
/-! SUPPORT. The wire format read backwards (30_encoding.md R91 to R96, R106): for each part of a frame exactly
the bytes from which it is read; so a frame, received or transmitted, decodes exactly from its encoding. -/

namespace Sys2Proof

/-! ### Masking -/

@[simp] theorem unmask_length (w : Bytes) (key : Key) : (unmask w key).length = w.length :=
  unmaskFrom_length key 0 w

theorem unmaskFrom_unmaskFrom (key : Key) (n : Nat) (w : Bytes) :
    unmaskFrom key n (unmaskFrom key n w) = w := by
  induction w generalizing n with
  | nil => rfl
  | cons b w ih => simp [unmaskFrom, ih]

/-- Masking is its own inverse (R96). -/
@[simp] theorem unmask_unmask (w : Bytes) (key : Key) : unmask (unmask w key) key = w :=
  unmaskFrom_unmaskFrom key 0 w

/-! ### The base header in numbers (R91) -/

theorem baseHeader_fin (b0 b1 : Byte) : (baseHeader b0 b1).fin = decide (128 ≤ b0.toNat) :=
  BitVec.msb_eq_decide b0

theorem baseHeader_rsv (b0 b1 : Byte) : (baseHeader b0 b1).rsv.toNat = b0.toNat / 16 % 8 := by
  simp [baseHeader, Nat.shiftRight_eq_div_pow]

theorem baseHeader_opcode (b0 b1 : Byte) : (baseHeader b0 b1).opcode.toNat = b0.toNat % 16 := by
  simp [baseHeader]

theorem baseHeader_masked (b0 b1 : Byte) : (baseHeader b0 b1).masked = decide (128 ≤ b1.toNat) :=
  BitVec.msb_eq_decide b1

theorem baseHeader_rawLen7 (b0 b1 : Byte) : (baseHeader b0 b1).rawLen7.toNat = b1.toNat % 128 := by
  simp [baseHeader]

theorem headerByte0_toNat (fin : Bool) (op : BitVec 4) :
    (headerByte0 fin op).toNat = fin.toNat * 128 + op.toNat := by
  have := fin.toNat_le
  rw [headerByte0, BitVec.toNat_ofNat, Nat.mod_eq_of_lt (by omega)]

theorem headerByte1_toNat (m : Bool) {k : Nat} (hk : k < 128) :
    (headerByte1 m k).toNat = m.toNat * 128 + k := by
  have := m.toNat_le
  rw [headerByte1, BitVec.toNat_ofNat, Nat.mod_eq_of_lt (by omega)]

/-- The first byte holds FIN and the opcode, and nothing else where RSV is 0. -/
theorem eq_headerByte0_iff (b0 b1 : Byte) (fin : Bool) (op : BitVec 4) :
    b0 = headerByte0 fin op ↔
      (baseHeader b0 b1).rsv = 0 ∧ (baseHeader b0 b1).fin = fin ∧ (baseHeader b0 b1).opcode = op := by
  rw [← BitVec.toNat_inj, ← BitVec.toNat_inj, ← BitVec.toNat_inj, headerByte0_toNat, baseHeader_rsv,
    baseHeader_fin, baseHeader_opcode]
  cases fin <;> simp <;> omega

/-- The second byte holds MASK and LEN7. -/
theorem eq_headerByte1_iff (b0 b1 : Byte) (m : Bool) {k : Nat} (hk : k < 128) :
    b1 = headerByte1 m k ↔ (baseHeader b0 b1).masked = m ∧ (baseHeader b0 b1).rawLen7.toNat = k := by
  rw [← BitVec.toNat_inj, headerByte1_toNat m hk, baseHeader_masked, baseHeader_rawLen7]
  cases m <;> simp <;> omega

/-! ### The header checks -/

/-- A base header that passes the checks of the direction with MASK = `m`: R100, R97, R101 or R106, R102. -/
structure BaseHeader.Legal (h : BaseHeader) (m : Bool) : Prop where
  rsv : h.rsv = 0
  opcode : legalOpcode h.opcode = true
  masked : h.masked = m
  control : controlOpcode h.opcode = true → h.fin = true ∧ h.rawLen7.toNat ≤ 125

theorem fieldFault_eq_none_iff (h : BaseHeader) :
    fieldFault h = none ↔ h.rsv = 0 ∧ legalOpcode h.opcode = true := by
  unfold fieldFault
  split
  · simp_all
  · split <;> simp_all

theorem controlFault_eq_none_iff (h : BaseHeader) :
    controlFault h = none ↔
      (controlOpcode h.opcode = true → h.fin = true ∧ h.rawLen7.toNat ≤ 125) := by
  unfold controlFault Config.controlMax
  split
  · split
    · simp_all
    · split <;> simp_all
  · simp_all

/-- The two directions differ in the MASK bit alone. -/
theorem BaseHeader.legal_iff (h : BaseHeader) (m : Bool) :
    h.Legal m ↔ fieldFault h = none ∧ h.masked = m ∧ controlFault h = none := by
  rw [fieldFault_eq_none_iff, controlFault_eq_none_iff]
  exact ⟨fun ⟨hrsv, hop, hm, hc⟩ => ⟨⟨hrsv, hop⟩, hm, hc⟩,
    fun ⟨⟨hrsv, hop⟩, hm, hc⟩ => ⟨hrsv, hop, hm, hc⟩⟩

theorem headerFault_eq_none_iff (h : BaseHeader) : headerFault h = none ↔ h.Legal true := by
  rw [BaseHeader.legal_iff, headerFault]
  cases hf : fieldFault h with
  | some e => simp
  | none => cases hm : h.masked <;> simp [Config.requireMask]

theorem txHeaderFault_eq_none_iff (h : BaseHeader) : txHeaderFault h = none ↔ h.Legal false := by
  rw [BaseHeader.legal_iff, txHeaderFault]
  cases hf : fieldFault h with
  | some e => simp
  | none => cases hm : h.masked <;> simp

/-! ### Fields of known length -/

theorem takeExact_eq_some_iff {n : Nat} {bs w rest : Bytes} :
    takeExact n bs = some (w, rest) ↔ w.length = n ∧ bs = w ++ rest := by
  simp only [takeExact, Option.ite_none_right_eq_some, Option.some.injEq, Prod.mk.injEq]
  constructor
  · rintro ⟨hn, rfl, rfl⟩
    simp [hn]
  · rintro ⟨rfl, rfl⟩
    simp

theorem readKey_eq_some_iff {bs rest : Bytes} {key : Key} :
    readKey bs = some (key, rest) ↔ bs = key.bytes ++ rest := by
  constructor
  · intro h
    unfold readKey at h
    split at h <;> cases h
    rfl
  · rintro rfl
    rfl

/-- A number in `n` bytes is read from its own big-endian bytes only. -/
theorem takeExact_be_iff {n v : Nat} {bs rest : Bytes} :
    (∃ e, takeExact n bs = some (e, rest) ∧ be e = v) ↔ v < 256 ^ n ∧ bs = toBe n v ++ rest := by
  simp only [takeExact_eq_some_iff]
  constructor
  · rintro ⟨e, ⟨rfl, rfl⟩, rfl⟩
    exact ⟨be_lt e, by rw [toBe_be]⟩
  · rintro ⟨hv, rfl⟩
    exact ⟨toBe n v, ⟨toBe_length n v, rfl⟩, by rw [be_toBe, Nat.mod_eq_of_lt hv]⟩

/-- A length is read from exactly one LEN7 value and one string of extension bytes in each form (R94). -/
theorem readLength_eq_ok_iff {len7 : BitVec 7} {bs rest : Bytes} {form : LenForm} {n : Nat} :
    readLength len7 bs = .ok (form, n, rest) ↔
      form.fits n = true ∧ len7.toNat = form.field n ∧ bs = form.ext n ++ rest := by
  constructor
  · intro h
    unfold readLength at h
    split at h
    · cases h
      simp_all [LenForm.fits, LenForm.field, LenForm.ext]
    split at h
    · split at h <;> cases h
      obtain ⟨hlt, hbs⟩ := takeExact_be_iff.1 ⟨_, ‹takeExact 2 bs = _›, rfl⟩
      simp_all [LenForm.fits, LenForm.field, LenForm.ext]
    · split at h
      · split at h <;> cases h
        obtain ⟨-, hbs⟩ := takeExact_be_iff.1 ⟨_, ‹takeExact 8 bs = _›, rfl⟩
        have : len7.toNat = 127 := by omega
        simp_all [LenForm.fits, LenForm.field, LenForm.ext]
      · cases h
  · rintro ⟨hfits, hfield, rfl⟩
    cases form with
    | len7 => simp_all [readLength, LenForm.fits, LenForm.field, LenForm.ext]
    | len16 =>
      have hn : n < 2 ^ 16 := by simpa [LenForm.fits] using hfits
      obtain ⟨e, he, rfl⟩ := (takeExact_be_iff (n := 2) (rest := rest)).2 ⟨hn, rfl⟩
      simp_all [readLength, LenForm.field, LenForm.ext]
    | len64 =>
      have hn : n < 2 ^ Config.lenBits := by simpa [LenForm.fits] using hfits
      obtain ⟨e, he, rfl⟩ := (takeExact_be_iff (n := 8) (rest := rest)).2 ⟨hn.trans (by decide), rfl⟩
      simp_all [readLength, LenForm.field, LenForm.ext]

/-! ### The head of a frame, for both values of MASK -/

/-- The bytes of a frame before its key and payload (R92, R106). -/
def frameHead (m fin : Bool) (op : BitVec 4) (form : LenForm) (n : Nat) : Bytes :=
  headerByte0 fin op :: headerByte1 m (form.field n) :: form.ext n

/-- What the wire format asks of the fields of a frame: a legal opcode, a length that fits its form, and of a
control frame FIN = 1 and the 7-bit form (R97, R102, R103). -/
structure LegalFields (fin : Bool) (op : BitVec 4) (form : LenForm) (n : Nat) : Prop where
  opcode : legalOpcode op = true
  fits : form.fits n = true
  control : controlOpcode op = true → fin = true ∧ form = .len7

theorem LenForm.field_lt {form : LenForm} {n : Nat} (h : form.fits n = true) : form.field n < 128 := by
  cases form <;> simp_all [LenForm.fits, LenForm.field]
  omega

theorem LenForm.field_le_iff {form : LenForm} {n : Nat} (h : form.fits n = true) :
    form.field n ≤ 125 ↔ form = .len7 := by
  cases form <;> simp_all [LenForm.fits, LenForm.field]

/-- A header that passes the checks, with its length, is read from exactly the head with those fields. -/
theorem frameHead_read_iff {b0 b1 : Byte} {bs rest : Bytes} {m fin : Bool} {op : BitVec 4}
    {form : LenForm} {n : Nat} :
    ((baseHeader b0 b1).Legal m ∧ (baseHeader b0 b1).fin = fin ∧ (baseHeader b0 b1).opcode = op ∧
        readLength (baseHeader b0 b1).rawLen7 bs = .ok (form, n, rest)) ↔
      LegalFields fin op form n ∧ b0 :: b1 :: bs = frameHead m fin op form n ++ rest := by
  simp only [frameHead, List.cons_append, List.cons.injEq, readLength_eq_ok_iff]
  constructor
  · rintro ⟨⟨hrsv, hop, hm, hc⟩, rfl, rfl, hfits, hfield, hbs⟩
    rw [hfield, LenForm.field_le_iff hfits] at hc
    exact ⟨⟨hop, hfits, hc⟩, (eq_headerByte0_iff b0 b1 _ _).2 ⟨hrsv, rfl, rfl⟩,
      (eq_headerByte1_iff b0 b1 m (LenForm.field_lt hfits)).2 ⟨hm, hfield⟩, hbs⟩
  · rintro ⟨⟨hop, hfits, hc⟩, hb0, hb1, hbs⟩
    obtain ⟨hrsv, rfl, rfl⟩ := (eq_headerByte0_iff b0 b1 _ _).1 hb0
    obtain ⟨hm, hfield⟩ := (eq_headerByte1_iff b0 b1 m (LenForm.field_lt hfits)).1 hb1
    rw [← LenForm.field_le_iff hfits, ← hfield] at hc
    exact ⟨⟨hrsv, hop, hm, hc⟩, rfl, rfl, hfits, hfield, hbs⟩

/-! ### Received frames -/

theorem rxFrame_eq (fin : Bool) (op : BitVec 4) (form : LenForm) (key : Key) (p : Bytes) :
    rxFrame fin op form key p = frameHead true fin op form p.length ++ (key.bytes ++ unmask p key) := rfl

/-- The decoder of received frames is its four reads one after the other. -/
theorem decodeRx_eq_ok_iff {b0 b1 : Byte} {bs rest : Bytes} {i : Instr} :
    decodeRx (b0 :: b1 :: bs) = .ok (i, rest) ↔
      ∃ form n bs₁ key bs₂ w, headerFault (baseHeader b0 b1) = none ∧
        readLength (baseHeader b0 b1).rawLen7 bs = .ok (form, n, bs₁) ∧
        readKey bs₁ = some (key, bs₂) ∧ takeExact n bs₂ = some (w, rest) ∧
        rxInstr (baseHeader b0 b1).opcode (baseHeader b0 b1).fin form key (unmask w key) = some i := by
  constructor
  · intro h
    simp only [decodeRx] at h
    (repeat' split at h) <;> cases h
    exact ⟨_, _, _, _, _, _, ‹_›, ‹_›, ‹_›, ‹_›, ‹_›⟩
  · rintro ⟨form, n, bs₁, key, bs₂, w, hf, hl, hk, hw, hi⟩
    simp [decodeRx, hf, hl, hk, hw, hi]

/-- A received frame decodes from exactly the bytes `rxFrame` writes for its fields. -/
theorem decodeRx_eq_ok_iff_rxFrame {bs rest : Bytes} {i : Instr} :
    decodeRx bs = .ok (i, rest) ↔
      ∃ fin op form key p, rxInstr op fin form key p = some i ∧ LegalFields fin op form p.length ∧
        bs = rxFrame fin op form key p ++ rest := by
  constructor
  · intro h
    match bs, h with
    | b0 :: b1 :: bs, h =>
      obtain ⟨form, n, bs₁, key, bs₂, w, hf, hl, hk, hw, hi⟩ := decodeRx_eq_ok_iff.1 h
      obtain ⟨hfields, hhead⟩ :=
        frameHead_read_iff.1 ⟨(headerFault_eq_none_iff _).1 hf, rfl, rfl, hl⟩
      obtain ⟨rfl, rfl⟩ := takeExact_eq_some_iff.1 hw
      rw [readKey_eq_some_iff.1 hk] at hhead
      refine ⟨_, _, form, key, unmask w key, hi, by rwa [unmask_length], ?_⟩
      simp [hhead, rxFrame_eq]
  · rintro ⟨fin, op, form, key, p, hi, hfields, rfl⟩
    obtain ⟨hlegal, hfin, hop, hl⟩ := (frameHead_read_iff (m := true)
      (rest := key.bytes ++ (unmask p key ++ rest))).2 ⟨hfields, rfl⟩
    have hw : takeExact p.length (unmask p key ++ rest) = some (unmask p key, rest) :=
      takeExact_eq_some_iff.2 ⟨unmask_length p key, rfl⟩
    have hread := decodeRx_eq_ok_iff.2 ⟨form, p.length, _, key, _, _,
      (headerFault_eq_none_iff _).2 hlegal, hl, readKey_eq_some_iff.2 rfl, hw, by rw [hfin, hop, unmask_unmask, hi]⟩
    simpa [rxFrame] using hread

/-- A frame built from legal fields is well-formed and encoded by those fields. -/
theorem rxInstr_encode {fin : Bool} {op : BitVec 4} {form : LenForm} {key : Key} {p : Bytes} {i : Instr}
    (hi : rxInstr op fin form key p = some i) (hf : LegalFields fin op form p.length) :
    i.wf = true ∧ encode i = rxFrame fin op form key p := by
  obtain ⟨-, hfits, hc⟩ := hf
  unfold rxInstr at hi
  (repeat' split at hi) <;> cases hi <;> subst op
  -- CONT, TEXT, BINARY
  iterate 3 exact ⟨hfits, rfl⟩
  -- CLOSE, PING, PONG carry neither FIN nor form
  all_goals
    obtain ⟨rfl, rfl⟩ := hc rfl
    exact ⟨hfits, rfl⟩

/-- Every well-formed received frame is built from legal fields. -/
theorem exists_rxInstr {i : Instr} (hi : i.received = true) (hwf : i.wf = true) :
    ∃ fin op form key p, rxInstr op fin form key p = some i ∧ LegalFields fin op form p.length ∧
      encode i = rxFrame fin op form key p := by
  cases i with
  | cont fin form key p | text fin form key p | binary fin form key p =>
    exact ⟨fin, _, form, key, p, rfl, ⟨rfl, hwf, by simp [controlOpcode]⟩, rfl⟩
  | close key p | ping key p | pong key p =>
    exact ⟨true, _, .len7, key, p, rfl, ⟨rfl, hwf, fun _ => ⟨rfl, rfl⟩⟩, rfl⟩
  | txCont | txText | txBinary | txClose | txPing | txPong => cases hi

/-- The received frames' decoder reads a frame from exactly its encoding. -/
theorem decodeRx_eq_ok_iff_encode {bs rest : Bytes} {i : Instr} :
    decodeRx bs = .ok (i, rest) ↔ i.received = true ∧ i.wf = true ∧ bs = encode i ++ rest := by
  rw [decodeRx_eq_ok_iff_rxFrame]
  constructor
  · rintro ⟨fin, op, form, key, p, hi, hf, rfl⟩
    obtain ⟨hwf, henc⟩ := rxInstr_encode hi hf
    exact ⟨(Machine.rxInstr_received hi).1, hwf, by rw [henc]⟩
  · rintro ⟨hrx, hwf, rfl⟩
    obtain ⟨fin, op, form, key, p, hi, hf, henc⟩ := exists_rxInstr hrx hwf
    exact ⟨fin, op, form, key, p, hi, hf, by rw [henc]⟩

/-! ### Transmitted frames -/

theorem LenForm.shortest_fits_iff (n : Nat) :
    (LenForm.shortest n).fits n = true ↔ n < 2 ^ Config.lenBits := by
  unfold LenForm.shortest
  split
  · simp [LenForm.fits, Config.lenBits]; omega
  · split
    · simp [LenForm.fits, Config.lenBits]; omega
    · simp [LenForm.fits]

theorem LenForm.shortest_eq_len7_iff (n : Nat) : LenForm.shortest n = .len7 ↔ n ≤ 125 := by
  unfold LenForm.shortest
  split
  · simp_all
  · split <;> simp_all

theorem encodeFrame_eq (fin : Bool) (op : BitVec 4) (p : Bytes) :
    encodeFrame fin op p = frameHead false fin op (.shortest p.length) p.length ++ p := by
  simp only [encodeFrame, LenForm.shortest]
  split
  · rfl
  · split <;> rfl

/-- The decoder of transmitted frames is its three reads one after the other, in the shortest form only. -/
theorem decodeTx_eq_ok_iff {b0 b1 : Byte} {bs rest : Bytes} {i : Instr} :
    decodeTx (b0 :: b1 :: bs) = .ok (i, rest) ↔
      ∃ n bs₁ p, txHeaderFault (baseHeader b0 b1) = none ∧
        readLength (baseHeader b0 b1).rawLen7 bs = .ok (.shortest n, n, bs₁) ∧
        takeExact n bs₁ = some (p, rest) ∧
        txInstr (baseHeader b0 b1).opcode (baseHeader b0 b1).fin p = some i := by
  constructor
  · intro h
    simp only [decodeTx] at h
    (repeat' split at h) <;> cases h
    obtain rfl := not_not.1 ‹¬ _ ≠ LenForm.shortest _›
    exact ⟨_, _, _, ‹_›, ‹_›, ‹_›, ‹_›⟩
  · rintro ⟨n, bs₁, p, hf, hl, hp, hi⟩
    simp [decodeTx, hf, hl, hp, hi]

/-- A transmitted frame decodes from exactly the bytes `encodeFrame` writes for its fields. -/
theorem decodeTx_eq_ok_iff_encodeFrame {bs rest : Bytes} {i : Instr} :
    decodeTx bs = .ok (i, rest) ↔
      ∃ fin op p, txInstr op fin p = some i ∧ LegalFields fin op (.shortest p.length) p.length ∧
        bs = encodeFrame fin op p ++ rest := by
  constructor
  · intro h
    match bs, h with
    | b0 :: b1 :: bs, h =>
      obtain ⟨n, bs₁, p, hf, hl, hp, hi⟩ := decodeTx_eq_ok_iff.1 h
      obtain ⟨hfields, hhead⟩ :=
        frameHead_read_iff.1 ⟨(txHeaderFault_eq_none_iff _).1 hf, rfl, rfl, hl⟩
      obtain ⟨rfl, rfl⟩ := takeExact_eq_some_iff.1 hp
      exact ⟨_, _, p, hi, hfields, by simp [hhead, encodeFrame_eq]⟩
  · rintro ⟨fin, op, p, hi, hfields, rfl⟩
    obtain ⟨hlegal, hfin, hop, hl⟩ := (frameHead_read_iff (m := false) (rest := p ++ rest)).2
      ⟨hfields, rfl⟩
    have hread := decodeTx_eq_ok_iff.2 ⟨p.length, _, p, (txHeaderFault_eq_none_iff _).2 hlegal, hl,
      takeExact_eq_some_iff.2 ⟨rfl, rfl⟩, by rw [hfin, hop, hi]⟩
    simpa [encodeFrame_eq, frameHead] using hread

/-- A frame built from legal fields is well-formed and encoded by those fields. -/
theorem txInstr_encode {fin : Bool} {op : BitVec 4} {p : Bytes} {i : Instr}
    (hi : txInstr op fin p = some i) (hf : LegalFields fin op (.shortest p.length) p.length) :
    i.wf = true ∧ encode i = encodeFrame fin op p := by
  obtain ⟨-, hfits, hc⟩ := hf
  rw [LenForm.shortest_fits_iff] at hfits
  rw [LenForm.shortest_eq_len7_iff] at hc
  unfold txInstr at hi
  (repeat' split at hi) <;> cases hi <;> subst op
  -- TX_CONT, TX_TEXT, TX_BINARY
  iterate 3 exact ⟨decide_eq_true hfits, rfl⟩
  -- TX_CLOSE, TX_PING, TX_PONG do not carry FIN
  all_goals
    obtain ⟨rfl, hlen⟩ := hc rfl
    exact ⟨decide_eq_true hlen, rfl⟩

/-- Every well-formed transmitted frame is built from legal fields. -/
theorem exists_txInstr {i : Instr} (hi : i.received = false) (hwf : i.wf = true) :
    ∃ fin op p, txInstr op fin p = some i ∧ LegalFields fin op (.shortest p.length) p.length ∧
      encode i = encodeFrame fin op p := by
  cases i with
  | txCont fin p | txText fin p | txBinary fin p =>
    have hfits := (LenForm.shortest_fits_iff p.length).2 (of_decide_eq_true hwf)
    exact ⟨fin, _, p, rfl, ⟨rfl, hfits, by simp [controlOpcode]⟩, rfl⟩
  | txClose p | txPing p | txPong p =>
    have hlen : p.length ≤ 125 := of_decide_eq_true hwf
    have hfits := (LenForm.shortest_fits_iff p.length).2 (hlen.trans_lt (by decide))
    exact ⟨true, _, p, rfl, ⟨rfl, hfits, fun _ => ⟨rfl, (LenForm.shortest_eq_len7_iff _).2 hlen⟩⟩, rfl⟩
  | cont | text | binary | close | ping | pong => cases hi

/-- The transmitted frames' decoder reads a frame from exactly its encoding. -/
theorem decodeTx_eq_ok_iff_encode {bs rest : Bytes} {i : Instr} :
    decodeTx bs = .ok (i, rest) ↔ i.received = false ∧ i.wf = true ∧ bs = encode i ++ rest := by
  rw [decodeTx_eq_ok_iff_encodeFrame]
  constructor
  · rintro ⟨fin, op, p, hi, hf, rfl⟩
    obtain ⟨hwf, henc⟩ := txInstr_encode hi hf
    exact ⟨Machine.txInstr_transmitted hi, hwf, by rw [henc]⟩
  · rintro ⟨htx, hwf, rfl⟩
    obtain ⟨fin, op, p, hi, hf, henc⟩ := exists_txInstr htx hwf
    exact ⟨fin, op, p, hi, hf, by rw [henc]⟩

/-! ### Both directions -/

/-- What either decoder reads, `decode` reads: the checks of each include its value of MASK. -/
theorem decode_eq_ok_iff {bs rest : Bytes} {i : Instr} :
    decode bs = .ok (i, rest) ↔ decodeRx bs = .ok (i, rest) ∨ decodeTx bs = .ok (i, rest) := by
  constructor
  · intro h
    unfold decode at h
    split at h
    · split at h
      · exact .inl h
      · exact .inr h
    · cases h
  · rintro (h | h)
    · match bs, h with
      | b0 :: b1 :: bs, h =>
        obtain ⟨_, _, _, _, _, _, hf, -⟩ := decodeRx_eq_ok_iff.1 h
        have hmask : b1.getLsbD 7 = true := ((headerFault_eq_none_iff _).1 hf).masked
        rw [decode, if_pos hmask, h]
    · exact (Machine.decode_of_decodeTx h).2

/-- A frame decodes from exactly its encoding, and only if it is well-formed. -/
theorem decode_eq_ok_iff_encode {bs rest : Bytes} {i : Instr} :
    decode bs = .ok (i, rest) ↔ i.wf = true ∧ bs = encode i ++ rest := by
  rw [decode_eq_ok_iff, decodeRx_eq_ok_iff_encode, decodeTx_eq_ok_iff_encode]
  cases i.received <;> simp

/-- Settles O2: a well-formed frame decodes from its encoding. -/
theorem decodeOfEncodeIsTheFrame : Obligations.DecodeOfEncodeIsTheFrame :=
  fun _ _ hwf => decode_eq_ok_iff_encode.2 ⟨hwf, rfl⟩

/-- Settles O3: a frame decodes only from its encoding, and only if it is well-formed. -/
theorem encodeOfDecodeIsTheBytes : Obligations.EncodeOfDecodeIsTheBytes := by
  intro bs i rest h
  obtain ⟨hwf, hbs⟩ := decode_eq_ok_iff_encode.1 h
  exact ⟨hwf, hbs.symm⟩

/-- Settles O1: the decoder is evaluated on each of the six byte strings. -/
theorem decodesWordsWrittenFromTheTables : Obligations.DecodesWordsWrittenFromTheTables := by
  unfold Obligations.DecodesWordsWrittenFromTheTables
  decide

end Sys2Proof
end

section
/-! SUPPORT. The header checks as the mask-and-match patterns of the opcode table (30_encoding.md R98, R107):
each pattern in terms of the header's fields, and the two kinds of legal header. -/

namespace Sys2Proof

/-- A mask-and-match pattern on the 16-bit header is one on each of its bytes. -/
theorem append_and_eq_iff {b0 b1 m0 m1 c0 c1 : Byte} :
    (b0 ++ b1) &&& (m0 ++ m1) = c0 ++ c1 ↔ b0 &&& m0 = c0 ∧ b1 &&& m1 = c1 := by
  rw [BitVec.and_append]
  constructor
  · intro h
    have hhigh := congrArg (BitVec.extractLsb' 8 8) h
    have hlow := congrArg (BitVec.extractLsb' 0 8) h
    rw [BitVec.extractLsb'_append_eq_left, BitVec.extractLsb'_append_eq_left] at hhigh
    rw [BitVec.extractLsb'_append_eq_right, BitVec.extractLsb'_append_eq_right] at hlow
    exact ⟨hhigh, hlow⟩
  · rintro ⟨rfl, rfl⟩
    rfl

/-- Under the mask without FIN a first byte is that of its opcode exactly when RSV is 0. -/
theorem byte0_and_eq_headerByte0_iff (b0 b1 : Byte) (op : BitVec 4) :
    b0 &&& 0x7F#8 = headerByte0 false op ↔
      (baseHeader b0 b1).rsv = 0 ∧ (baseHeader b0 b1).opcode = op := by
  have hmask : (b0 &&& 0x7F#8).toNat = b0.toNat % 128 := Nat.and_two_pow_sub_one_eq_mod b0.toNat 7
  rw [← BitVec.toNat_inj, ← BitVec.toNat_inj, ← BitVec.toNat_inj, hmask, headerByte0_toNat,
    baseHeader_rsv, baseHeader_opcode, Bool.toNat_false, BitVec.ofNat_eq_ofNat, BitVec.toNat_zero]
  omega

/-- Under the mask of bit 7 a second byte shows MASK. -/
theorem byte1_and_eq_headerByte1_iff (b0 b1 : Byte) (m : Bool) :
    b1 &&& 0x80#8 = headerByte1 m 0 ↔ (baseHeader b0 b1).masked = m := by
  have hmask : (b1 &&& 0x80#8).toNat = (baseHeader b0 b1).masked.toNat * 128 :=
    Nat.and_two_pow b1.toNat 7
  rw [← BitVec.toNat_inj, hmask, headerByte1_toNat m (by decide)]
  cases (baseHeader b0 b1).masked <;> cases m <;> simp

/-- A data frame's pattern leaves FIN and LEN7 open. -/
theorem dataPattern_iff (b0 b1 : Byte) (op : BitVec 4) (m : Bool) :
    (b0 ++ b1) &&& 0x7F80#16 = headerByte0 false op ++ headerByte1 m 0 ↔
      (baseHeader b0 b1).rsv = 0 ∧ (baseHeader b0 b1).masked = m ∧ (baseHeader b0 b1).opcode = op := by
  rw [show 0x7F80#16 = 0x7F#8 ++ 0x80#8 from rfl, append_and_eq_iff,
    byte0_and_eq_headerByte0_iff b0 b1, byte1_and_eq_headerByte1_iff b0 b1]
  tauto

/-- A control frame's pattern leaves LEN7 open. -/
theorem controlPattern_iff (b0 b1 : Byte) (op : BitVec 4) (m : Bool) :
    (b0 ++ b1) &&& 0xFF80#16 = headerByte0 true op ++ headerByte1 m 0 ↔
      (baseHeader b0 b1).rsv = 0 ∧ (baseHeader b0 b1).masked = m ∧ (baseHeader b0 b1).opcode = op ∧
        (baseHeader b0 b1).fin = true := by
  have hall : b0 &&& 0xFF#8 = b0 := BitVec.and_allOnes
  rw [show 0xFF80#16 = 0xFF#8 ++ 0x80#8 from rfl, append_and_eq_iff, hall,
    eq_headerByte0_iff b0 b1, byte1_and_eq_headerByte1_iff b0 b1]
  tauto

/-- The data opcodes are 0, 1 and 2 (R97). -/
theorem legalOpcode_iff (op : BitVec 4) :
    legalOpcode op = true ↔ op = 0 ∨ op = 1 ∨ op = 2 ∨ controlOpcode op = true := by
  simp [legalOpcode, controlOpcode, or_assoc]

theorem controlOpcode_iff (op : BitVec 4) :
    controlOpcode op = true ↔ op = 8 ∨ op = 9 ∨ op = 10 := by
  simp [controlOpcode, or_assoc]

/-- A legal header is a data frame's, or a control frame's with FIN = 1 and LEN7 at most 125. -/
theorem BaseHeader.legal_iff_data_or_control (h : BaseHeader) (m : Bool) :
    h.Legal m ↔ h.rsv = 0 ∧ h.masked = m ∧
      (h.opcode = 0 ∨ h.opcode = 1 ∨ h.opcode = 2 ∨
        (h.opcode = 8 ∨ h.opcode = 9 ∨ h.opcode = 10) ∧ h.fin = true ∧ h.rawLen7.toNat ≤ 125) := by
  rw [← controlOpcode_iff]
  constructor
  · rintro ⟨hrsv, hop, hm, hc⟩
    rw [legalOpcode_iff] at hop
    exact ⟨hrsv, hm, hop.imp_right (.imp_right (.imp_right fun h => ⟨h, hc h⟩))⟩
  · rintro ⟨hrsv, hm, hop⟩
    refine ⟨hrsv, ?_, hm, ?_⟩
    · exact (legalOpcode_iff _).2 (hop.imp_right (.imp_right (.imp_right And.left)))
    · rcases hop with hop | hop | hop | ⟨-, hc⟩
      iterate 3 · simp [hop, controlOpcode]
      · exact fun _ => hc

/-- A header is legal exactly when it matches one of its direction's six patterns. -/
theorem baseHeader_legal_iff_patterns (b0 b1 : Byte) (m : Bool) :
    (baseHeader b0 b1).Legal m ↔
      (b0 ++ b1) &&& 0x7F80#16 = headerByte0 false 0 ++ headerByte1 m 0 ∨
      (b0 ++ b1) &&& 0x7F80#16 = headerByte0 false 1 ++ headerByte1 m 0 ∨
      (b0 ++ b1) &&& 0x7F80#16 = headerByte0 false 2 ++ headerByte1 m 0 ∨
      ((b0 ++ b1) &&& 0xFF80#16 = headerByte0 true 8 ++ headerByte1 m 0 ∨
        (b0 ++ b1) &&& 0xFF80#16 = headerByte0 true 9 ++ headerByte1 m 0 ∨
        (b0 ++ b1) &&& 0xFF80#16 = headerByte0 true 10 ++ headerByte1 m 0) ∧
      (b1 &&& 0x7F#8).toNat ≤ 125 := by
  have hlen7 : (b1 &&& 0x7F#8).toNat = (baseHeader b0 b1).rawLen7.toNat :=
    (Nat.and_two_pow_sub_one_eq_mod b1.toNat 7).trans (baseHeader_rawLen7 b0 b1).symm
  simp only [BaseHeader.legal_iff_data_or_control, dataPattern_iff, controlPattern_iff, hlen7]
  tauto

/-- Settles O4: the patterns of each direction are those of its MASK bit. -/
theorem legalHeadersAreTheTablePatterns : Obligations.LegalHeadersAreTheTablePatterns := by
  intro b0 b1
  rw [headerFault_eq_none_iff, txHeaderFault_eq_none_iff]
  exact ⟨baseHeader_legal_iff_patterns b0 b1 true, baseHeader_legal_iff_patterns b0 b1 false⟩

end Sys2Proof
end

section
/-! SUPPORT. What the ByteCursor's operations answer (40_bytecursor.md R131 to R138): which chunks a
read drops and where it leaves the offset, and the peeks of every width as big-endian numbers. -/

namespace Sys2Proof.Machine

/-! ### The chunks a read drops -/

/-- Taking `n` buffered bytes drops the first chunks of the queue, and the new offset is what was
taken of the new front chunk. -/
theorem takeFromChunks_drops (chunks : List Bytes) (off n : Nat) (ok : chunksOk off chunks)
    (hn : n ≤ (chunks.flatten.drop off).length) :
    ∃ k, (takeFromChunks off n chunks).2.1 = chunks.drop k ∧
      (takeFromChunks off n chunks).2.2 + (chunks.take k).flatten.length = off + n := by
  induction chunks generalizing off n with
  | nil =>
    have hoff : off = 0 := ok.2
    have hn0 : n = 0 := by simpa using hn
    exact ⟨0, rfl, by simp [takeFromChunks, hoff, hn0]⟩
  | cons chunk rest ih =>
    obtain ⟨hne, hoff⟩ := ok
    have hlt : off < chunk.length := hoff
    by_cases hfront : n < chunk.length - off
    · exact ⟨0, by simp [takeFromChunks, hfront]⟩
    · have hrest : n - (chunk.length - off) ≤ (rest.flatten.drop 0).length := by
        simp only [List.flatten_cons, List.length_drop, List.length_append] at hn ⊢
        omega
      obtain ⟨k, hchunks, hleft⟩ :=
        ih 0 _ (chunksOk_zero fun ch hch => hne ch (List.mem_cons_of_mem _ hch)) hrest
      refine ⟨k + 1, ?_, ?_⟩
      · simpa [takeFromChunks, hfront] using hchunks
      · simp only [takeFromChunks, if_neg hfront, List.take_succ_cons, List.flatten_cons,
          List.length_append]
        omega

/-- A successful `tryConsume(n)` drops the emptied chunks; its offset is what it took of the new
front chunk. -/
theorem Cursor.tryConsume_drops {n : Nat} {c c' : Cursor} {r : Bytes} (hc : c.wf = true)
    (h : c.tryConsume n = some (r, c')) :
    ∃ k, c'.chunks = c.chunks.drop k ∧
      c'.off + (c.chunks.take k).flatten.length = c.off + n := by
  obtain ⟨hok, htotal⟩ := (Cursor.wf_iff c).1 hc
  unfold Cursor.tryConsume at h
  split at h <;> cases h
  case isTrue hn => exact takeFromChunks_drops c.chunks c.off n hok (hn.trans_eq htotal)

/-- Settles O10: the exact read, and the chunks it drops. -/
theorem tryConsumeIsExactOrNothing : Obligations.TryConsumeIsExactOrNothing := by
  intro c n hc
  refine ⟨fun hn => ?_, (Cursor.tryConsume_none_iff n c).2⟩
  obtain ⟨c', h, hbytes, hwf, htotal, hpos⟩ := Cursor.tryConsume_of_le hc hn
  exact ⟨c', h, hbytes, by omega, hpos, hwf, Cursor.tryConsume_drops hc h⟩

/-! ### Appending and peeking -/

/-- An empty chunk is not queued (decision D6). -/
@[simp] theorem Cursor.append_nil (c : Cursor) : c.append [] = c := rfl

/-- A peek answers NeedMore exactly when a byte is missing (R138). -/
theorem Cursor.peek_none_iff {c : Cursor} (hc : c.wf = true) (width offset : Nat) :
    c.peek width offset = none ↔ c.bytes.length < offset + width := by
  simp [Cursor.peek, Cursor.wf_total hc]

theorem Cursor.peek_of_le {c : Cursor} (hc : c.wf = true) {width offset : Nat}
    (hle : offset + width ≤ c.bytes.length) :
    c.peek width offset = some (be ((c.bytes.drop offset).take width)) :=
  if_pos ((Cursor.wf_total hc).symm ▸ hle)

/-- A peek's answer is below `256 ^ width` and its big-endian digits are the bytes at the offset. -/
theorem Cursor.peek_digits {c : Cursor} (hc : c.wf = true) {width offset : Nat}
    (hle : offset + width ≤ c.bytes.length) :
    ∃ v, c.peek width offset = some v ∧ v < 256 ^ width ∧
      toBe width v = (c.bytes.drop offset).take width := by
  have hlen : ((c.bytes.drop offset).take width).length = width :=
    List.length_take_of_le (by rw [List.length_drop]; omega)
  refine ⟨_, Cursor.peek_of_le hc hle, ?_, ?_⟩
  · simpa only [hlen] using be_lt ((c.bytes.drop offset).take width)
  · simpa only [hlen] using toBe_be ((c.bytes.drop offset).take width)

theorem Cursor.peek_one {c : Cursor} (hc : c.wf = true) {offset : Nat} {b : Byte}
    (h : c.bytes[offset]? = some b) : c.peek 1 offset = some b.toNat := by
  have hlt := (List.getElem?_eq_some_iff.1 h).1
  rw [Cursor.peek_of_le hc hlt, List.take_one, List.head?_drop, h]
  simp [be_cons]

theorem Cursor.peek_two {c : Cursor} (hc : c.wf = true) {offset : Nat} {b0 b1 : Byte}
    (h0 : c.bytes[offset]? = some b0) (h1 : c.bytes[offset + 1]? = some b1) :
    c.peek 2 offset = some (b0.toNat * 256 + b1.toNat) := by
  have hlt := (List.getElem?_eq_some_iff.1 h1).1
  rw [Cursor.peek_of_le hc hlt, List.take_add_one, List.take_one, List.head?_drop,
    List.getElem?_drop, h0, h1]
  simp [be_cons]

/-- Settles O12: `append`'s equation, and the peeks of widths 1, 2, 4 and 8. -/
theorem appendAndPeeks : Obligations.AppendAndPeeks := by
  intro c chunk o hc
  obtain ⟨hwf, hbytes, htotal, hpos⟩ := Cursor.append_spec chunk hc
  have havailable : c.availableBytes = c.bytes.length := Cursor.wf_total hc
  have hnone (width : Nat) := (Cursor.peek_none_iff hc width o).2
  refine ⟨⟨hwf, hbytes, ?_, hpos, havailable, Cursor.append_nil c⟩,
    fun _ => Cursor.peek_one hc, fun _ _ => Cursor.peek_two hc,
    Cursor.peek_digits hc, Cursor.peek_digits hc, hnone 1, hnone 2, hnone 4, hnone 8⟩
  rw [← havailable]
  exact htotal

end Sys2Proof.Machine
end

section
/-! SUPPORT. Unmasking byte by byte (41_decoder.md R162). -/

namespace Sys2Proof

theorem unmaskFrom_getElem? (key : Key) (n i : Nat) (w : Bytes) :
    (unmaskFrom key n w)[i]? = w[i]?.map (· ^^^ key.byte (n + i)) := by
  induction w generalizing n i with
  | nil => rfl
  | cons b w ih =>
    cases i with
    | zero => rfl
    | succ i =>
      have hindex : n + 1 + i = n + (i + 1) := by omega
      simp [unmaskFrom, ih, hindex]

/-- `Key.byte` is the cyclic key of R162. -/
theorem Key.bytes_getElem?_mod (key : Key) (i : Nat) : key.bytes[i % 4]? = some (key.byte i) := by
  have hcases : i % 4 = 0 ∨ i % 4 = 1 ∨ i % 4 = 2 ∨ i % 4 = 3 := by omega
  rcases hcases with h | h | h | h <;> simp [Key.byte, Key.bytes, h]

/-- Settles O6: byte `i` of the unmasked string, with the length and the inverse known already. -/
theorem unmaskIsXorWithTheCyclicKey : Obligations.UnmaskIsXorWithTheCyclicKey := by
  intro w key
  refine ⟨unmask_length w key, fun i b k hb hk => ?_, unmask_unmask w key⟩
  obtain rfl : key.byte i = k := by simpa [Key.bytes_getElem?_mod] using hk
  rw [unmask, unmaskFrom_getElem?, hb, Nat.zero_add, Option.map_some]

end Sys2Proof
end

section
/-! SUPPORT. What one micro-step of the decoder does in each of its states (41_decoder.md R150 to R164): with
the bytes it needs, with too few, and with a frame that is too large; and the step of a chunk as its drain. -/

namespace Sys2Proof.Machine

/-! ### Fetching -/

/-- A read of the bytes at the head of the buffered ones. -/
theorem Cursor.tryConsume_append {c : Cursor} {w tail : Bytes} (hc : c.wf = true)
    (hb : c.bytes = w ++ tail) :
    ∃ c' : Cursor, c'.bytes = tail ∧ c'.pos = c.pos + w.length ∧ c'.wf = true ∧
      c.tryConsume w.length = some (w, c') := by
  have hle : w.length ≤ c.total := by rw [Cursor.wf_total hc, hb]; simp
  obtain ⟨c', h, hbytes, hwf, -, hpos⟩ := Cursor.tryConsume_of_le hc hle
  exact ⟨c', by rw [hbytes, hb, List.drop_left], hpos, hwf, by rw [h, hb, List.take_left]⟩

/-- A micro-step whose bytes are buffered takes exactly these (R150). -/
theorem consuming_append {s : State} {w tail : Bytes} (k : Bytes → State → Outcome)
    (hc : s.c.wf = true) (hb : s.c.bytes = w ++ tail) :
    ∃ c' : Cursor, c'.bytes = tail ∧ c'.pos = s.c.pos + w.length ∧ c'.wf = true ∧
      consuming w.length k s = .ran (k w { s with c := c' }) := by
  obtain ⟨c', hbytes, hpos, hwf, h⟩ := Cursor.tryConsume_append hc hb
  exact ⟨c', hbytes, hpos, hwf, by simp only [consuming, h]⟩

/-- Without its bytes it suspends (R164). -/
theorem consuming_suspends {n : Nat} (k : Bytes → State → Outcome) {s : State} (h : s.c.total < n) :
    consuming n k s = .suspended := by
  simp only [consuming, (Cursor.tryConsume_none_iff n s.c).2 h]

/-! ### The micro-step of each state -/

section

variable {s : State}

theorem microStep_awaitingHeader (h : s.d.state = .awaitingHeader) :
    microStep s = consuming 2 headerFetched s := by
  simp only [microStep, h, microHeader_eq]

theorem microStep_awaitingExtLen16 (h : s.d.state = .awaitingExtLen16) :
    microStep s = consuming 2 extLen16Fetched s := by
  simp only [microStep, h, microExtLen16_eq]

theorem microStep_awaitingExtLen64 (h : s.d.state = .awaitingExtLen64) :
    microStep s = consuming 8 extLen64Fetched s := by
  simp only [microStep, h, microExtLen64_eq]

theorem microStep_awaitingMaskKey (h : s.d.state = .awaitingMaskKey) :
    microStep s = consuming Config.keyBytes maskKeyFetched s := by
  simp only [microStep, h, microMaskKey_eq]

/-- The size check comes first (R160). -/
theorem microStep_oversized (h : s.d.state = .awaitingPayload)
    (hsize : s.tooLarge s.h.opcode s.h.effLen.toNat = true) :
    microStep s = .ran (.next (payloadTooLarge s)) := by
  simp only [microStep, h, microPayload_eq, hsize, if_true]

theorem microStep_awaitingPayload (h : s.d.state = .awaitingPayload)
    (hsize : s.tooLarge s.h.opcode s.h.effLen.toNat = false) :
    microStep s = consuming s.h.effLen.toNat payloadFetched s := by
  simp [microStep, h, microPayload_eq, hsize]

theorem microStep_failed (h : s.d.state = .failed) : microStep s = .suspended := by
  simp only [microStep, h]

/-- With too few bytes a micro-step suspends, unless the size check fails first (R164). -/
theorem microStep_suspends (hneed : s.c.total < s.needed)
    (hsize : s.d.state = .awaitingPayload → s.tooLarge s.h.opcode s.h.effLen.toNat = false) :
    microStep s = .suspended := by
  unfold State.needed at hneed
  cases hst : s.d.state <;> simp only [hst] at hneed
  case awaitingHeader => rw [microStep_awaitingHeader hst, consuming_suspends _ hneed]
  case awaitingExtLen16 => rw [microStep_awaitingExtLen16 hst, consuming_suspends _ hneed]
  case awaitingExtLen64 => rw [microStep_awaitingExtLen64 hst, consuming_suspends _ hneed]
  case awaitingMaskKey => rw [microStep_awaitingMaskKey hst, consuming_suspends _ hneed]
  case awaitingPayload => rw [microStep_awaitingPayload hst (hsize hst), consuming_suspends _ hneed]
  case failed => exact microStep_failed hst

/-- So it suspends, or the frame it waits for is too large and it fails. -/
theorem microStep_of_lacksBytes (hneed : s.c.total < s.needed) :
    microStep s = .suspended ∨
      s.d.state = .awaitingPayload ∧ microStep s = .ran (.next (payloadTooLarge s)) := by
  by_cases hlarge : s.d.state = .awaitingPayload ∧ s.tooLarge s.h.opcode s.h.effLen.toNat = true
  · exact .inr ⟨hlarge.1, microStep_oversized hlarge.1 hlarge.2⟩
  · exact .inl (microStep_suspends hneed (by simpa using hlarge))

end

/-! ### The header -/

@[simp] theorem Header.base_load (b : BaseHeader) (h : Header) : (h.load b).base = b := rfl

theorem headerFetched_legal {b0 b1 : Byte} (h : headerFault (baseHeader b0 b1) = none) (s : State) :
    headerFetched [b0, b1] s = .next (afterHeader { s with h := s.h.load (baseHeader b0 b1) }) := by
  simp [headerFetched, h]

theorem headerFetched_illegal {b0 b1 : Byte} (h : headerFault (baseHeader b0 b1) ≠ none) (s : State) :
    headerFetched [b0, b1] s =
      .next (protocolViolation { s with h := s.h.load (baseHeader b0 b1) }) := by
  have hsome := Option.isSome_iff_ne_none.2 h
  simp [headerFetched, hsome]

/-- Settles O14: the fetch of two bytes, and the three states AWAITING_HEADER leads to. -/
theorem legalHeadersAreFetched : Obligations.LegalHeadersAreFetched := by
  intro s b0 b1 tail hst hwf hbytes hlegal
  obtain ⟨c', hbytes', hpos, hwf', hmicro⟩ :=
    consuming_append (w := [b0, b1]) headerFetched hwf hbytes
  rw [headerFetched_legal hlegal] at hmicro
  have hmicro' := (microStep_awaitingHeader hst).trans hmicro
  have hlen : (s.h.load (baseHeader b0 b1)).rawLen7 = b1.extractLsb' 0 7 := rfl
  rcases afterHeader_cases { s with c := c', h := s.h.load (baseHeader b0 b1) }
    with ⟨hcase, hnext⟩ | ⟨hcase, hnext⟩ | ⟨hcase, hnext⟩ <;>
      rw [hnext] at hmicro' <;> simp only [hlen] at hcase hmicro'
  · refine ⟨c', .awaitingMaskKey, _, hbytes', hpos, hwf', hmicro', fun _ => ⟨rfl, ?_⟩, ?_, ?_⟩
    · exact Nat.mod_eq_of_lt (by omega)
    · omega
    · omega
  · refine ⟨c', .awaitingExtLen16, _, hbytes', hpos, hwf', hmicro', ?_, fun _ => ⟨rfl, rfl⟩, ?_⟩
    · omega
    · omega
  · refine ⟨c', .awaitingExtLen64, _, hbytes', hpos, hwf', hmicro', ?_, ?_, fun _ => ⟨rfl, rfl⟩⟩
    · omega
    · omega

/-! ### The extended lengths and the key -/

theorem extLen64Fetched_of_lt {e : Bytes} (h : be e < 2 ^ 63) (s : State) :
    extLen64Fetched e s = extLen16Fetched e s := if_pos h

theorem extLen64Fetched_of_le {e : Bytes} (h : 2 ^ 63 ≤ be e) (s : State) :
    extLen64Fetched e s = .next (protocolViolation
      { s with h := { s.h with extLen := some (BitVec.ofNat 64 (be e)) } }) :=
  if_neg (Nat.not_lt.2 h)

/-- Settles O15: the fetches of 2, 8 and 4 bytes, and the suspensions. -/
theorem extendedLengthAndKeyAreFetched : Obligations.ExtendedLengthAndKeyAreFetched := by
  refine ⟨?_, ?_, ?_, ?_⟩
  · intro s e0 e1 tail hst hwf hbytes
    obtain ⟨c', hbytes', hpos, hwf', hmicro⟩ :=
      consuming_append (w := [e0, e1]) extLen16Fetched hwf hbytes
    have hvalue : be [e0, e1] = e0.toNat * 256 + e1.toNat := by simp [be_cons]
    rw [extLen16Fetched, hvalue] at hmicro
    exact ⟨c', hbytes', hpos, hwf', (microStep_awaitingExtLen16 hst).trans hmicro⟩
  · intro s e tail hst hwf hlen hbytes
    obtain ⟨c', hbytes', hpos, hwf', hmicro⟩ := consuming_append extLen64Fetched hwf hbytes
    rw [hlen] at hpos hmicro
    refine ⟨c', hbytes', hpos, hwf', fun hlt => ?_, fun hle => ?_⟩
    · rw [microStep_awaitingExtLen64 hst, hmicro, extLen64Fetched_of_lt hlt]
      rfl
    · rw [microStep_awaitingExtLen64 hst, hmicro, extLen64Fetched_of_le hle]
      rfl
  · intro s k0 k1 k2 k3 tail hst hwf hbytes
    obtain ⟨c', hbytes', hpos, hwf', hmicro⟩ :=
      consuming_append (w := [k0, k1, k2, k3]) maskKeyFetched hwf hbytes
    exact ⟨c', hbytes', hpos, hwf', (microStep_awaitingMaskKey hst).trans hmicro⟩
  · intro s hwf
    rw [← Cursor.wf_total hwf]
    exact ⟨fun hst hlt => (microStep_awaitingExtLen16 hst).trans (consuming_suspends _ hlt),
      fun hst hlt => (microStep_awaitingExtLen64 hst).trans (consuming_suspends _ hlt),
      fun hst hlt => (microStep_awaitingMaskKey hst).trans (consuming_suspends _ hlt)⟩

/-! ### The payload -/

/-- Settles O16: the size check, made before the payload is looked at. -/
theorem oversizedFrameFailsBeforeItsPayload : Obligations.OversizedFrameFailsBeforeItsPayload :=
  fun _ hst hsize => microStep_oversized hst ((State.tooLarge_iff _ _ _).2 hsize)

/-- The frame of the header registers is run at a decoder that awaits the next header (R163). -/
theorem payloadFetched_runs {w : Bytes} {s : State} {i : Instr}
    (hi : rxInstr s.h.opcode s.h.fin (lenForm s.h.rawLen7) s.h.key (unmask w s.h.key) = some i) :
    payloadFetched w s = exec i (s.setDec .awaitingHeader) := by
  simp only [payloadFetched, runFrame, State.setDec_h, hi]

/-- Settles O17: the fetch of the whole payload, and the frame that runs on it. -/
theorem payloadIsFetchedWholeAndRun : Obligations.PayloadIsFetchedWholeAndRun := by
  intro s hst hwf hmax hacc
  have hsize : s.tooLarge s.h.opcode s.h.effLen.toNat = false :=
    (State.tooLarge_false_iff _ _ _).2 ⟨hmax, hacc⟩
  rw [microStep_awaitingPayload hst hsize, ← Cursor.wf_total hwf]
  refine ⟨consuming_suspends _, fun w tail i hbytes hlen hi => ?_⟩
  obtain ⟨c', hbytes', hpos, hwf', hmicro⟩ := consuming_append payloadFetched hwf hbytes
  rw [← hlen]
  exact ⟨c', hbytes', hpos, hwf', by rw [hmicro, payloadFetched_runs (s := { s with c := c' }) hi]; rfl⟩

/-! ### The step of a chunk -/

/-- In OPEN and CLOSING the step of a chunk is the drain of the appended chunk (44_connection.md R233). -/
theorem step_rxChunk {s : State} {chunk : Bytes} {rest : List Input}
    (hk : s.k.state = .opened ∨ s.k.state = .closing) (hinputs : s.inputs = .rxChunk chunk :: rest) :
    step s = drain { s with inputs := rest, c := s.c.append chunk } := by
  have hstep : step s = rxChunk chunk { s with inputs := rest } := by
    simp only [step, takeInput, hinputs, handleInput]
  rw [hstep, rxChunk_eq_drain (s := { s with inputs := rest }) hk]

/-- A micro-step that fails ends the drain (R166). -/
theorem drain_raiseFail {s u : State} {code : U16} {kind : Kind} (hd : s.decoding = true)
    (h : microStep s = .ran (.next (raiseFail code kind u))) :
    drain s = .next (raiseFail code kind u) := by
  rw [drain_ran hd h, drainAfter, drain_idle (raiseFail_decoding code kind u)]

/-- Settles O18: too few bytes leave a micro-step suspended but for the size check, and the step of a chunk is
then that one micro-step. -/
theorem suspensionChangesNothing : Obligations.SuspensionChangesNothing := by
  refine ⟨fun s hrun => ⟨fun h => (microStep_suspended hrun h).1, microStep_of_lacksBytes⟩, ?_⟩
  intro s chunk rest hk hrun hinputs hneed
  rw [step_rxChunk hk hinputs]
  have hd : State.decoding { s with inputs := rest, c := s.c.append chunk } = true :=
    (State.decoding_iff _).2 ⟨hk, hrun⟩
  rcases microStep_of_lacksBytes (s := { s with inputs := rest, c := s.c.append chunk }) hneed
    with hmicro | ⟨hst, hmicro⟩
  · exact .inl (drain_suspended hmicro)
  · exact .inr ⟨hst, drain_raiseFail hd hmicro⟩

/-- The header faults in the bits of the two bytes (R152 to R155). -/
theorem headerFault_ne_none_of_illegal {b0 b1 : Byte}
    (h : b0.extractLsb' 4 3 ≠ 0 ∨
      b0.extractLsb' 0 4 ∉ [0#4, 1#4, 2#4, 8#4, 9#4, 10#4] ∨
      b1.getLsbD 7 = false ∨
      b0.extractLsb' 0 4 ∈ [8#4, 9#4, 10#4] ∧
        (b0.getLsbD 7 = false ∨ 125 < (b1.extractLsb' 0 7).toNat)) :
    headerFault (baseHeader b0 b1) ≠ none := by
  rw [Ne, headerFault_eq_none_iff]
  rintro ⟨hrsv, hop, hmask, hc⟩
  simp only [baseHeader] at hrsv hop hmask hc
  rcases h with h | h | h | ⟨hctl, h⟩
  · exact h hrsv
  · exact h (by simpa [legalOpcode, or_assoc] using hop)
  · exact Bool.false_ne_true (h.symm.trans hmask)
  · obtain ⟨hfin, hlen⟩ := hc (by simpa [controlOpcode, or_assoc] using hctl)
    rcases h with h | h
    · exact Bool.false_ne_true (h.symm.trans hfin)
    · omega

/-- An illegal header is fetched before it fails (decision D18). -/
theorem microStep_illegalHeader {s : State} {b0 b1 : Byte} {tail : Bytes}
    (hst : s.d.state = .awaitingHeader) (hwf : s.c.wf = true) (hbytes : s.c.bytes = b0 :: b1 :: tail)
    (hillegal : headerFault (baseHeader b0 b1) ≠ none) :
    ∃ c' : Cursor, c'.bytes = tail ∧ c'.pos = s.c.pos + 2 ∧ c'.wf = true ∧
      microStep s =
        .ran (.next (protocolViolation { s with c := c', h := s.h.load (baseHeader b0 b1) })) := by
  obtain ⟨c', hbytes', hpos, hwf', hmicro⟩ :=
    consuming_append (w := [b0, b1]) headerFetched hwf hbytes
  rw [headerFetched_illegal hillegal] at hmicro
  exact ⟨c', hbytes', hpos, hwf', (microStep_awaitingHeader hst).trans hmicro⟩

/-- Settles O13: the fetch of an illegal header, and the drain that ends with its failure. -/
theorem illegalHeadersFailWith1002 : Obligations.IllegalHeadersFailWith1002 := by
  intro s chunk rest b0 b1 tail hk hst hwf hinputs hbytes hillegal
  obtain ⟨hwf₁, hbytes₁, -, hpos₁⟩ := Cursor.append_spec chunk hwf
  obtain ⟨c', hbytes', hpos, hwf', hmicro⟩ :=
    microStep_illegalHeader (s := { s with inputs := rest, c := s.c.append chunk }) hst hwf₁
      (hbytes₁.trans hbytes) (headerFault_ne_none_of_illegal hillegal)
  refine ⟨c', hbytes', hpos.trans (by rw [hpos₁]), hwf', ?_⟩
  rw [step_rxChunk hk hinputs]
  exact drain_raiseFail ((State.decoding_iff _).2 ⟨hk, by simp [hst]⟩) hmicro

end Sys2Proof.Machine
end

section
/-! SUPPORT. No step stops (41_decoder.md R166, 42_dispatch.md R180): every frame, micro-step and input event
answers a next state where the invariant holds, so the model's two faults are not reached. -/

namespace Sys2Proof.Machine

/-! ### The decoder -/

/-- What follows a fetch of bytes, the micro-step answers. -/
theorem consuming_answers {n : Nat} {k : Bytes → State → Outcome} {s : State}
    (hk : ∀ bs c', ∃ t, k bs { s with c := c' } = .next t) :
    consuming n k s = .suspended ∨ ∃ t, consuming n k s = .ran (.next t) := by
  unfold consuming
  split
  · exact .inl rfl
  · rename_i bs c' _
    obtain ⟨t, ht⟩ := hk bs c'
    exact .inr ⟨t, congrArg _ ht⟩

theorem headerFetched_answers (bs : Bytes) (s : State) : ∃ t, headerFetched bs s = .next t := by
  unfold headerFetched
  simp only
  split <;> exact ⟨_, rfl⟩

theorem extLen64Fetched_answers (e : Bytes) (s : State) : ∃ t, extLen64Fetched e s = .next t := by
  unfold extLen64Fetched
  split <;> exact ⟨_, rfl⟩

/-- A payload is fetched under a legal opcode only, so there is a frame to run (R180). -/
theorem payloadFetched_answers {s : State} (hfault : headerFault s.h.base = none)
    (ha : accumulatorInv s = true) (w : Bytes) : ∃ t, payloadFetched w s = .next t := by
  have hop : legalOpcode s.h.opcode = true := ((headerFault_eq_none_iff _).1 hfault).opcode
  rw [← rxInstr_isSome s.h.opcode s.h.fin (lenForm s.h.rawLen7) s.h.key (unmask w s.h.key)] at hop
  obtain ⟨i, hi⟩ := Option.isSome_iff_exists.1 hop
  rw [payloadFetched_runs hi]
  exact exec_answers i (s := s.setDec .awaitingHeader) ha

theorem microStep_answers {s : State} (hs : s.BusyInv) :
    microStep s = .suspended ∨ ∃ t, microStep s = .ran (.next t) := by
  cases hst : s.d.state
  case awaitingHeader =>
    rw [microStep_awaitingHeader hst]
    exact consuming_answers fun bs _ => headerFetched_answers bs _
  case awaitingExtLen16 =>
    rw [microStep_awaitingExtLen16 hst]
    exact consuming_answers fun _ _ => ⟨_, rfl⟩
  case awaitingExtLen64 =>
    rw [microStep_awaitingExtLen64 hst]
    exact consuming_answers fun e _ => extLen64Fetched_answers e _
  case awaitingMaskKey =>
    rw [microStep_awaitingMaskKey hst]
    exact consuming_answers fun _ _ => ⟨_, rfl⟩
  case awaitingPayload =>
    cases hsize : s.tooLarge s.h.opcode s.h.effLen.toNat with
    | true => exact .inr ⟨_, microStep_oversized hst hsize⟩
    | false =>
      obtain ⟨hfault, -⟩ := (headerInv_awaitingPayload_iff hst).1 hs.header
      rw [microStep_awaitingPayload hst hsize]
      exact consuming_answers fun w c' =>
        payloadFetched_answers (s := { s with c := c' }) hfault hs.accumulator w
  case failed => exact .inl (microStep_failed hst)

theorem drainLoop_answers (fuel : Nat) {s : State} (hs : s.BusyInv) :
    ∃ t, drainLoop fuel s = .next t := by
  induction fuel generalizing s with
  | zero => exact ⟨s, rfl⟩
  | succ fuel ih =>
    simp only [drainLoop]
    split
    · rename_i hd
      rcases microStep_answers hs with hmicro | ⟨u, hmicro⟩
      · exact ⟨s, by rw [hmicro]⟩
      · rw [hmicro]
        exact ih (microStep_busyInv hd hs hmicro)
    · exact ⟨s, rfl⟩

theorem drain_answers {s : State} (hs : s.BusyInv) : ∃ t, drain s = .next t :=
  drainLoop_answers _ hs

/-! ### The inputs -/

theorem hsRequest_answers (method : Bytes) (headers : Headers) (s : State) :
    ∃ t, hsRequest method headers s = .next t := by
  unfold hsRequest
  split
  · simp only
    split <;> exact ⟨_, rfl⟩
  all_goals exact ⟨_, rfl⟩

theorem rxChunk_answers (bytes : Bytes) {s : State} (hs : s.BusyInv) :
    ∃ t, rxChunk bytes s = .next t := by
  unfold rxChunk
  split
  case h_2 hk => exact drain_answers (State.append_busyInv hs (.inl hk) bytes)
  case h_3 hk => exact drain_answers (State.append_busyInv hs (.inr hk) bytes)
  all_goals exact ⟨_, rfl⟩

theorem rxEnd_answers (s : State) : ∃ t, rxEnd s = .next t := by
  unfold rxEnd
  split <;> exact ⟨_, rfl⟩

theorem rxError_answers (s : State) : ∃ t, rxError s = .next t := by
  unfold rxError
  split <;> exact ⟨_, rfl⟩

theorem timerExpire_answers (s : State) : ∃ t, timerExpire s = .next t := by
  unfold timerExpire
  split
  case h_3 => split <;> exact ⟨_, rfl⟩
  all_goals exact ⟨_, rfl⟩

theorem pauseResume_answers (level : Bool) (s : State) : ∃ t, pauseResume level s = .next t := by
  unfold pauseResume
  split <;> exact ⟨_, rfl⟩

theorem execAll_answers {is : List Instr} {s : State} (hi : ∀ i ∈ is, i.received = false)
    (hs : s.BusyInv) : ∃ t, execAll is s = .next t := by
  induction is generalizing s with
  | nil => exact ⟨s, rfl⟩
  | cons i rest ih =>
    obtain ⟨u, hu⟩ := exec_answers i hs.accumulator
    have hbusy := exec_transmitted_busyInv (hi i List.mem_cons_self) hs hu
    simp only [execAll, hu]
    exact ih (fun j hj => hi j (List.mem_cons_of_mem i hj)) hbusy

theorem sendMessage_answers (op : BitVec 4) (payload : Bytes) (frag : Option Nat) {s : State}
    (hs : s.BusyInv) : ∃ t, sendMessage op payload frag s = .next t := by
  unfold sendMessage
  split
  · exact ⟨_, rfl⟩
  split
  · split
    · exact exec_answers _ hs.accumulator
    · split
      · exact ⟨_, rfl⟩
      · exact execAll_answers fragments_transmitted hs
  · exact ⟨_, rfl⟩

theorem closeCommand_answers (code : U16) (reason : Bytes) {s : State} (hs : s.BusyInv) :
    ∃ t, closeCommand code reason s = .next t := by
  unfold closeCommand
  split
  · exact exec_answers _ hs.accumulator
  · exact ⟨_, rfl⟩

theorem txFrameInput_answers (bytes : Bytes) {s : State} (hs : s.BusyInv) :
    ∃ t, txFrameInput bytes s = .next t := by
  unfold txFrameInput
  split
  · exact exec_answers _ hs.accumulator
  all_goals exact ⟨_, rfl⟩

theorem handleInput_answers (input : Input) {s : State} (hs : s.BusyInv) :
    ∃ t, handleInput input s = .next t := by
  cases input with
  | hsRequest method headers => exact hsRequest_answers method headers s
  | rxChunk bytes => exact rxChunk_answers bytes hs
  | rxEnd => exact rxEnd_answers s
  | rxError => exact rxError_answers s
  | timerExpire => exact timerExpire_answers s
  | sendMessage op payload frag => exact sendMessage_answers op payload frag hs
  | sendPing payload => exact exec_answers (.txPing payload) hs.accumulator
  | sendPong payload => exact exec_answers (.txPong payload) hs.accumulator
  | close code reason => exact closeCommand_answers code reason hs
  | pause => exact pauseResume_answers true s
  | resume => exact pauseResume_answers false s
  | txFrame bytes => exact txFrameInput_answers bytes hs

/-- The pending inputs are no part of the invariant. -/
theorem State.BusyInv.withInputs {s : State} (hs : s.BusyInv) (rest : List Input) :
    State.BusyInv { s with inputs := rest } := by
  obtain ⟨hm, hacc, hc, hf, hh, hu, hw⟩ := hs
  exact ⟨hm, hacc, hc, hf, hh, hu, hw⟩

/-- Settles O51: a step without input changes nothing, and every input event answers. -/
theorem noStepAborts : Obligations.NoStepAborts := by
  intro s hs
  obtain ⟨hbusy, -⟩ := (State.inv_iff s).1 hs
  rcases step_cases s with ⟨-, hstep⟩ | ⟨input, rest, -, hstep⟩ <;> rw [hstep]
  · exact ⟨s, rfl⟩
  · exact handleInput_answers input (hbusy.withInputs rest)

end Sys2Proof.Machine
end

section
/-! SUPPORT. CLOSED is without effects (44_connection.md R247), so a failed decoder stays as it is
(41_decoder.md R166). -/

namespace Sys2Proof.Machine

/-- A transmitted frame has no effect outside OPEN (44_connection.md R236). -/
theorem exec_transmitted_eq_self {i : Instr} {s t : State} (hi : i.received = false)
    (hk : s.k.state ≠ .opened) (h : exec i s = .next t) : t = s := by
  rcases exec_transmitted hi h with rfl | ⟨hopen, -⟩ | ⟨hopen, -⟩
  · rfl
  · exact absurd hopen hk
  · exact absurd hopen hk

/-- Every input event in CLOSED is without effect. -/
theorem InputOutcome.eq_self_of_closed {s t : State} (h : InputOutcome s t)
    (hk : s.k.state = .closed) : t = s := by
  cases h with
  | waits => rfl
  | accepts sha' response hk' _ _ => simp [hk] at hk'
  | rejects response hk' _ => simp [hk] at hk'
  | ends outs hk' _ => exact absurd hk hk'
  | pauses level hk' => exact absurd hk (ConnState.running hk').2
  | transmits is t hi h =>
    refine execAll_keeps (P := fun u => u = s) (fun i u v hi hu hexec => ?_) hi h rfl
    subst hu
    exact exec_transmitted_eq_self hi (by simp [hk]) hexec
  | receives bytes t hk' _ => exact absurd hk (ConnState.running hk').2

/-- Settles O48: a decoder has failed only in CLOSED, where a step does no more than take its input. -/
theorem failedIsTerminal : Obligations.FailedIsTerminal := by
  intro s t hs hd h
  have hk : s.k.state = .closed := closed_of_failed ((State.inv_iff s).1 hs).1.failure hd
  rcases step_cases s with ⟨-, hstep⟩ | ⟨input, rest, -, hstep⟩ <;> rw [hstep] at h
  · cases h
    exact ⟨rfl, rfl, rfl, microStep_failed hd⟩
  · obtain rfl := (handleInput_outcome h).eq_self_of_closed hk
    exact ⟨rfl, rfl, rfl, microStep_failed hd⟩

end Sys2Proof.Machine
end

section
/-! SUPPORT. What is run on fetched bytes does not look at the buffered ones (41_decoder.md R167): it commutes
with exchanging the cursor and the pending inputs. -/

namespace Sys2Proof.Machine

/-- The state with another cursor and other pending inputs. -/
def State.withStream (c : Cursor) (inputs : List Input) (s : State) : State :=
  { s with c := c, inputs := inputs }

/-- An operation that neither reads nor writes the cursor and the pending inputs. -/
def IgnoresStream (f : State → Outcome) : Prop :=
  ∀ (s : State) (c : Cursor) (inputs : List Input),
    f (s.withStream c inputs) = mapNext (State.withStream c inputs) (f s)

/-- It leaves the cursor as it is: exchange it for itself. -/
theorem IgnoresStream.cursor {f : State → Outcome} (hf : IgnoresStream f) {s t : State}
    (h : f s = .next t) : t.c = s.c := by
  have hself : f s = mapNext (State.withStream s.c s.inputs) (f s) := hf s s.c s.inputs
  rw [h] at hself
  have ht : t = t.withStream s.c s.inputs := Host.Outcome.next.inj hself
  rw [ht]
  rfl

section

variable (s : State) (c : Cursor) (inputs : List Input)

@[simp] theorem State.withStream_cfg : (s.withStream c inputs).cfg = s.cfg := rfl
@[simp] theorem State.withStream_k : (s.withStream c inputs).k = s.k := rfl
@[simp] theorem State.withStream_d : (s.withStream c inputs).d = s.d := rfl
@[simp] theorem State.withStream_h : (s.withStream c inputs).h = s.h := rfl
@[simp] theorem State.withStream_a : (s.withStream c inputs).a = s.a := rfl
@[simp] theorem State.withStream_out : (s.withStream c inputs).out = s.out := rfl
@[simp] theorem State.withStream_isOpen : (s.withStream c inputs).isOpen = s.isOpen := rfl
@[simp] theorem State.withStream_decoding : (s.withStream c inputs).decoding = s.decoding := rfl
@[simp] theorem State.withStream_tooLarge (op : BitVec 4) (n : Nat) :
    (s.withStream c inputs).tooLarge op n = s.tooLarge op n := rfl

/-! ### The shared operations -/

theorem raiseFail_withStream (code : U16) (kind : Kind) :
    raiseFail code kind (s.withStream c inputs) = (raiseFail code kind s).withStream c inputs := by
  simp only [raiseFail_eq]
  rfl

theorem State.closeReceived_withStream (code : Option U16) (reason : Bytes) :
    (s.withStream c inputs).closeReceived code reason =
      (s.closeReceived code reason).withStream c inputs := by
  simp only [State.closeReceived_eq]
  rfl

theorem deliver_withStream (kind : MsgKind) (bytes : Bytes) :
    deliver kind bytes (s.withStream c inputs) = (deliver kind bytes s).withStream c inputs := by
  unfold deliver
  rw [State.withStream_cfg, State.withStream_isOpen]
  split
  · exact raiseFail_withStream ..
  · split <;> rfl

theorem startMessage_withStream (kind : MsgKind) (fin : Bool) (p : Bytes) :
    startMessage kind fin p (s.withStream c inputs) =
      (startMessage kind fin p s).withStream c inputs := by
  unfold startMessage
  rw [State.withStream_a]
  split
  · exact raiseFail_withStream ..
  · split
    · exact deliver_withStream ..
    · rfl

theorem afterHeader_withStream :
    afterHeader (s.withStream c inputs) = (afterHeader s).withStream c inputs := by
  unfold afterHeader
  rw [State.withStream_h]
  split
  · rfl
  · split <;> rfl

end

/-! ### Received frames -/

theorem receiveFrame_ignoresStream (op : BitVec 4) (p : Bytes) {dispatch : State → Outcome}
    (hd : IgnoresStream dispatch) : IgnoresStream fun s => receiveFrame op p s dispatch := by
  intro s c inputs
  simp only [receiveFrame]
  rw [State.withStream_decoding, State.withStream_tooLarge]
  split
  · rfl
  · split
    · exact congrArg Host.Outcome.next (raiseFail_withStream ..)
    · exact hd s c inputs

theorem execCont_ignoresStream (fin : Bool) (p : Bytes) : IgnoresStream (execCont fin p) := by
  refine receiveFrame_ignoresStream 0 p fun s c inputs => ?_
  rw [State.withStream_a]
  split
  · exact congrArg Host.Outcome.next (raiseFail_withStream ..)
  · split
    · split
      · exact congrArg Host.Outcome.next (deliver_withStream { s with a := .created } ..)
      · rfl
    · rfl

theorem execClose_ignoresStream (p : Bytes) : IgnoresStream (execClose p) := by
  refine receiveFrame_ignoresStream 8 p fun s c inputs => ?_
  split
  · exact congrArg Host.Outcome.next (raiseFail_withStream ..)
  · exact congrArg Host.Outcome.next (State.closeReceived_withStream ..)

theorem execPing_ignoresStream (p : Bytes) : IgnoresStream (execPing p) := by
  refine receiveFrame_ignoresStream 9 p fun s c inputs => ?_
  rw [State.withStream_isOpen]
  split <;> rfl

theorem execPong_ignoresStream (p : Bytes) : IgnoresStream (execPong p) := by
  refine receiveFrame_ignoresStream 10 p fun s c inputs => ?_
  rw [State.withStream_isOpen]
  split <;> rfl

theorem exec_received_ignoresStream {i : Instr} (hi : i.received = true) : IgnoresStream (exec i) := by
  cases i with
  | cont fin form key p => exact execCont_ignoresStream fin p
  | text fin form key p =>
    exact receiveFrame_ignoresStream 1 p fun s c inputs =>
      congrArg Host.Outcome.next (startMessage_withStream s c inputs .text fin p)
  | binary fin form key p =>
    exact receiveFrame_ignoresStream 2 p fun s c inputs =>
      congrArg Host.Outcome.next (startMessage_withStream s c inputs .binary fin p)
  | close key p => exact execClose_ignoresStream p
  | ping key p => exact execPing_ignoresStream p
  | pong key p => exact execPong_ignoresStream p
  | txCont | txText | txBinary | txClose | txPing | txPong => cases hi

/-! ### What follows a fetch -/

theorem headerFetched_ignoresStream (bs : Bytes) : IgnoresStream (headerFetched bs) := by
  intro s c inputs
  unfold headerFetched
  dsimp only
  rw [State.withStream_h]
  split
  · exact congrArg Host.Outcome.next (raiseFail_withStream { s with h := _ } ..)
  · exact congrArg Host.Outcome.next (afterHeader_withStream { s with h := _ } ..)

theorem extLen64Fetched_ignoresStream (e : Bytes) : IgnoresStream (extLen64Fetched e) := by
  intro s c inputs
  unfold extLen64Fetched
  split
  · rfl
  · exact congrArg Host.Outcome.next (raiseFail_withStream { s with h := _ } ..)

theorem payloadFetched_ignoresStream (w : Bytes) : IgnoresStream (payloadFetched w) := by
  intro s c inputs
  simp only [payloadFetched, runFrame, State.setDec_h, State.withStream_h]
  split
  · rename_i i hi
    exact exec_received_ignoresStream (rxInstr_received hi).1 (s.setDec .awaitingHeader) c inputs
  · rfl

end Sys2Proof.Machine
end

section
/-! SUPPORT. Chunk boundaries decide nothing (41_decoder.md R167): a decoder with more bytes buffered does all
that one with fewer does, so draining a chunk and then the next is draining both at once. -/

namespace Sys2Proof.Machine

/-! ### Two states, one with more bytes buffered -/

/-- `s'` is `s` but for the chunks, the pending inputs and the bytes `more` buffered behind those of `s`. -/
structure BuffersMore (more : Bytes) (s s' : State) : Prop where
  eq : s' = s.withStream s'.c s'.inputs
  wf : s.c.wf = true
  wf' : s'.c.wf = true
  bytes : s'.c.bytes = s.c.bytes ++ more
  pos : s'.c.pos = s.c.pos

section

variable {more : Bytes} {s s' : State}

theorem BuffersMore.decoder (h : BuffersMore more s s') : s'.d = s.d := by
  rw [h.eq, State.withStream_d]

theorem BuffersMore.header (h : BuffersMore more s s') : s'.h = s.h := by
  rw [h.eq, State.withStream_h]

theorem BuffersMore.decoding (h : BuffersMore more s s') : s'.decoding = s.decoding := by
  rw [h.eq, State.withStream_decoding]

theorem BuffersMore.tooLarge (h : BuffersMore more s s') (op : BitVec 4) (n : Nat) :
    s'.tooLarge op n = s.tooLarge op n := by
  rw [h.eq, State.withStream_tooLarge]

theorem BuffersMore.needed (h : BuffersMore more s s') : s'.needed = s.needed := by
  simp only [State.needed, h.decoder, h.header]

/-- An operation that ignores the stream keeps the relation. -/
theorem IgnoresStream.related {f : State → Outcome} (hf : IgnoresStream f)
    (h : BuffersMore more s s') : outcomesRelated (BuffersMore more) (f s) (f s') := by
  obtain ⟨heq, hwf, hwf', hbytes, hpos⟩ := h
  rw [heq, hf]
  refine outcomesRelated_mapNext fun t ht => ?_
  have hc := hf.cursor ht
  exact ⟨rfl, hc ▸ hwf, hwf', hc ▸ hbytes, hc ▸ hpos⟩

/-! ### Micro-steps -/

/-- A fetch that succeeds succeeds with more bytes buffered, on the same bytes. -/
theorem consuming_buffersMore {n : Nat} {k : Bytes → State → Outcome} {o : Outcome}
    (hk : ∀ bs, IgnoresStream (k bs)) (h : BuffersMore more s s') (ho : consuming n k s = .ran o) :
    ∃ o', consuming n k s' = .ran o' ∧ outcomesRelated (BuffersMore more) o o' := by
  unfold consuming at ho
  split at ho <;> cases ho
  rename_i bs c₁ hc
  obtain ⟨hsplit, hlen, hwf₁, -, hpos₁⟩ := Cursor.tryConsume_some h.wf hc
  obtain ⟨c₁', hbytes', hpos', hwf₁', ho'⟩ := consuming_append (tail := c₁.bytes ++ more) k h.wf'
    (by rw [h.bytes, hsplit, List.append_assoc])
  rw [hlen] at hpos' ho'
  refine ⟨_, ho', (hk bs).related ⟨?_, hwf₁, hwf₁', hbytes', ?_⟩⟩
  · rw [h.eq]; rfl
  · rw [hpos', h.pos, hpos₁]

/-- So does a micro-step. -/
theorem microStep_buffersMore {o : Outcome} (h : BuffersMore more s s') (ho : microStep s = .ran o) :
    ∃ o', microStep s' = .ran o' ∧ outcomesRelated (BuffersMore more) o o' := by
  have hd : s'.d.state = s.d.state := by rw [h.decoder]
  cases hst : s.d.state
  case awaitingHeader =>
    rw [microStep_awaitingHeader hst] at ho
    rw [microStep_awaitingHeader (hd.trans hst)]
    exact consuming_buffersMore headerFetched_ignoresStream h ho
  case awaitingExtLen16 =>
    rw [microStep_awaitingExtLen16 hst] at ho
    rw [microStep_awaitingExtLen16 (hd.trans hst)]
    exact consuming_buffersMore (fun _ _ _ _ => rfl) h ho
  case awaitingExtLen64 =>
    rw [microStep_awaitingExtLen64 hst] at ho
    rw [microStep_awaitingExtLen64 (hd.trans hst)]
    exact consuming_buffersMore extLen64Fetched_ignoresStream h ho
  case awaitingMaskKey =>
    rw [microStep_awaitingMaskKey hst] at ho
    rw [microStep_awaitingMaskKey (hd.trans hst)]
    exact consuming_buffersMore (fun _ _ _ _ => rfl) h ho
  case awaitingPayload =>
    have hsize' : s'.tooLarge s'.h.opcode s'.h.effLen.toNat = s.tooLarge s.h.opcode s.h.effLen.toNat := by
      rw [h.header, h.tooLarge]
    cases hsize : s.tooLarge s.h.opcode s.h.effLen.toNat with
    | true =>
      rw [microStep_oversized hst hsize] at ho
      cases ho
      have hfail : IgnoresStream fun s => .next (payloadTooLarge s) :=
        fun _ _ _ => congrArg Host.Outcome.next (raiseFail_withStream ..)
      exact ⟨_, microStep_oversized (hd.trans hst) (hsize'.trans hsize), hfail.related h⟩
    | false =>
      rw [microStep_awaitingPayload hst hsize] at ho
      rw [microStep_awaitingPayload (hd.trans hst) (hsize'.trans hsize), h.header]
      exact consuming_buffersMore payloadFetched_ignoresStream h ho
  case failed =>
    rw [microStep_failed hst] at ho
    cases ho

/-! ### The drain -/

theorem outcomesRelated_next {r : State → State → Prop} {t : State} {o : Outcome}
    (h : outcomesRelated r (.next t) o) : ∃ t', o = .next t' ∧ r t t' := by
  cases o with
  | next t' => exact ⟨t', rfl, h⟩
  | fault f => exact False.elim h
  | refused e => exact False.elim h

/-- With more bytes buffered the drain does the same, and goes on from there. -/
theorem drain_buffersMore {t : State} (h : BuffersMore more s s') (ht : drain s = .next t) :
    ∃ t', BuffersMore more t t' ∧ drain s' = drain t' := by
  refine drain_keeps (P := fun u => ∃ u', BuffersMore more u u' ∧ drain s' = drain u') ?_ ht
    ⟨s', h, rfl⟩
  rintro u v hd ⟨u', hu, hdrain⟩ hmicro
  obtain ⟨o', hmicro', ho⟩ := microStep_buffersMore hu hmicro
  obtain ⟨v', rfl, hv⟩ := outcomesRelated_next ho
  exact ⟨v', hv, hdrain.trans (drain_ran (hu.decoding.trans hd) hmicro')⟩

/-- Without more bytes a suspended decoder is suspended. -/
theorem BuffersMore.suspended (h : BuffersMore [] s s') (hs : microStep s = .suspended) :
    microStep s' = .suspended := by
  by_cases hfailed : s.d.state = .failed
  · exact microStep_failed (by rw [h.decoder, hfailed])
  obtain ⟨hneed, hsize⟩ := microStep_suspended hfailed hs
  have htotal : s'.c.total = s.c.total :=
    Cursor.total_congr h.wf' h.wf (by rw [h.bytes, List.append_nil])
  refine microStep_suspends (by rwa [htotal, h.needed]) fun hst => ?_
  rw [h.header, h.tooLarge]
  exact hsize (by rwa [h.decoder] at hst)

/-- The drain is a function of the buffered bytes (20_memory.md R66). -/
theorem drain_sameBytes {t : State} (h : BuffersMore [] s s') (ht : drain s = .next t) :
    ∃ t', drain s' = .next t' ∧ BuffersMore [] t t' := by
  obtain ⟨t', hmore, hdrain⟩ := drain_buffersMore h ht
  refine ⟨t', ?_, hmore⟩
  rw [hdrain]
  rcases drain_exhausts ht with hidle | hsusp
  · exact drain_idle (hmore.decoding.trans hidle)
  · exact drain_suspended (hmore.suspended hsusp)

end

/-! ### Chunks -/

theorem sameDecoded.trans {t u v : State} (h : sameDecoded t u) (h' : sameDecoded u v) :
    sameDecoded t v := by
  obtain ⟨hout, hk, hrest⟩ := h
  obtain ⟨hout', hk', hrest'⟩ := h'
  refine ⟨hout.trans hout', hk.trans hk', fun hne => ?_⟩
  obtain ⟨hd, hh, ha, hb, hp⟩ := hrest hne
  obtain ⟨hd', hh', ha', hb', hp'⟩ := hrest' (hk ▸ hne)
  exact ⟨hd.trans hd', hh.trans hh', ha.trans ha', hb.trans hb', hp.trans hp'⟩

theorem BuffersMore.decodesAlike {t t' : State} (h : BuffersMore [] t t') : sameDecoded t t' := by
  obtain ⟨heq, -, -, hbytes, hpos⟩ := h
  rw [List.append_nil] at hbytes
  exact ⟨by rw [heq, State.withStream_out], by rw [heq, State.withStream_k],
    fun _ => ⟨by rw [heq, State.withStream_d], by rw [heq, State.withStream_h],
      by rw [heq, State.withStream_a], hbytes.symm, hpos.symm⟩⟩

/-- In CLOSED what is still buffered is not compared. -/
theorem BuffersMore.decodesAlike_of_closed {more : Bytes} {t t' : State} (h : BuffersMore more t t')
    (hk : t.k.state = .closed) : sameDecoded t t' :=
  ⟨by rw [h.eq, State.withStream_out], by rw [h.eq, State.withStream_k], fun hne => absurd hk hne⟩

theorem rxChunk_idle {s : State} (hk : ¬ (s.k.state = .opened ∨ s.k.state = .closing)) (bytes : Bytes) :
    rxChunk bytes s = .next s := by
  unfold rxChunk
  split <;> simp_all

/-- An empty chunk leaves a suspended decoder as it is. -/
theorem rxChunk_nil {s : State} (hq : quiescent s = true) : rxChunk [] s = .next s := by
  by_cases hk : s.k.state = .opened ∨ s.k.state = .closing
  · rw [rxChunk_eq_drain hk, Cursor.append_nil]
    have hlacks : s.c.total < s.needed ∧
        (s.d.state = .awaitingPayload → s.tooLarge s.h.opcode s.h.effLen.toNat = false) := by
      rcases hk with hk | hk <;> simpa [quiescent, hk, imp_iff_not_or] using hq
    exact drain_suspended (microStep_suspends hlacks.1 hlacks.2)
  · exact rxChunk_idle hk []

/-- A chunk that arrives late, against a drain that has its bytes already. -/
theorem BuffersMore.drain_late {more : Bytes} {u u' t : State} (hu : BuffersMore more u u')
    (hne : u.k.state ≠ .connecting) (ht : rxChunk more u = .next t) :
    ∃ t', drain u' = .next t' ∧ sameDecoded t t' := by
  by_cases hk : u.k.state = .opened ∨ u.k.state = .closing
  · rw [rxChunk_eq_drain hk] at ht
    obtain ⟨hwf, hbytes, -, hpos⟩ := Cursor.append_spec more hu.wf
    have hsame : BuffersMore [] { u with c := u.c.append more } u' :=
      ⟨hu.eq, hwf, hu.wf', by rw [hbytes, hu.bytes, List.append_nil], hu.pos.trans hpos.symm⟩
    obtain ⟨t', ht', hmore⟩ := drain_sameBytes hsame ht
    exact ⟨t', ht', hmore.decodesAlike⟩
  · rw [rxChunk_idle hk] at ht
    cases ht
    have hclosed : u.k.state = .closed := by
      cases hst : u.k.state <;> simp_all
    have hidle : u'.decoding = false := by
      rw [hu.decoding, ← Bool.not_eq_true]
      exact fun hd => State.decoding_ne_closed hd hclosed
    exact ⟨u', drain_idle hidle, hu.decodesAlike_of_closed hclosed⟩

/-- Two chunks one after the other are the same as both in one, whatever inputs are pending. -/
theorem rxChunk_append {s u t : State} {inputs : List Input} {a b : Bytes} (hwf : s.c.wf = true)
    (ha : rxChunk a { s with inputs := inputs } = .next u) (hb : rxChunk b u = .next t) :
    ∃ t', rxChunk (a ++ b) s = .next t' ∧ sameDecoded t t' := by
  by_cases hk : s.k.state = .opened ∨ s.k.state = .closing
  · rw [rxChunk_eq_drain (s := { s with inputs := inputs }) hk] at ha
    obtain ⟨hwf₁, hbytes₁, -, hpos₁⟩ := Cursor.append_spec a hwf
    obtain ⟨hwf₂, hbytes₂, -, hpos₂⟩ := Cursor.append_spec (a ++ b) hwf
    have hmore : BuffersMore b { s with inputs := inputs, c := s.c.append a }
        { s with c := s.c.append (a ++ b) } :=
      ⟨rfl, hwf₁, hwf₂, by rw [hbytes₁, hbytes₂, List.append_assoc], hpos₂.trans hpos₁.symm⟩
    obtain ⟨u', hu, hdrain⟩ := drain_buffersMore hmore ha
    rw [rxChunk_eq_drain hk, hdrain]
    exact hu.drain_late ((drain_advances ha).ne_connecting (ConnState.running hk).1) hb
  · rw [rxChunk_idle (s := { s with inputs := inputs }) hk] at ha
    cases ha
    rw [rxChunk_idle (s := { s with inputs := inputs }) hk] at hb
    cases hb
    exact ⟨s, rxChunk_idle hk _, rfl, rfl, fun _ => ⟨rfl, rfl, rfl, rfl, rfl⟩⟩

theorem core_run_succ (n : Nat) {s t : State} (h : step s = .next t) :
    core.run (n + 1) s = core.run n t := by
  have hstep : core.step s = .next t := h
  simp only [Host.Core.run, hstep]

/-- The run over a list of chunks answers as their concatenation does. -/
theorem run_rxChunks (chunks : List Bytes) {s : State} (hs : s.inv = true) :
    ∃ t t' : State, core.run chunks.length { s with inputs := chunks.map .rxChunk } = .next t ∧
      rxChunk chunks.flatten s = .next t' ∧ sameDecoded t t' := by
  obtain ⟨hbusy, hq⟩ := (State.inv_iff s).1 hs
  induction chunks generalizing s with
  | nil =>
    exact ⟨{ s with inputs := [] }, s, rfl, rxChunk_nil hq, rfl, rfl,
      fun _ => ⟨rfl, rfl, rfl, rfl, rfl⟩⟩
  | cons chunk rest ih =>
    obtain ⟨u, hu⟩ := rxChunk_answers chunk (hbusy.withInputs (rest.map .rxChunk))
    have hinputs : u.inputs = rest.map .rxChunk := (rxChunk_extendedBy hu).inputs
    have hinv : u.inv = true := (rxChunk_outcome hu).inv hs
    obtain ⟨hbusy', hq'⟩ := (State.inv_iff u).1 hinv
    obtain ⟨t, v, hrun, hv, hsame⟩ := ih hinv hbusy' hq'
    rw [← hinputs] at hrun
    obtain ⟨t', ht', hsame'⟩ := rxChunk_append hbusy.memory hu hv
    have hstep : step { s with inputs := (chunk :: rest).map .rxChunk } = .next u := hu
    exact ⟨t, t', (core_run_succ rest.length hstep).trans hrun, ht', hsame.trans hsame'⟩

/-- Settles O20: the run over the chunks against the step of their concatenation, which is `rxChunk`. -/
theorem chunkBoundariesAreInvisible : Obligations.ChunkBoundariesAreInvisible :=
  fun s chunks hs => run_rxChunks chunks (s := { s with inputs := [] }) hs

end Sys2Proof.Machine
end

section
/-! SUPPORT. The decoder fetches the frame that `decode` reads (41_decoder.md R151, R163): its micro-steps over
the head, the key and the payload of a received frame, up to the frame's execution. -/

namespace Sys2Proof.Machine

/-! ### The header registers of a received frame -/

/-- The header registers after the fields of a received frame have been fetched (10_state.md R26). -/
def Header.received (fin : Bool) (op : BitVec 4) (form : LenForm) (n : Nat) (key : Key) : Header where
  fin := fin
  rsv := 0
  opcode := op
  masked := true
  rawLen7 := BitVec.ofNat 7 (form.field n)
  extLen :=
    match form with
    | .len7 => none
    | .len16 => some (BitVec.ofNat 64 n)
    | .len64 => some (BitVec.ofNat 64 n)
  effLen := BitVec.ofNat 63 n
  key := key

/-- They are those of the frame built from these fields. -/
theorem headerOf_rxInstr {fin : Bool} {op : BitVec 4} {form : LenForm} {key : Key} {p : Bytes} {i : Instr}
    (hi : rxInstr op fin form key p = some i) (hf : LegalFields fin op form p.length) :
    headerOf i = Header.received fin op form p.length key := by
  obtain ⟨-, -, hc⟩ := hf
  unfold rxInstr at hi
  (repeat' split at hi) <;> cases hi <;> subst op
  -- CONT, TEXT, BINARY
  iterate 3 cases form <;> rfl
  -- CLOSE, PING, PONG carry neither FIN nor form
  all_goals
    obtain ⟨rfl, rfl⟩ := hc rfl
    rfl

section

variable {form : LenForm} {n : Nat} (hfits : form.fits n = true)

include hfits

theorem LenForm.lt_of_fits : n < 2 ^ 63 := by
  cases form with
  | len7 =>
    have hn : n ≤ 125 := of_decide_eq_true hfits
    omega
  | len16 =>
    have hn : n < 2 ^ 16 := of_decide_eq_true hfits
    omega
  | len64 => exact of_decide_eq_true hfits

theorem Header.received_effLen (fin : Bool) (op : BitVec 4) (key : Key) :
    (Header.received fin op form n key).effLen.toNat = n :=
  Nat.mod_eq_of_lt (LenForm.lt_of_fits hfits)

/-- LEN7 tells the form back (30_encoding.md R92). -/
theorem Header.received_lenForm (fin : Bool) (op : BitVec 4) (key : Key) :
    lenForm (Header.received fin op form n key).rawLen7 = form := by
  have hlen7 : (Header.received fin op form n key).rawLen7.toNat = form.field n :=
    Nat.mod_eq_of_lt (LenForm.field_lt hfits)
  unfold lenForm
  rw [hlen7]
  cases form with
  | len7 => exact if_pos (of_decide_eq_true hfits)
  | len16 => rfl
  | len64 => rfl

end

/-- A legal header loads them but for the lengths and the key. -/
theorem Header.load_legal {form : LenForm} {n : Nat} {b : BaseHeader} (hlegal : b.Legal true)
    (hlen : b.rawLen7.toNat = form.field n) (h : Header) :
    h.load b = { Header.received b.fin b.opcode form n h.key with extLen := none, effLen := h.effLen } := by
  have hraw : b.rawLen7 = BitVec.ofNat 7 (form.field n) := by
    rw [← hlen, BitVec.ofNat_toNat, BitVec.setWidth_eq]
  simp only [Header.load, Header.received, hlegal.rsv, hlegal.masked, hraw]

/-! ### The micro-steps of one frame -/

/-- A micro-step of a decoder that runs, taken off the drain. -/
theorem drain_eq_drainAfter {s : State} {o : Outcome} (hk : s.k.state = .opened ∨ s.k.state = .closing)
    (hrun : s.d.state ≠ .failed) (h : microStep s = .ran o) : drain s = drainAfter o :=
  drain_ran ((State.decoding_iff s).2 ⟨hk, hrun⟩) h

section

variable {s : State} {fin : Bool} {op : BitVec 4} {form : LenForm} {n : Nat} {key : Key}
  {p rest : Bytes}

/-- The base header of a frame is fetched, and its form selects the next state (R156). -/
theorem microStep_frameHead (hst : s.d.state = .awaitingHeader) (hwf : s.c.wf = true)
    (hf : LegalFields fin op form n) (hbytes : s.c.bytes = frameHead true fin op form n ++ rest) :
    ∃ (c' : Cursor) (st : DecState) (eff : BitVec 63),
      c'.bytes = form.ext n ++ rest ∧ c'.pos = s.c.pos + 2 ∧ c'.wf = true ∧
      microStep s = .ran (.next { s with
        c := c'
        d := { s.d with state := st }
        h := { Header.received fin op form n s.h.key with extLen := none, effLen := eff } }) ∧
      (form = .len7 ∧ st = .awaitingMaskKey ∧ eff.toNat = n ∨
        (form = .len16 ∧ st = .awaitingExtLen16 ∨ form = .len64 ∧ st = .awaitingExtLen64)) := by
  obtain ⟨hlegal, hfin, hop, hread⟩ := (frameHead_read_iff (rest := rest)).2 ⟨hf, rfl⟩
  obtain ⟨hfits, hlen, -⟩ := readLength_eq_ok_iff.1 hread
  obtain ⟨c', st, eff, hbytes', hpos, hwf', hmicro, h7, h16, h64⟩ :=
    legalHeadersAreFetched s _ _ _ hst hwf hbytes ((headerFault_eq_none_iff _).2 hlegal)
  have hheader : { s.h.load (baseHeader (headerByte0 fin op) (headerByte1 true (form.field n)))
      with effLen := eff } =
      { Header.received fin op form n s.h.key with extLen := none, effLen := eff } := by
    rw [Header.load_legal hlegal hlen, hfin, hop]
  refine ⟨c', st, eff, hbytes', hpos, hwf', by rw [← hheader]; exact hmicro, ?_⟩
  cases form with
  | len7 =>
    obtain ⟨hnext, heff⟩ := h7 (hlen.trans_le (of_decide_eq_true hfits))
    exact .inl ⟨rfl, hnext, heff.trans hlen⟩
  | len16 => exact .inr (.inl ⟨rfl, (h16 hlen).1⟩)
  | len64 => exact .inr (.inr ⟨rfl, (h64 hlen).1⟩)

/-- The drain over the extension bytes of a length, in either state that awaits them (R157, R158). -/
theorem drain_extLen (hk : s.k.state = .opened ∨ s.k.state = .closing) (hwf : s.c.wf = true)
    (hst : form = .len16 ∧ s.d.state = .awaitingExtLen16 ∨
      form = .len64 ∧ s.d.state = .awaitingExtLen64)
    (hfits : form.fits n = true) (hbytes : s.c.bytes = form.ext n ++ rest) :
    ∃ c' : Cursor, c'.bytes = rest ∧ c'.pos = s.c.pos + (form.ext n).length ∧ c'.wf = true ∧
      drain s = drain { s with
        c := c'
        d := { s.d with state := .awaitingMaskKey }
        h := { s.h with extLen := some (BitVec.ofNat 64 n), effLen := BitVec.ofNat 63 n } } := by
  rcases hst with ⟨rfl, hst⟩ | ⟨rfl, hst⟩
  · have hlt : n < 2 ^ 16 := of_decide_eq_true hfits
    have hvalue : be (toBe 2 n) = n := by
      rw [be_toBe, Nat.mod_eq_of_lt (by omega)]
    obtain ⟨c', hbytes', hpos, hwf', hmicro⟩ := consuming_append extLen16Fetched hwf hbytes
    refine ⟨c', hbytes', hpos, hwf', ?_⟩
    rw [LenForm.ext, toBe_length, extLen16Fetched, hvalue] at hmicro
    exact drain_eq_drainAfter hk (by simp [hst]) ((microStep_awaitingExtLen16 hst).trans hmicro)
  · have hlt : n < 2 ^ 63 := of_decide_eq_true hfits
    have hvalue : be (toBe 8 n) = n := by
      rw [be_toBe, Nat.mod_eq_of_lt (by omega)]
    obtain ⟨c', hbytes', hpos, hwf', hmicro⟩ := consuming_append extLen64Fetched hwf hbytes
    refine ⟨c', hbytes', hpos, hwf', ?_⟩
    rw [LenForm.ext, toBe_length, extLen64Fetched_of_lt (by rwa [hvalue]), extLen16Fetched, hvalue]
      at hmicro
    exact drain_eq_drainAfter hk (by simp [hst]) ((microStep_awaitingExtLen64 hst).trans hmicro)

/-- The drain over the head of a frame: up to the key. -/
theorem drain_frameHead (hk : s.k.state = .opened ∨ s.k.state = .closing)
    (hst : s.d.state = .awaitingHeader) (hwf : s.c.wf = true) (hf : LegalFields fin op form n)
    (hbytes : s.c.bytes = frameHead true fin op form n ++ rest) :
    ∃ c' : Cursor, c'.bytes = rest ∧ c'.pos = s.c.pos + (frameHead true fin op form n).length ∧
      c'.wf = true ∧
      drain s = drain { s with
        c := c'
        d := { s.d with state := .awaitingMaskKey }
        h := Header.received fin op form n s.h.key } := by
  obtain ⟨c₁, st, eff, hbytes₁, hpos₁, hwf₁, hmicro, hnext⟩ := microStep_frameHead hst hwf hf hbytes
  have hdrain := drain_eq_drainAfter hk (by simp [hst]) hmicro
  have hlength : (frameHead true fin op form n).length = 2 + (form.ext n).length := by
    simp only [frameHead, List.length_cons]
    omega
  rw [hlength, ← Nat.add_assoc, ← hpos₁]
  rcases hnext with ⟨rfl, rfl, heff⟩ | hext
  · have hvalue : eff = BitVec.ofNat 63 n := by rw [← heff, BitVec.ofNat_toNat, BitVec.setWidth_eq]
    exact ⟨c₁, hbytes₁, rfl, hwf₁, by rw [hdrain, hvalue]; rfl⟩
  · obtain ⟨c', hbytes', hpos', hwf', hdrain'⟩ := drain_extLen (s := { s with
      c := c₁
      d := { s.d with state := st }
      h := { Header.received fin op form n s.h.key with extLen := none, effLen := eff } })
      hk hwf₁ hext hf.fits hbytes₁
    refine ⟨c', hbytes', hpos', hwf', ?_⟩
    rw [hdrain]
    rcases hext with ⟨rfl, -⟩ | ⟨rfl, -⟩ <;> exact hdrain'

/-- The drain over the key (R159). -/
theorem drain_maskKey (hk : s.k.state = .opened ∨ s.k.state = .closing)
    (hst : s.d.state = .awaitingMaskKey) (hwf : s.c.wf = true) (hbytes : s.c.bytes = key.bytes ++ rest) :
    ∃ c' : Cursor, c'.bytes = rest ∧ c'.pos = s.c.pos + key.bytes.length ∧ c'.wf = true ∧
      drain s = drain { s with
        c := c'
        d := { s.d with state := .awaitingPayload }
        h := { s.h with key := key } } := by
  obtain ⟨c', hbytes', hpos, hwf', hmicro⟩ := consuming_append maskKeyFetched hwf hbytes
  exact ⟨c', hbytes', hpos, hwf',
    drain_eq_drainAfter hk (by simp [hst]) ((microStep_awaitingMaskKey hst).trans hmicro)⟩

/-- The drain over a whole received frame: its execution, and the drain that goes on. -/
theorem drain_rxFrame {i : Instr} (hk : s.k.state = .opened ∨ s.k.state = .closing)
    (hst : s.d.state = .awaitingHeader) (hwf : s.c.wf = true)
    (hi : rxInstr op fin form key p = some i) (hf : LegalFields fin op form p.length)
    (hsize : s.tooLarge op p.length = false) (hbytes : s.c.bytes = rxFrame fin op form key p ++ rest) :
    ∃ c' : Cursor, c'.bytes = rest ∧ c'.pos = s.c.pos + (rxFrame fin op form key p).length ∧
      c'.wf = true ∧ drain s = drainAfter (exec i { s with c := c', h := headerOf i }) := by
  rw [rxFrame_eq, List.append_assoc, List.append_assoc] at hbytes
  obtain ⟨c₁, hbytes₁, hpos₁, hwf₁, hdrain₁⟩ := drain_frameHead hk hst hwf hf hbytes
  obtain ⟨c₂, hbytes₂, hpos₂, hwf₂, hdrain₂⟩ := drain_maskKey (s := { s with
    c := c₁
    d := { s.d with state := .awaitingMaskKey }
    h := Header.received fin op form p.length s.h.key }) hk rfl hwf₁ hbytes₁
  have hlength := Header.received_effLen hf.fits fin op key
  obtain ⟨hmax, hacc⟩ := (State.tooLarge_false_iff _ _ _).1 hsize
  obtain ⟨c', hbytes', hpos', hwf', hmicro⟩ := (payloadIsFetchedWholeAndRun { s with
    c := c₂
    d := { s.d with state := .awaitingPayload }
    h := Header.received fin op form p.length key } rfl hwf₂ (hlength.trans_le hmax)
    (fun hop hact => by rw [hlength]; exact hacc hop hact)).2 (unmask p key) rest i hbytes₂
    ((unmask_length p key).trans hlength.symm)
    (by rw [Header.received_lenForm hf.fits]; simpa [Header.received] using hi)
  refine ⟨c', hbytes', ?_, hwf', ?_⟩
  · rw [hpos', hpos₂, hpos₁, rxFrame_eq]
    simp only [List.length_append]
    omega
  · have hd : { s.d with state := .awaitingHeader } = s.d := by rw [← hst]
    rw [hdrain₁, hdrain₂, headerOf_rxInstr hi hf, ← hd]
    exact drain_eq_drainAfter hk nofun hmicro

end

/-- Settles O21: the bytes of a decoded received frame are those `rxFrame` writes, over which the drain goes. -/
theorem stepRunsTheReceivedFrame : Obligations.StepRunsTheReceivedFrame := by
  intro s chunk rest i tail hk hst hwf hinputs hdecode hreceived hsize
  have hrx : decodeRx (s.c.bytes ++ chunk) = .ok (i, tail) := by
    refine (decode_eq_ok_iff.1 hdecode).resolve_right fun htx => ?_
    simp [(decode_of_decodeTx htx).1] at hreceived
  obtain ⟨fin, op, form, key, p, hi, hf, hbytes⟩ := decodeRx_eq_ok_iff_rxFrame.1 hrx
  obtain ⟨-, hop, hpayload⟩ := rxInstr_received hi
  rw [hop, hpayload] at hsize
  obtain ⟨hwf₁, hbytes₁, -, hpos₁⟩ := Cursor.append_spec chunk hwf
  obtain ⟨c', hbytes', hpos, hwf', hdrain⟩ :=
    drain_rxFrame (s := { s with inputs := rest, c := s.c.append chunk }) hk hst hwf₁ hi hf hsize
      (hbytes₁.trans hbytes)
  rw [(rxInstr_encode hi hf).2, step_rxChunk hk hinputs]
  exact ⟨c', hbytes', hpos.trans (by rw [hpos₁]), hwf', hdrain⟩

end Sys2Proof.Machine
end

section
/-! SUPPORT. The greedy reader of 42_dispatch.md R192 finds the group that stands at the head of a string: the
lead byte of a group tells its shape, because the lead ranges of the nine shapes follow one another. -/

namespace Sys2Proof.Machine

/-- The group has, byte for byte, values in the ranges of the shape (R192). -/
def FitsShape (shape : List (Nat × Nat)) (g : Bytes) : Prop :=
  List.Forall₂ (fun (r : Nat × Nat) (b : Byte) => r.1 ≤ b.toNat ∧ b.toNat ≤ r.2) shape g

/-- The byte string is one group of the table (R192). -/
def IsUtf8Group (g : Bytes) : Prop := ∃ shape ∈ utf8Shapes, FitsShape shape g

/-- Every lead byte of the shape `x` is below every lead byte of the shape `y`. -/
def LeadsBelow (x y : List (Nat × Nat)) : Prop := ∀ r ∈ x.head?, ∀ r' ∈ y.head?, r.2 < r'.1

theorem inByteRange_iff (r : Nat × Nat) (b : Byte) :
    inByteRange r b = true ↔ r.1 ≤ b.toNat ∧ b.toNat ≤ r.2 := by
  simp [inByteRange]

theorem utf8Shapes_leadsBelow : utf8Shapes.Pairwise LeadsBelow := by
  unfold LeadsBelow
  decide

theorem nil_notMem_utf8Shapes : [] ∉ utf8Shapes := by decide

/-! ### One shape -/

theorem stripShape_sound {shape : List (Nat × Nat)} {s rest : Bytes}
    (h : stripShape shape s = some rest) : ∃ g, s = g ++ rest ∧ FitsShape shape g := by
  induction shape generalizing s with
  | nil => exact ⟨[], by simpa [stripShape] using h, .nil⟩
  | cons r rs ih =>
    cases s with
    | nil => cases h
    | cons b s =>
      simp only [stripShape, Option.ite_none_right_eq_some, inByteRange_iff] at h
      obtain ⟨hb, hs⟩ := h
      obtain ⟨g, rfl, hg⟩ := ih hs
      exact ⟨b :: g, rfl, .cons hb hg⟩

theorem stripShape_append {shape : List (Nat × Nat)} {g : Bytes} (h : FitsShape shape g) (rest : Bytes) :
    stripShape shape (g ++ rest) = some rest := by
  induction h with
  | nil => rfl
  | cons hb _ ih => simpa [stripShape, (inByteRange_iff _ _).2 hb] using ih

/-- A shape whose lead bytes are all smaller is not found at the head. -/
theorem stripShape_none_of_leadsBelow {low shape : List (Nat × Nat)} {g : Bytes} (hlow : low ≠ [])
    (hshape : shape ≠ []) (hbelow : LeadsBelow low shape) (h : FitsShape shape g) (rest : Bytes) :
    stripShape low (g ++ rest) = none := by
  cases h with
  | nil => exact absurd rfl hshape
  | cons hb _ =>
    cases low with
    | nil => exact absurd rfl hlow
    | cons r' _ =>
      have hlt := hbelow r' rfl _ rfl
      simp only [stripShape, List.cons_append, inByteRange_iff, ite_eq_right_iff]
      omega

/-! ### The table -/

theorem stripGroup_sound {shapes : List (List (Nat × Nat))} {s rest : Bytes}
    (h : stripGroup shapes s = some rest) :
    ∃ g, s = g ++ rest ∧ ∃ shape ∈ shapes, FitsShape shape g := by
  induction shapes with
  | nil => cases h
  | cons shape shapes ih =>
    cases hshape : stripShape shape s with
    | some rest' =>
      simp only [stripGroup, hshape, Option.some.injEq] at h
      subst h
      obtain ⟨g, hs, hg⟩ := stripShape_sound hshape
      exact ⟨g, hs, shape, List.mem_cons_self, hg⟩
    | none =>
      simp only [stripGroup, hshape] at h
      obtain ⟨g, hs, shape', hmem, hg⟩ := ih h
      exact ⟨g, hs, shape', List.mem_cons_of_mem _ hmem, hg⟩

/-- In a table whose lead ranges follow one another the group at the head is found whole. -/
theorem stripGroup_append {shapes : List (List (Nat × Nat))} {shape : List (Nat × Nat)} {g : Bytes}
    (hsorted : shapes.Pairwise LeadsBelow) (hne : [] ∉ shapes) (hmem : shape ∈ shapes)
    (h : FitsShape shape g) (rest : Bytes) : stripGroup shapes (g ++ rest) = some rest := by
  induction shapes with
  | nil => cases hmem
  | cons low shapes ih =>
    obtain ⟨hbelow, hsorted⟩ := List.pairwise_cons.1 hsorted
    obtain ⟨hlow, hne'⟩ := not_or.1 (List.mem_cons.not.1 hne)
    rcases List.mem_cons.1 hmem with rfl | hmem'
    · simp only [stripGroup, stripShape_append h]
    · have hnone := stripShape_none_of_leadsBelow (Ne.symm hlow) (ne_of_mem_of_not_mem hmem hne)
        (hbelow shape hmem') h rest
      simp only [stripGroup, hnone]
      exact ih hsorted hne' hmem'

theorem stripGroup_utf8Shapes_append {g : Bytes} (h : IsUtf8Group g) (rest : Bytes) :
    stripGroup utf8Shapes (g ++ rest) = some rest := by
  obtain ⟨shape, hmem, hg⟩ := h
  exact stripGroup_append utf8Shapes_leadsBelow nil_notMem_utf8Shapes hmem hg rest

theorem IsUtf8Group.ne_nil {g : Bytes} (h : IsUtf8Group g) : g ≠ [] := by
  rintro rfl
  obtain ⟨shape, hmem, hg⟩ := h
  cases hg
  exact nil_notMem_utf8Shapes hmem

/-! ### The whole string -/

theorem utf8Groups_sound {fuel : Nat} {s : Bytes} (h : utf8Groups fuel s = true) :
    ∃ groups : List Bytes, s = groups.flatten ∧ ∀ g ∈ groups, IsUtf8Group g := by
  induction fuel generalizing s with
  | zero =>
    cases s with
    | nil => exact ⟨[], rfl, by simp⟩
    | cons b s => cases h
  | succ fuel ih =>
    cases s with
    | nil => exact ⟨[], rfl, by simp⟩
    | cons b s =>
      cases hstrip : stripGroup utf8Shapes (b :: s) with
      | none => simp [utf8Groups, hstrip] at h
      | some rest =>
        simp only [utf8Groups, hstrip] at h
        obtain ⟨g, hs, hg⟩ := stripGroup_sound hstrip
        obtain ⟨groups, rfl, hgroups⟩ := ih h
        exact ⟨g :: groups, hs, List.forall_mem_cons.2 ⟨hg, hgroups⟩⟩

theorem utf8Groups_flatten {groups : List Bytes} (h : ∀ g ∈ groups, IsUtf8Group g) {fuel : Nat}
    (hfuel : groups.flatten.length ≤ fuel) : utf8Groups fuel groups.flatten = true := by
  induction groups generalizing fuel with
  | nil => simp [utf8Groups]
  | cons g groups ih =>
    obtain ⟨hg, hgroups⟩ := List.forall_mem_cons.1 h
    have hstrip := stripGroup_utf8Shapes_append hg groups.flatten
    obtain ⟨b, g, rfl⟩ := List.exists_cons_of_ne_nil hg.ne_nil
    simp only [List.flatten_cons, List.cons_append, List.length_cons, List.length_append] at hfuel hstrip ⊢
    obtain ⟨fuel, rfl⟩ := Nat.exists_eq_add_one_of_ne_zero (show fuel ≠ 0 by omega)
    simp only [utf8Groups, hstrip]
    exact ih hgroups (by omega)

/-- Settles O9: each group is found whole at the head of the string, and has a byte, so that the length of the
string is fuel enough. -/
theorem utf8IsConcatenationOfShapes : Obligations.Utf8IsConcatenationOfShapes := fun _ =>
  ⟨utf8Groups_sound, fun ⟨_, hs, hgroups⟩ => hs ▸ utf8Groups_flatten hgroups le_rfl⟩

end Sys2Proof.Machine
end

section
/-! SUPPORT. What each received frame does in a connection that decodes (42_dispatch.md R180 to R191), one
equation for each frame and case, and the two guards of 60_exceptions.md R309. -/

namespace Sys2Proof.Machine

/-! ### The guards -/

theorem State.decoding_of_running {s : State} (hk : s.k.state = .opened ∨ s.k.state = .closing)
    (hd : s.d.state ≠ .failed) : s.decoding = true := (State.decoding_iff s).2 ⟨hk, hd⟩

theorem State.isOpen_of_closing {s : State} (hk : s.k.state = .closing) : s.isOpen = false := by
  simp [State.isOpen, hk]

/-- Only a continuation adds to what was received before (41_decoder.md R160). -/
theorem State.tooLarge_false_of_ne_cont {op : BitVec 4} {n : Nat} {s : State} (hop : op ≠ 0)
    (hn : n ≤ s.cfg.maxPayload) : s.tooLarge op n = false :=
  (State.tooLarge_false_iff _ _ _).2 ⟨hn, fun h => absurd h hop⟩

theorem receiveFrame_oversized {op : BitVec 4} {p : Bytes} {s : State} (dispatch : State → Outcome)
    (hd : s.decoding = true) (ht : s.tooLarge op p.length = true) :
    receiveFrame op p s dispatch = .next (raiseFail 1009 .payloadTooLarge s) := by
  simp [receiveFrame, hd, ht, payloadTooLarge]

/-- Every received frame runs under the guard, with its own opcode and payload. -/
theorem exec_eq_receiveFrame {i : Instr} (hi : i.received = true) :
    ∃ dispatch, ∀ s, exec i s = receiveFrame i.opcode i.payload s dispatch := by
  cases i with
  | cont fin _ _ p => exact ⟨_, fun s => show execCont fin p s = _ from rfl⟩
  | text fin _ _ p => exact ⟨_, fun s => show execText fin p s = _ from rfl⟩
  | binary fin _ _ p => exact ⟨_, fun s => show execBinary fin p s = _ from rfl⟩
  | close _ p => exact ⟨_, fun s => show execClose p s = _ from rfl⟩
  | ping _ p => exact ⟨_, fun s => show execPing p s = _ from rfl⟩
  | pong _ p => exact ⟨_, fun s => show execPong p s = _ from rfl⟩
  | txCont _ _ => cases hi
  | txText _ _ => cases hi
  | txBinary _ _ => cases hi
  | txClose _ => cases hi
  | txPing _ => cases hi
  | txPong _ => cases hi

/-- Every received frame over the limit fails, whatever its dispatch (R160, R309). -/
theorem exec_oversized {i : Instr} {s : State} (hi : i.received = true) (hd : s.decoding = true)
    (ht : s.tooLarge i.opcode i.payload.length = true) :
    exec i s = .next (raiseFail 1009 .payloadTooLarge s) := by
  obtain ⟨dispatch, hexec⟩ := exec_eq_receiveFrame hi
  rw [hexec, receiveFrame_oversized dispatch hd ht]

/-! ### Messages -/

section
variable {kind : MsgKind} {p : Bytes} {s : State}

theorem startMessage_interleaved (ha : s.a.active = true) (fin : Bool) :
    startMessage kind fin p s = raiseFail 1002 .protocolViolation s := by
  simp [startMessage, ha, protocolViolation]

theorem startMessage_whole (ha : s.a.active = false) : startMessage kind true p s = deliver kind p s := by
  simp [startMessage, ha]

theorem startMessage_first (ha : s.a.active = false) :
    startMessage kind false p s = { s with a := ⟨true, some kind, p⟩ } := by
  simp [startMessage, ha]

theorem deliver_illFormed (hkind : kind = .text) (hcheck : s.cfg.textUtf8Check = true)
    (hp : utf8Wellformed p = false) : deliver kind p s = raiseFail 1007 .invalidPayload s := by
  simp [deliver, hkind, hcheck, hp, invalidPayload]

theorem deliver_opened (hok : ¬(kind = .text ∧ s.cfg.textUtf8Check = true ∧ utf8Wellformed p = false))
    (hk : s.k.state = .opened) : deliver kind p s = { s with out := s.out ++ [.ev (.message kind p)] } := by
  rcases deliver_cases kind p s with ⟨hkind, hcheck, hp, -⟩ | ⟨-, h⟩ | ⟨hnk, -⟩
  · exact absurd ⟨hkind, hcheck, hp⟩ hok
  · exact h
  · exact absurd hk hnk

theorem deliver_notOpened (hok : ¬(kind = .text ∧ s.cfg.textUtf8Check = true ∧ utf8Wellformed p = false))
    (hk : s.k.state ≠ .opened) : deliver kind p s = s := by
  rcases deliver_cases kind p s with ⟨hkind, hcheck, hp, -⟩ | ⟨hopen, -⟩ | ⟨-, h⟩
  · exact absurd ⟨hkind, hcheck, hp⟩ hok
  · exact absurd hopen hk
  · exact h

/-- The text check as the statements about single frames put it. -/
theorem textCheck_passes
    (h : kind = .binary ∨ s.cfg.textUtf8Check = false ∨ utf8Wellformed p = true) :
    ¬(kind = .text ∧ s.cfg.textUtf8Check = true ∧ utf8Wellformed p = false) := by
  rintro ⟨hkind, hcheck, hp⟩
  simp [hkind, hcheck, hp] at h

end

/-! ### Frames within the limit -/

section
variable {fin : Bool} {form : LenForm} {key : Key} {p : Bytes} {s : State}
  (hd : s.decoding = true) (hp : p.length ≤ s.cfg.maxPayload)
include hd hp

theorem exec_text : exec (.text fin form key p) s = .next (startMessage .text fin p s) := by
  rw [exec, execText, receiveFrame_runs _ hd (State.tooLarge_false_of_ne_cont (by decide) hp)]

theorem exec_binary : exec (.binary fin form key p) s = .next (startMessage .binary fin p s) := by
  rw [exec, execBinary, receiveFrame_runs _ hd (State.tooLarge_false_of_ne_cont (by decide) hp)]

theorem exec_close_malformed (hparse : parseClose p = none) :
    exec (.close key p) s = .next (raiseFail 1002 .protocolViolation s) := by
  rw [exec, execClose, receiveFrame_runs _ hd (State.tooLarge_false_of_ne_cont (by decide) hp)]
  simp only [hparse, protocolViolation]

theorem exec_close {code : Option U16} {reason : Bytes} (hparse : parseClose p = some (code, reason)) :
    exec (.close key p) s = .next (s.closeReceived code reason) := by
  rw [exec, execClose, receiveFrame_runs _ hd (State.tooLarge_false_of_ne_cont (by decide) hp)]
  simp only [hparse]

theorem exec_ping : exec (.ping key p) s =
    if s.isOpen then .next ((s.txWrite (encodeFrame true 10 p)).emit (.ping p)) else .next s := by
  rw [exec, execPing, receiveFrame_runs _ hd (State.tooLarge_false_of_ne_cont (by decide) hp)]

theorem exec_pong : exec (.pong key p) s = if s.isOpen then .next (s.emit (.pong p)) else .next s := by
  rw [exec, execPong, receiveFrame_runs _ hd (State.tooLarge_false_of_ne_cont (by decide) hp)]

theorem exec_cont_unstarted (ha : s.a.active = false) :
    exec (.cont fin form key p) s = .next (raiseFail 1002 .protocolViolation s) := by
  rw [exec, execCont,
    receiveFrame_runs _ hd ((State.tooLarge_false_iff _ _ _).2 ⟨hp, by simp [ha]⟩)]
  simp [ha, protocolViolation]

variable (ha : s.a.active = true) (hsum : s.a.buf.length + p.length ≤ s.cfg.maxPayload)
include ha hsum

theorem exec_cont_more :
    exec (.cont false form key p) s = .next { s with a := { s.a with buf := s.a.buf ++ p } } := by
  rw [exec, execCont,
    receiveFrame_runs _ hd ((State.tooLarge_false_iff _ _ _).2 ⟨hp, fun _ _ => hsum⟩)]
  simp [ha]

theorem exec_cont_last {kind : MsgKind} (hkind : s.a.opcode = some kind) :
    exec (.cont true form key p) s = .next (deliver kind (s.a.buf ++ p) { s with a := .created }) := by
  rw [exec, execCont,
    receiveFrame_runs _ hd ((State.tooLarge_false_iff _ _ _).2 ⟨hp, fun _ _ => hsum⟩)]
  simp [ha, hkind]

end

end Sys2Proof.Machine
end

section
/-! SUPPORT. The statements about the dispatch of received frames (42_dispatch.md). -/

namespace Sys2Proof.Machine

/-! ### Where frames fail and what CLOSING suppresses -/

/-- Settles O26: the size check stands before every dispatch, and a message in progress before a new one. -/
theorem interleavedAndOversizedFramesFail : Obligations.InterleavedAndOversizedFramesFail := by
  intro fin form key p s hk hrun
  have hd := State.decoding_of_running hk hrun
  refine ⟨fun hp ha => ?_, fun hp i hi => ?_, fun ha hsum => ?_⟩
  · rw [exec_text hd hp, exec_binary hd hp, startMessage_interleaved ha, startMessage_interleaved ha]
    exact ⟨rfl, rfl⟩
  · have hframe : i.received = true ∧ i.payload = p := by
      simp only [List.mem_cons, List.not_mem_nil, or_false] at hi
      rcases hi with rfl | rfl | rfl | rfl | rfl | rfl <;> exact ⟨rfl, rfl⟩
    obtain ⟨hreceived, rfl⟩ := hframe
    exact exec_oversized hreceived hd ((State.tooLarge_iff _ _ _).2 (.inl hp))
  · exact exec_oversized rfl hd ((State.tooLarge_iff _ _ _).2 (.inr ⟨rfl, ha, hsum⟩))

/-- Settles O31: of the outcomes of a received frame, a failure and a close leave CLOSING, and any other has
outputs in OPEN only. -/
theorem closingSuppressesOutputs : Obligations.ClosingSuppressesOutputs := by
  intro i s t hk hi h ht
  rcases exec_received hi h with ⟨-, rfl⟩ | ⟨-, hout⟩
  · rfl
  · cases hout with
    | failed a' code kind _ _ => simp [raiseFail_eq] at ht
    | runs a' outs _ _ hsilent => simp [hsilent (by simp [hk])]
    | closes code reason => simp [State.closeReceived_eq] at ht

/-! ### Data frames -/

/-- Settles O24: the two results of the text check, and delivery in OPEN and elsewhere. -/
theorem deliverHandsOffTheMessage : Obligations.DeliverHandsOffTheMessage :=
  fun _ _ _ => ⟨deliver_illFormed, fun hok => ⟨deliver_opened hok, deliver_notOpened hok⟩⟩

/-- Settles O23: a first frame is delivered at once or starts the accumulator. -/
theorem textAndBinaryFrames : Obligations.TextAndBinaryFrames := by
  intro form key p s hk hrun hp ha
  have hd := State.decoding_of_running hk hrun
  have htext : exec (.text true form key p) s = .next (deliver .text p s) := by
    rw [exec_text hd hp, startMessage_whole ha]
  have hbinary : exec (.binary true form key p) s = .next (deliver .binary p s) := by
    rw [exec_binary hd hp, startMessage_whole ha]
  refine ⟨htext, hbinary, ?_, ?_, fun hopen hcheck => ?_, fun hopen => ?_⟩
  · rw [exec_text hd hp, startMessage_first ha]
  · rw [exec_binary hd hp, startMessage_first ha]
  · rw [htext, deliver_opened (textCheck_passes (.inr hcheck)) hopen]
  · rw [hbinary, deliver_opened (textCheck_passes (.inl rfl)) hopen]

/-- Settles O25: a continuation without a message, one more fragment, and the last one. -/
theorem continuationFrames : Obligations.ContinuationFrames := by
  intro form key p s hk hrun hp
  have hd := State.decoding_of_running hk hrun
  refine ⟨fun ha fin => exec_cont_unstarted hd hp ha, fun ha hsum =>
    ⟨exec_cont_more hd hp ha hsum, fun kind hkind => ?_⟩⟩
  have hlast := exec_cont_last (form := form) (key := key) hd hp ha hsum hkind
  exact ⟨hlast, fun hopen hcheck =>
    hlast.trans (congrArg _
      (deliver_opened (s := { s with a := .created }) (textCheck_passes hcheck) hopen))⟩

/-! ### Control frames -/

/-- Settles O27: the three lengths of a close payload. -/
theorem closePayloadParse : Obligations.ClosePayloadParse := by
  refine ⟨rfl, fun _ => rfl, fun b0 b1 reason => ?_⟩
  have hcode : be [b0, b1] = b0.toNat * 256 + b1.toNat := by simp [be_cons]
  exact ⟨fun h => by simp [parseClose, h, hcode], fun h => by simp [parseClose, h]⟩

/-- Settles O28: the malformed payload, and the close with and without an echo. -/
theorem closeFrames : Obligations.CloseFrames := by
  intro key p s hk hrun hp
  have hd := State.decoding_of_running hk hrun
  refine ⟨exec_close_malformed hd hp, fun code reason hparse => ?_⟩
  rw [exec_close hd hp hparse, State.closeReceived_eq]
  refine ⟨fun hsent => ?_, fun hsent => ?_⟩
  · rw [hsent]
    cases code <;> rfl
  · rw [hsent, closeOutputs, if_pos rfl, List.nil_append]

/-- Settles O29: the pong and the event in OPEN, nothing in CLOSING. -/
theorem pingFrames : Obligations.PingFrames := by
  intro key p s hrun hp
  refine ⟨fun hk => ?_, fun hk => ?_⟩
  · rw [exec_ping (State.decoding_of_running (.inl hk) hrun) hp, if_pos ((State.isOpen_iff s).2 hk)]
    simp [State.output]
  · simp [exec_ping (State.decoding_of_running (.inr hk) hrun) hp, State.isOpen_of_closing hk]

/-- Settles O30: the event in OPEN, nothing in CLOSING. -/
theorem pongFrames : Obligations.PongFrames := by
  intro key p s hrun hp
  refine ⟨fun hk => ?_, fun hk => ?_⟩
  · rw [exec_pong (State.decoding_of_running (.inl hk) hrun) hp, if_pos ((State.isOpen_iff s).2 hk)]
    rfl
  · simp [exec_pong (State.decoding_of_running (.inr hk) hrun) hp, State.isOpen_of_closing hk]

end Sys2Proof.Machine
end

section
/-! SUPPORT. The bytes of a transmitted frame (43_encoder.md R200, R201), and the received frame they become with
MASK set, a key inserted and the payload masked (R216). -/

namespace Sys2Proof

/-! ### The shortest length form -/

theorem LenForm.shortest_eq_len16 {n : Nat} (hlo : 125 < n) (hhi : n ≤ 65535) :
    LenForm.shortest n = .len16 := by
  rw [LenForm.shortest, if_neg hlo.not_ge, if_pos hhi]

theorem LenForm.shortest_eq_len64 {n : Nat} (hlo : 65535 < n) : LenForm.shortest n = .len64 := by
  rw [LenForm.shortest, if_neg (by omega), if_neg hlo.not_ge]

/-- Settles O7: the head of the frame in each of the three forms. -/
theorem encodeFrameLayout : Obligations.EncodeFrameLayout := by
  intro fin op p _ _
  refine ⟨fun h7 => ?_, fun hlo hhi => ?_, fun hlo => ?_⟩ <;> rw [encodeFrame_eq]
  · rw [(LenForm.shortest_eq_len7_iff _).2 h7]
    simp [frameHead, headerByte0, headerByte1, LenForm.field, LenForm.ext]
  · rw [LenForm.shortest_eq_len16 hlo hhi]
    rfl
  · rw [LenForm.shortest_eq_len64 hlo]
    rfl

/-! ### From a transmitted to a received frame -/

/-- Setting bit 7 of the second byte sets MASK and leaves LEN7. -/
theorem headerByte1_or_mask {k : Nat} (hk : k < 128) :
    headerByte1 false k ||| 0x80#8 = headerByte1 true k := by
  rw [← BitVec.toNat_inj, BitVec.toNat_or, headerByte1_toNat false hk, headerByte1_toNat true hk,
    Nat.or_comm]
  simpa using (Nat.two_pow_add_eq_or_of_lt (i := 7) hk 1).symm

/-- The fields the encoder takes are legal in the shortest form. -/
theorem legalFields_shortest {fin : Bool} {op : BitVec 4} {n : Nat} (hop : legalOpcode op = true)
    (hn : n < 2 ^ 63) (hc : controlOpcode op = true → fin = true ∧ n ≤ 125) :
    LegalFields fin op (.shortest n) n :=
  ⟨hop, (LenForm.shortest_fits_iff n).2 hn, by rwa [LenForm.shortest_eq_len7_iff]⟩

/-- The frame built from legal fields has their FIN bit, which a control frame does not carry. -/
theorem rxInstr_fin {fin : Bool} {op : BitVec 4} {form : LenForm} {key : Key} {p : Bytes} {i : Instr}
    (hi : rxInstr op fin form key p = some i) (hf : LegalFields fin op form p.length) : i.fin = fin := by
  obtain ⟨-, -, hc⟩ := hf
  unfold rxInstr at hi
  (repeat' split at hi) <;> cases hi <;> subst op
  -- CONT, TEXT, BINARY
  iterate 3 rfl
  -- CLOSE, PING, PONG
  all_goals exact (hc rfl).1.symm

/-- Settles O8: the two frames have the same head but for MASK, and the received one is `rxFrame` of the same
fields. -/
theorem maskedTransmittedFrameIsReceivedFrame : Obligations.MaskedTransmittedFrameIsReceivedFrame := by
  intro fin op p key hop hp hc
  have hfields := legalFields_shortest hop hp hc
  have hfield := LenForm.field_lt hfields.fits
  obtain ⟨i, hi⟩ := Option.isSome_iff_exists.1
    ((Machine.rxInstr_isSome op fin (.shortest p.length) key p).trans hop)
  obtain ⟨hrx, hopcode, hpayload⟩ := Machine.rxInstr_received hi
  refine ⟨headerByte0 fin op, headerByte1 false ((LenForm.shortest p.length).field p.length),
    (LenForm.shortest p.length).ext p.length, i, encodeFrame_eq fin op p, ?_, ?_, ?_, hrx,
    rxInstr_fin hi hfields, hopcode, hpayload⟩
  · exact ((eq_headerByte0_iff _ 0 fin op).1 rfl).1
  · exact ((eq_headerByte1_iff 0 _ false hfield).1 rfl).1
  · refine decode_eq_ok_iff.2 (.inl (decodeRx_eq_ok_iff_rxFrame.2 ⟨fin, op, _, key, p, hi, hfields, ?_⟩))
    rw [headerByte1_or_mask hfield, rxFrame]
    simp

end Sys2Proof
end

section
/-! SUPPORT. What each transmitted frame does in OPEN and beyond its limit (43_encoder.md R202 to R210, R214),
one equation for all of them but TX_CLOSE. -/

namespace Sys2Proof.Machine

theorem sendFits_iff (p : Bytes) : sendFits p = true ↔ p.length < 2 ^ 63 := decide_eq_true_iff

theorem controlFits_iff (p : Bytes) : controlFits p = true ↔ p.length ≤ 125 := decide_eq_true_iff

theorem transmitFrame_written {s : State} (hk : s.k.state = .opened) (fin : Bool) (op : BitVec 4) (p : Bytes)
    {fits : Bool} (hfits : fits = true) :
    transmitFrame fin op p fits s = .next (s.txWrite (encodeFrame fin op p)) := by
  rw [transmitFrame, (State.isOpen_iff s).2 hk, hfits]
  rfl

theorem transmitFrame_unfit (fin : Bool) (op : BitVec 4) (p : Bytes) {fits : Bool} (hfits : fits = false)
    (s : State) : transmitFrame fin op p fits s = .next s := by
  simp [transmitFrame, hfits]

/-- A transmitted frame within its limit that does not start the closing handshake. -/
structure PlainTransmitted (i : Instr) : Prop where
  transmitted : i.received = false
  notClose : ∀ q, i ≠ .txClose q
  wf : i.wf = true

/-- In OPEN such a frame is written, and nothing else happens. -/
theorem exec_plainTransmitted {i : Instr} {s : State} (hi : PlainTransmitted i) (hk : s.k.state = .opened) :
    exec i s = .next (s.txWrite (encode i)) := by
  obtain ⟨htx, hclose, hwf⟩ := hi
  cases i with
  | txCont | txText | txBinary | txPing | txPong => exact transmitFrame_written hk _ _ _ hwf
  | txClose q => exact absurd rfl (hclose q)
  | cont | text | binary | close | ping | pong => cases htx

/-- TX_CLOSE in OPEN is the local close (44_connection.md R237). -/
theorem exec_txClose {p : Bytes} {s : State} (hk : s.k.state = .opened) (hp : p.length ≤ 125)
    (hparse : parseClose p ≠ none) : exec (.txClose p) s = .next (s.localClose p) := by
  have hguard : (s.isOpen && controlFits p && (parseClose p).isSome) = true := by
    rw [(State.isOpen_iff s).2 hk, (controlFits_iff p).2 hp, Option.isSome_iff_ne_none.2 hparse]
    rfl
  exact if_pos hguard

/-- A transmitted frame beyond its limit has no effect (R214). -/
theorem exec_unfit {i : Instr} (hi : i.received = false) (hwf : i.wf = false) (s : State) :
    exec i s = .next s := by
  cases i with
  | txCont | txText | txBinary | txPing | txPong => exact transmitFrame_unfit _ _ _ hwf s
  | txClose p =>
    have hfits : controlFits p = false := hwf
    simp [exec, execTxClose, hfits]
  | cont | text | binary | close | ping | pong => cases hi

/-- Settles O32: the three data frames are well-formed below `2 ^ 63` bytes, and so written. -/
theorem transmittedDataFramesAreWritten : Obligations.TransmittedDataFramesAreWritten := by
  intro fin p s hk hp
  have hfits := (sendFits_iff p).2 hp
  exact ⟨exec_plainTransmitted (i := .txText fin p) ⟨rfl, nofun, hfits⟩ hk,
    exec_plainTransmitted (i := .txBinary fin p) ⟨rfl, nofun, hfits⟩ hk,
    exec_plainTransmitted (i := .txCont fin p) ⟨rfl, nofun, hfits⟩ hk⟩

/-- Settles O33: a ping or pong of at most 125 bytes is well-formed, and so written; the close frame is the
local close. -/
theorem transmittedControlFramesAreWritten : Obligations.TransmittedControlFramesAreWritten := by
  intro p s hk hp
  have hfits := (controlFits_iff p).2 hp
  exact ⟨exec_plainTransmitted (i := .txPing p) ⟨rfl, nofun, hfits⟩ hk,
    exec_plainTransmitted (i := .txPong p) ⟨rfl, nofun, hfits⟩ hk,
    fun hparse => by rw [exec_txClose hk hp hparse, State.localClose_eq]⟩

end Sys2Proof.Machine
end

section
/-! SUPPORT. The steps on the encoder's port and on the commands that send one frame (43_encoder.md R206, R208,
R209), and the refused operands (R214). -/

namespace Sys2Proof.Machine

/-- The step on the oldest input handles it in the state without it. -/
theorem step_eq_handleInput {s : State} {input : Input} {rest : List Input}
    (hinputs : s.inputs = input :: rest) :
    step s = handleInput input { s with inputs := rest } := by
  rw [step, takeInput, hinputs]

/-! ### The encoder's port -/

theorem txFrameInput_frame {bytes : Bytes} {i : Instr} (h : decode bytes = .ok (i, []))
    (hi : i.received = false) (s : State) : txFrameInput bytes s = exec i s := by
  rw [txFrameInput, decodeTx_of_decode h hi]

theorem txFrameInput_noFrame {bytes : Bytes}
    (h : ∀ i : Instr, i.received = false → decode bytes ≠ .ok (i, [])) (s : State) :
    txFrameInput bytes s = .next s := by
  unfold txFrameInput
  split
  · obtain ⟨hi, hdecode⟩ := decode_of_decodeTx ‹_›
    exact absurd hdecode (h _ hi)
  · rfl
  · rfl

/-- Settles O22: at the port stand exactly one transmitted frame or other bytes. -/
theorem stepRunsTheTransmittedFrame : Obligations.StepRunsTheTransmittedFrame := by
  intro s bytes rest hinputs
  rw [step_eq_handleInput hinputs]
  exact ⟨fun i hdecode hi => txFrameInput_frame hdecode hi _, fun h => txFrameInput_noFrame h _⟩

/-! ### SEND_MESSAGE -/

theorem sendKind_eq_none_iff (op : BitVec 4) : sendKind op = none ↔ op ≠ 1 ∧ op ≠ 2 := by
  unfold sendKind
  split
  · simp_all
  · split <;> simp_all

/-- The opcodes text and binary name a kind of message. -/
theorem exists_sendKind {op : BitVec 4} (hop : op = 1 ∨ op = 2) : ∃ kind, sendKind op = some kind := by
  rcases hop with rfl | rfl <;> exact ⟨_, rfl⟩

/-- The frame that opens a message is a data frame with the opcode of the message. -/
theorem messageFrame_opcode {op : BitVec 4} {kind : MsgKind} (hkind : sendKind op = some kind) (fin : Bool)
    (p : Bytes) : (messageFrame kind fin p).opcode = op := by
  unfold sendKind at hkind
  (repeat' split at hkind) <;> cases hkind <;> subst op <;> rfl

theorem messageFrame_plainTransmitted (kind : MsgKind) (fin : Bool) {p : Bytes} (hp : p.length < 2 ^ 63) :
    PlainTransmitted (messageFrame kind fin p) := by
  have hfits := (sendFits_iff p).2 hp
  cases kind <;> exact ⟨rfl, nofun, hfits⟩

theorem txCont_plainTransmitted (fin : Bool) {p : Bytes} (hp : p.length < 2 ^ 63) :
    PlainTransmitted (.txCont fin p) :=
  ⟨rfl, nofun, (sendFits_iff p).2 hp⟩

theorem encode_messageFrame {op : BitVec 4} {kind : MsgKind} (hkind : sendKind op = some kind) (fin : Bool)
    (p : Bytes) : encode (messageFrame kind fin p) = encodeFrame fin op p := by
  rw [← messageFrame_opcode hkind fin p]
  cases kind <;> rfl

theorem encode_txCont (fin : Bool) (p : Bytes) : encode (.txCont fin p) = encodeFrame fin 0 p := rfl

/-- A message the block can send runs its frames: one without fragmentation, else its fragments. -/
theorem sendMessage_runs {op : BitVec 4} {kind : MsgKind} {p : Bytes} {s : State}
    (hkind : sendKind op = some kind) (hk : s.k.state = .opened) (hp : p.length < 2 ^ 63) :
    sendMessage op p none s = exec (messageFrame kind true p) s ∧
    ∀ f, 1 ≤ f → sendMessage op p (some f) s = execAll (fragments kind p f) s := by
  have hguard : (s.isOpen && sendFits p) = true := by
    rw [(State.isOpen_iff s).2 hk, (sendFits_iff p).2 hp]
    rfl
  refine ⟨by simp only [sendMessage, hkind, if_pos hguard], fun f hf => ?_⟩
  simp only [sendMessage, hkind, if_pos hguard, if_neg (Nat.one_le_iff_ne_zero.1 hf)]

theorem sendMessage_refused {op : BitVec 4} {p : Bytes} {frag : Option Nat}
    (h : op ≠ 1 ∧ op ≠ 2 ∨ frag = some 0 ∨ 2 ^ 63 ≤ p.length) (s : State) :
    sendMessage op p frag s = .next s := by
  unfold sendMessage
  split
  · rfl
  next kind hkind =>
    split
    next hguard =>
      rw [Bool.and_eq_true, sendFits_iff] at hguard
      rcases h with hop | rfl | hlong
      · rw [(sendKind_eq_none_iff op).2 hop] at hkind
        cases hkind
      · rfl
      · exact absurd hguard.2 hlong.not_gt
    · rfl

/-- A message without fragmentation is one write (R206). -/
theorem sendMessage_whole {op : BitVec 4} {p : Bytes} {s : State} (hop : op = 1 ∨ op = 2)
    (hk : s.k.state = .opened) (hp : p.length < 2 ^ 63) :
    sendMessage op p none s = .next (s.txWrite (encodeFrame true op p)) := by
  obtain ⟨kind, hkind⟩ := exists_sendKind hop
  rw [(sendMessage_runs hkind hk hp).1, exec_plainTransmitted (messageFrame_plainTransmitted kind true hp) hk,
    encode_messageFrame hkind]

/-- Settles O37: the message's one frame is written, unless its length is refused. -/
theorem sendMessageWritesOneFrame : Obligations.SendMessageWritesOneFrame := by
  intro s op p rest hk hop hinputs
  rw [step_eq_handleInput hinputs]
  exact ⟨sendMessage_whole (s := { s with inputs := rest }) hop hk,
    fun hlong => sendMessage_refused (frag := none) (.inr (.inr hlong)) _⟩

/-! ### Control commands -/

theorem closeCommand_refused {reason : Bytes} (h : 123 < reason.length ∨ utf8Wellformed reason = false)
    (code : U16) (s : State) : closeCommand code reason s = .next s := by
  have hguard : ¬(decide (reason.length ≤ 123) && utf8Wellformed reason) = true := by
    rw [Bool.and_eq_true, decide_eq_true_iff, ← Nat.not_lt, ← Bool.not_eq_false, ← not_or, not_not]
    exact h
  exact if_neg hguard

/-- Settles O40: SEND_PING and SEND_PONG run one control frame, written or unfit; the other commands are refused
by their operands. -/
theorem controlCommandsAndRefusedOperands : Obligations.ControlCommandsAndRefusedOperands := by
  intro s p rest
  refine ⟨fun hk hp => ?_, fun hlong => ?_, fun code h => ?_, fun op frag h => ?_⟩
  · have hfits := (controlFits_iff p).2 hp
    exact ⟨exec_plainTransmitted (i := .txPing p) ⟨rfl, nofun, hfits⟩ hk,
      exec_plainTransmitted (i := .txPong p) ⟨rfl, nofun, hfits⟩ hk⟩
  · have hunfit : controlFits p = false := by rwa [← Bool.not_eq_true, controlFits_iff, Nat.not_le]
    exact ⟨exec_unfit (i := .txPing p) rfl hunfit _, exec_unfit (i := .txPong p) rfl hunfit _⟩
  · exact closeCommand_refused h code _
  · exact sendMessage_refused h _

end Sys2Proof.Machine
end

section
/-! SUPPORT. SEND_MESSAGE in fragments (43_encoder.md R207): the pieces of a message, the frames that carry them,
and their writes in one step. -/

namespace Sys2Proof.Machine

/-! ### The pieces of a message -/

/-- The first `k` pieces together are the first `k * f` bytes. -/
theorem flatten_fragmentPieces (p : Bytes) (f k : Nat) :
    ((List.range k).map (fragmentPiece p f)).flatten = p.take (k * f) := by
  induction k with
  | zero => simp
  | succ k ih =>
    rw [List.range_succ, List.map_append, List.flatten_append, ih, Nat.succ_mul, List.take_add]
    simp [fragmentPiece]

theorem fragmentPiece_length (p : Bytes) (f k : Nat) :
    (fragmentPiece p f k).length = min f (p.length - k * f) := by
  simp [fragmentPiece]

/-- A message longer than a fragment has `m + 2` fragments: `m + 1` do not hold it, one more does. -/
theorem exists_fragmentCount {n f : Nat} (hf : 1 ≤ f) (hn : f < n) :
    ∃ m, (n + f - 1) / f = m + 2 ∧ (m + 1) * f < n ∧ n ≤ (m + 1) * f + f := by
  obtain ⟨m, hm⟩ : ∃ m, (n + f - 1) / f = m + 2 :=
    Nat.exists_eq_add_of_le' ((Nat.le_div_iff_mul_le hf).2 (by omega))
  have hlo : (m + 2) * f ≤ n + f - 1 := (Nat.le_div_iff_mul_le hf).1 hm.ge
  have hhi : n + f - 1 < (m + 3) * f := (Nat.div_lt_iff_lt_mul hf).1 (by omega)
  have hlast : (m + 2) * f = (m + 1) * f + f := Nat.succ_mul _ _
  have hnext : (m + 3) * f = (m + 2) * f + f := Nat.succ_mul _ _
  exact ⟨m, hm, by omega, by omega⟩

/-- The message `p` cut in pieces of `f` bytes, the last of 1 to `f`. -/
structure CutInPieces (p : Bytes) (f : Nat) (first : Bytes) (middle : List Bytes) (last : Bytes) : Prop where
  whole : p = first ++ middle.flatten ++ last
  first : first.length = f
  middle : ∀ m ∈ middle, m.length = f
  last_pos : 0 < last.length
  last_le : last.length ≤ f

/-- The frames of a message longer than a fragment carry the pieces it is cut in. -/
theorem fragments_cut {p : Bytes} {f : Nat} (hf : 1 ≤ f) (hp : f < p.length) (kind : MsgKind) :
    ∃ first middle last, CutInPieces p f first middle last ∧
      fragments kind p f =
        messageFrame kind false first :: middle.map (.txCont false) ++ [.txCont true last] := by
  obtain ⟨m, hm, hlo, hhi⟩ := exists_fragmentCount hf hp
  have hfull : ∀ k ≤ m, (fragmentPiece p f k).length = f := by
    intro k hk
    have hle : (k + 1) * f ≤ (m + 1) * f := Nat.mul_le_mul_right f (by omega)
    rw [Nat.succ_mul] at hle
    rw [fragmentPiece_length]
    omega
  have hlast : (fragmentPiece p f (m + 1)).length = p.length - (m + 1) * f := by
    rw [fragmentPiece_length]
    omega
  refine ⟨fragmentPiece p f 0, (List.range m).map (fun k => fragmentPiece p f (k + 1)),
    fragmentPiece p f (m + 1), ⟨?_, hfull 0 m.zero_le, ?_, by omega, by omega⟩, ?_⟩
  · have hrest : fragmentPiece p f (m + 1) = p.drop ((m + 1) * f) :=
      List.take_of_length_le (by rw [List.length_drop]; omega)
    have hpieces := flatten_fragmentPieces p f (m + 1)
    rw [List.range_succ_eq_map, List.map_cons, List.map_map, List.flatten_cons] at hpieces
    calc p = p.take ((m + 1) * f) ++ p.drop ((m + 1) * f) := (List.take_append_drop _ _).symm
      _ = _ := by rw [← hpieces, hrest]; rfl
  · intro piece hpiece
    obtain ⟨k, hk, rfl⟩ := List.mem_map.1 hpiece
    exact hfull (k + 1) (List.mem_range.1 hk)
  · rw [fragments, if_neg hp.not_ge]
    simp only [hm, List.map_map]
    rfl

/-! ### The writes of a list of frames -/

/-- In OPEN frames that are each just written are written one after another. -/
theorem execAll_plainTransmitted {is : List Instr} {s : State} (his : ∀ i ∈ is, PlainTransmitted i)
    (hk : s.k.state = .opened) :
    execAll is s = .next { s with out := s.out ++ is.map (fun i => .txWrite (encode i)) } := by
  induction is generalizing s with
  | nil => simp [execAll]
  | cons i is ih =>
    rw [execAll, exec_plainTransmitted (his i List.mem_cons_self) hk]
    have hrest := ih (s := s.txWrite (encode i)) (fun j hj => his j (List.mem_cons_of_mem i hj)) hk
    simpa [State.output] using hrest

theorem fragments_plainTransmitted {p : Bytes} (hp : p.length < 2 ^ 63) (kind : MsgKind) (f : Nat) :
    ∀ i ∈ fragments kind p f, PlainTransmitted i := by
  have hpiece : ∀ k, (fragmentPiece p f k).length < 2 ^ 63 := fun k => by
    rw [fragmentPiece_length]
    omega
  unfold fragments
  split
  · simpa using messageFrame_plainTransmitted kind true hp
  · intro i hi
    simp only [List.mem_append, List.mem_cons, List.mem_map, List.not_mem_nil, or_false] at hi
    rcases hi with (rfl | ⟨k, -, rfl⟩) | rfl
    · exact messageFrame_plainTransmitted kind false (hpiece 0)
    · exact txCont_plainTransmitted false (hpiece (k + 1))
    · exact txCont_plainTransmitted true (hpiece _)

/-- Settles O38: the step writes the frames of the message, which are its one frame or those of the pieces it is
cut in. -/
theorem fragmentedSendWritesThePieces : Obligations.FragmentedSendWritesThePieces := by
  intro s op p f rest hk hop hf hp hinputs
  obtain ⟨kind, hkind⟩ := exists_sendKind hop
  have hstep : step s = .next { s with
      inputs := rest
      out := s.out ++ (fragments kind p f).map (fun i => .txWrite (encode i)) } := by
    rw [step_eq_handleInput hinputs]
    exact ((sendMessage_runs (s := { s with inputs := rest }) hkind hk hp).2 f hf).trans
      (execAll_plainTransmitted (fragments_plainTransmitted hp kind f) hk)
  rw [hstep]
  refine ⟨fun hshort => ?_, fun hlong => ?_⟩
  · simp [fragments, hshort, encode_messageFrame hkind]
  · obtain ⟨first, middle, last, hcut, hframes⟩ := fragments_cut hf hlong kind
    refine ⟨first, last, middle, hcut.whole, hcut.first, hcut.middle, hcut.last_pos, hcut.last_le, ?_⟩
    simp [hframes, encode_messageFrame hkind, encode_txCont, Function.comp_def]

end Sys2Proof.Machine
end

section
/-! SUPPORT. The cells of the table 44_connection.md R230: each input event in the connection states where it has
no effect (decision D23), and what socket end, transport error, timer expiry, PAUSE and RESUME do elsewhere. -/

namespace Sys2Proof.Machine

/-! ### Inputs without effect -/

theorem hsRequest_notConnecting {s : State} (hk : s.k.state ≠ .connecting) (method : Bytes)
    (headers : Headers) : hsRequest method headers s = .next s := by
  unfold hsRequest
  split
  · exact absurd ‹_› hk
  all_goals rfl

theorem rxEnd_closed {s : State} (hk : s.k.state = .closed) : rxEnd s = .next s := by
  simp only [rxEnd, hk]

theorem rxError_closed {s : State} (hk : s.k.state = .closed) : rxError s = .next s := by
  simp only [rxError, hk]

theorem timerExpire_idle {s : State} (h : s.k.state ≠ .closing ∨ s.k.timerArmed = false) :
    timerExpire s = .next s := by
  unfold timerExpire
  split
  case h_3 hk => exact if_neg (by simpa [hk] using h)
  all_goals rfl

theorem pauseResume_idle {s : State} (hk : s.k.state = .connecting ∨ s.k.state = .closed) (level : Bool) :
    pauseResume level s = .next s := by
  rcases hk with hk | hk <;> simp only [pauseResume, hk]

/-- A transmitted frame has no effect outside OPEN (R236). -/
theorem exec_transmitted_notOpened {i : Instr} {s : State} (hi : i.received = false)
    (hk : s.k.state ≠ .opened) : exec i s = .next s := by
  have hopen : s.isOpen = false := by rwa [← Bool.not_eq_true, State.isOpen_iff]
  have hplain : ∀ fin op p fits, transmitFrame fin op p fits s = .next s := fun fin op p fits => by
    simp [transmitFrame, hopen]
  cases i with
  | txCont | txText | txBinary | txPing | txPong => exact hplain _ _ _ _
  | txClose p => simp [exec, execTxClose, hopen]
  | cont | text | binary | close | ping | pong => cases hi

theorem sendMessage_notOpened {s : State} (hk : s.k.state ≠ .opened) (op : BitVec 4) (p : Bytes)
    (frag : Option Nat) : sendMessage op p frag s = .next s := by
  have hopen : s.isOpen = false := by rwa [← Bool.not_eq_true, State.isOpen_iff]
  unfold sendMessage
  split
  · rfl
  · exact if_neg (by simp [hopen])

theorem closeCommand_notOpened {s : State} (hk : s.k.state ≠ .opened) (code : U16) (reason : Bytes) :
    closeCommand code reason s = .next s := by
  unfold closeCommand
  split
  · exact exec_transmitted_notOpened rfl hk
  · rfl

theorem txFrameInput_notOpened {s : State} (hk : s.k.state ≠ .opened) (bytes : Bytes) :
    txFrameInput bytes s = .next s := by
  unfold txFrameInput
  split
  · exact exec_transmitted_notOpened (decode_of_decodeTx ‹_›).1 hk
  all_goals rfl

/-- Settles O41: each group of cells by the lemma about its input event. -/
theorem noEffectCells : Obligations.NoEffectCells := by
  intro s input rest hinputs hcell
  rw [step_eq_handleInput hinputs]
  rcases hcell with ⟨⟨m, h, rfl⟩, hk⟩ | ⟨⟨b, rfl⟩, hk⟩ | ⟨rfl | rfl, hk⟩ | ⟨rfl, hk⟩ |
    ⟨⟨o, p, f, rfl⟩ | ⟨p, rfl⟩ | ⟨p, rfl⟩ | ⟨c, r, rfl⟩, hk⟩ | ⟨rfl | rfl, hk⟩
  · exact hsRequest_notConnecting (s := { s with inputs := rest }) hk m h
  · exact rxChunk_idle (s := { s with inputs := rest }) (by rcases hk with hk | hk <;> simp [hk]) b
  · exact rxEnd_closed (s := { s with inputs := rest }) hk
  · exact rxError_closed (s := { s with inputs := rest }) hk
  · exact timerExpire_idle (s := { s with inputs := rest }) hk
  · exact sendMessage_notOpened (s := { s with inputs := rest }) hk o p f
  · exact exec_transmitted_notOpened (i := .txPing p) (s := { s with inputs := rest }) rfl hk
  · exact exec_transmitted_notOpened (i := .txPong p) (s := { s with inputs := rest }) rfl hk
  · exact closeCommand_notOpened (s := { s with inputs := rest }) hk c r
  · exact pauseResume_idle (s := { s with inputs := rest }) hk true
  · exact pauseResume_idle (s := { s with inputs := rest }) hk false

/-- Settles O45: every input event but the one at the encoder's port has a cell without effect in CLOSED, and a
transmitted frame has none outside OPEN. -/
theorem closedIsTerminal : Obligations.ClosedIsTerminal := by
  intro s hk
  rcases step_cases s with ⟨hnil, hstep⟩ | ⟨input, rest, hcons, hstep⟩
  · rw [hstep, hnil, List.tail_nil, ← hnil]
  · rw [hcons, List.tail_cons]
    cases input with
    | txFrame bytes =>
      rw [hstep]
      exact txFrameInput_notOpened (s := { s with inputs := rest }) (by simp [hk]) bytes
    | hsRequest | rxChunk | rxEnd | rxError | timerExpire | sendMessage | sendPing | sendPong | close
      | pause | resume => exact noEffectCells s _ rest hcons (by simp [hk])

/-! ### Socket, timer and backpressure -/

theorem rxEnd_connecting {s : State} (hk : s.k.state = .connecting) : rxEnd s = .next s.enterClosed := by
  simp only [rxEnd, hk]

theorem rxError_connecting {s : State} (hk : s.k.state = .connecting) : rxError s = .next s.enterClosed := by
  simp only [rxError, hk]

section
variable {s : State} (hk : s.k.state = .opened ∨ s.k.state = .closing)
include hk

theorem rxEnd_running : rxEnd s = .next s.txEnd.enterClosed := by
  rcases hk with hk | hk <;> simp only [rxEnd, hk]

theorem rxError_running : rxError s = .next (s.emit (.error .transportError)).enterClosed := by
  rcases hk with hk | hk <;> simp only [rxError, hk]

theorem pauseResume_running (level : Bool) : pauseResume level s = .next (drivePause level s) := by
  rcases hk with hk | hk <;> simp only [pauseResume, hk]

end

theorem timerExpire_armed {s : State} (hk : s.k.state = .closing) (harmed : s.k.timerArmed = true) :
    timerExpire s = .next s.txEnd.enterClosed := by
  simp only [timerExpire, hk, if_pos harmed]

/-- The level is driven, and only a change of it is put out. -/
theorem drivePause_eq (level : Bool) (s : State) :
    drivePause level s = { s with
      k := { s.k with paused := level }
      out := s.out ++ (if s.k.paused = level then [] else [.rxPause level]) } := by
  unfold drivePause
  split
  next hsame => simp [← hsame]
  next => rfl

/-- Settles O42: each input event by its equation in the given connection state. -/
theorem socketTimerAndBackpressureInputs : Obligations.SocketTimerAndBackpressureInputs := by
  intro s rest
  refine ⟨fun hk => ⟨rxEnd_running (s := { s with inputs := rest }) hk,
      rxError_running (s := { s with inputs := rest }) hk, fun level => ?_⟩,
    fun hk => ⟨rxEnd_connecting (s := { s with inputs := rest }) hk,
      rxError_connecting (s := { s with inputs := rest }) hk⟩,
    fun hk harmed => timerExpire_armed (s := { s with inputs := rest }) hk harmed⟩
  have hstep : step { s with inputs := (if level then Input.pause else Input.resume) :: rest } =
      pauseResume level { s with inputs := rest } := by cases level <;> rfl
  rw [hstep, pauseResume_running (s := { s with inputs := rest }) hk, drivePause_eq]

end Sys2Proof.Machine
end

section
/-! SUPPORT. The local close (44_connection.md R237) and the timer (R244): what arms it, and that no path into
CLOSED leaves it armed. -/

namespace Sys2Proof.Machine

/-! ### The command CLOSE -/

/-- A code and a well-formed reason are a close payload (43_encoder.md R211). -/
theorem parseClose_codeBytes {reason : Bytes} (hutf8 : utf8Wellformed reason = true) (code : U16) :
    parseClose (codeBytes code ++ reason) ≠ none := by
  obtain ⟨b0, b1, hcode⟩ := List.length_eq_two.1 (toBe_length 2 code.toNat)
  rw [codeBytes, hcode]
  simp [parseClose, hutf8]

theorem closeCommand_opened {s : State} {reason : Bytes} (hk : s.k.state = .opened)
    (hlen : reason.length ≤ 123) (hutf8 : utf8Wellformed reason = true) (code : U16) :
    closeCommand code reason s = .next (s.localClose (codeBytes code ++ reason)) := by
  have hfits : (codeBytes code ++ reason).length ≤ 125 := by
    rw [List.length_append, codeBytes, toBe_length]
    omega
  rw [closeCommand, if_pos (by simp [hlen, hutf8]), exec_txClose hk hfits (parseClose_codeBytes hutf8 code)]

/-- Settles O39: the command is TX_CLOSE with the code and the reason, the local close. -/
theorem localCloseStartsTheHandshake : Obligations.LocalCloseStartsTheHandshake := by
  intro s code reason rest hk hinputs hlen hutf8
  rw [step_eq_handleInput hinputs]
  exact closeCommand_opened (s := { s with inputs := rest }) hk hlen hutf8 code

/-! ### The timer -/

/-- The way from `a` to `b` arms no timer, and leaves none armed when it enters CLOSED. -/
structure Connection.TimerRests (a b : Connection) : Prop where
  disarmed : a.timerArmed = false → b.timerArmed = false
  closed : a.state ≠ .closed → b.state = .closed → b.timerArmed = false

theorem Connection.TimerRests.refl (a : Connection) : a.TimerRests a := ⟨id, fun hne h => absurd h hne⟩

theorem Connection.TimerRests.of_disarmed (a : Connection) {b : Connection} (h : b.timerArmed = false) :
    a.TimerRests b := ⟨fun _ => h, fun _ _ => h⟩

theorem Connection.TimerRests.trans {a b c : Connection} (h : a.TimerRests b) (h' : b.TimerRests c) :
    a.TimerRests c := by
  refine ⟨h'.disarmed ∘ h.disarmed, fun ha hc => ?_⟩
  by_cases hb : b.state = .closed
  · exact h'.disarmed (h.closed ha hb)
  · exact h'.closed hb hc

/-- Entry into CLOSED clears the timer (R238). -/
theorem State.timerRests_enterClosed (a : Connection) (s : State) : a.TimerRests s.enterClosed.k :=
  .of_disarmed a rfl

theorem timerRests_raiseFail (a : Connection) (code : U16) (kind : Kind) (s : State) :
    a.TimerRests (raiseFail code kind s).k :=
  .of_disarmed a (by rw [raiseFail_eq])

/-! ### Frames and micro-steps -/

theorem exec_received_timerRests {i : Instr} {s t : State} (hi : i.received = true)
    (h : exec i s = .next t) : s.k.TimerRests t.k := by
  rcases exec_received hi h with ⟨-, rfl⟩ | ⟨-, hr⟩
  · exact .refl _
  cases hr with
  | failed a' code kind _ _ => exact timerRests_raiseFail ..
  | runs a' outs _ _ _ => exact .refl _
  | closes code reason => exact .of_disarmed _ (by rw [State.closeReceived_eq])

theorem exec_transmitted_k {i : Instr} {s t : State} (hi : i.received = false) (hclose : ∀ p, i ≠ .txClose p)
    (h : exec i s = .next t) : t.k = s.k := by
  rcases exec_transmitted hi h with rfl | ⟨-, -, -, rfl⟩ | ⟨-, p, hp, -⟩
  · rfl
  · rfl
  · exact absurd hp (hclose p)

theorem microStep_timerRests {s t : State} (h : microStep s = .ran (.next t)) : s.k.TimerRests t.k := by
  cases microStep_outcome h with
  | advances c' h' st _ _ _ => exact .refl _
  | fails c' h' code kind _ _ => exact timerRests_raiseFail ..
  | runs c' i t _ hi hexec => exact (exec_received_timerRests hi hexec :)

theorem drain_timerRests {s t : State} (h : drain s = .next t) : s.k.TimerRests t.k :=
  drain_keeps (P := fun u => s.k.TimerRests u.k)
    (fun _ _ _ hu hstep => hu.trans (microStep_timerRests hstep)) h (.refl _)

/-! ### Input events -/

theorem hsRequest_timerRests {method : Bytes} {headers : Headers} {s t : State}
    (h : hsRequest method headers s = .next t) : s.k.TimerRests t.k := by
  unfold hsRequest at h
  split at h
  case h_1 =>
    simp only at h
    split at h <;> cases h
    · exact ⟨id, nofun⟩
    · exact State.timerRests_enterClosed _ _
  all_goals cases h; exact .refl _

theorem rxChunk_timerRests {bytes : Bytes} {s t : State} (h : rxChunk bytes s = .next t) :
    s.k.TimerRests t.k := by
  unfold rxChunk at h
  split at h
  case h_2 | h_3 => exact (drain_timerRests h :)
  all_goals cases h; exact .refl _

theorem rxEnd_timerRests {s t : State} (h : rxEnd s = .next t) : s.k.TimerRests t.k := by
  unfold rxEnd at h
  split at h <;> cases h
  case h_4 => exact .refl _
  all_goals exact State.timerRests_enterClosed _ _

theorem rxError_timerRests {s t : State} (h : rxError s = .next t) : s.k.TimerRests t.k := by
  unfold rxError at h
  split at h <;> cases h
  case h_4 => exact .refl _
  all_goals exact State.timerRests_enterClosed _ _

theorem timerExpire_timerRests {s t : State} (h : timerExpire s = .next t) : s.k.TimerRests t.k := by
  unfold timerExpire at h
  split at h
  case h_3 =>
    split at h <;> cases h
    · exact State.timerRests_enterClosed _ _
    · exact .refl _
  all_goals cases h; exact .refl _

theorem pauseResume_timerRests {level : Bool} {s t : State} (h : pauseResume level s = .next t) :
    s.k.TimerRests t.k := by
  have hdrive : s.k.TimerRests (drivePause level s).k := by
    rw [drivePause_eq]
    exact ⟨id, fun hne hk => absurd hk hne⟩
  unfold pauseResume at h
  split at h <;> cases h
  case h_2 | h_3 => exact hdrive
  all_goals exact .refl _

/-- The frames of a message are only written. -/
theorem sendMessage_k {op : BitVec 4} {p : Bytes} {frag : Option Nat} {s t : State}
    (h : sendMessage op p frag s = .next t) : t.k = s.k := by
  unfold sendMessage at h
  split at h
  · cases h; rfl
  next kind _ =>
    split at h
    next hguard =>
      rw [Bool.and_eq_true, State.isOpen_iff, sendFits_iff] at hguard
      obtain ⟨hk, hp⟩ := hguard
      split at h
      · rw [exec_plainTransmitted (messageFrame_plainTransmitted kind true hp) hk] at h
        cases h; rfl
      · split at h
        · cases h; rfl
        · rw [execAll_plainTransmitted (fragments_plainTransmitted hp kind _) hk] at h
          cases h; rfl
    next => cases h; rfl

/-- The inputs that can be a local close: the command, and a close frame at the encoder's port. -/
def Input.IsLocalClose (input : Input) : Prop :=
  (∃ code reason, input = .close code reason) ∨
    ∃ bytes p, input = .txFrame bytes ∧ decodeTx bytes = .ok (.txClose p, [])

/-- Every input event leaves the timer at rest but a local close, which leads from OPEN to CLOSING. -/
theorem handleInput_timerRests {input : Input} {s t : State} (h : handleInput input s = .next t) :
    s.k.TimerRests t.k ∨ s.k.state = .opened ∧ t.k.state = .closing ∧ input.IsLocalClose := by
  have rests_of_eq (hk : t.k = s.k) : s.k.TimerRests t.k := hk ▸ .refl _
  cases input with
  | hsRequest method headers => exact .inl (hsRequest_timerRests h)
  | rxChunk bytes => exact .inl (rxChunk_timerRests h)
  | rxEnd => exact .inl (rxEnd_timerRests h)
  | rxError => exact .inl (rxError_timerRests h)
  | timerExpire => exact .inl (timerExpire_timerRests h)
  | pause => exact .inl (pauseResume_timerRests h)
  | resume => exact .inl (pauseResume_timerRests h)
  | sendMessage op payload frag => exact .inl (rests_of_eq (sendMessage_k h))
  | sendPing payload => exact .inl (rests_of_eq (exec_transmitted_k (i := .txPing payload) rfl nofun h))
  | sendPong payload => exact .inl (rests_of_eq (exec_transmitted_k (i := .txPong payload) rfl nofun h))
  | close code reason =>
    rw [handleInput, closeCommand] at h
    split at h
    · rcases exec_transmitted rfl h with rfl | ⟨-, h8, -⟩ | ⟨hk, p, -, rfl⟩
      · exact .inl (.refl _)
      · exact absurd rfl h8
      · exact .inr ⟨hk, rfl, .inl ⟨code, reason, rfl⟩⟩
    · cases h; exact .inl (.refl _)
  | txFrame bytes =>
    rw [handleInput, txFrameInput] at h
    split at h
    next i hdecode =>
      rcases exec_transmitted (decode_of_decodeTx hdecode).1 h with rfl | ⟨-, -, -, rfl⟩ | ⟨hk, p, rfl, rfl⟩
      · exact .inl (.refl _)
      · exact .inl (.refl _)
      · exact .inr ⟨hk, rfl, .inr ⟨bytes, p, rfl, hdecode⟩⟩
    all_goals cases h; exact .inl (.refl _)

/-- Settles O46: a step leaves the timer at rest or is a local close, which does not end in CLOSED. -/
theorem timerIsSetOnlyByALocalClose : Obligations.TimerIsSetOnlyByALocalClose := by
  intro s t h
  rcases step_cases s with ⟨-, hstep⟩ | ⟨input, rest, hcons, hstep⟩ <;> rw [hstep] at h
  · cases h
    exact ⟨fun hne hk => absurd hk hne, fun hoff hon => by simp [hoff] at hon⟩
  rcases handleInput_timerRests h with hrests | ⟨hopen, hclosing, hinput⟩
  · exact ⟨hrests.closed, fun hoff hon => by simp [hrests.disarmed hoff] at hon⟩
  · exact ⟨fun _ hk => by simp [hclosing] at hk, fun _ _ => ⟨hopen, hclosing, input, rest, hcons, hinput⟩⟩

end Sys2Proof.Machine
end

section
/-! SUPPORT. Check 4 of the handshake (45_handshake.md R264, R270): the texts that strict base64 decodes to
`3 * n + 1` bytes, and the key texts among them. -/

namespace Sys2Proof.Machine

theorem base64Value_pad : base64Value base64Pad = none := rfl

/-- A group before the last gives three bytes. -/
theorem base64Decode_group_iff (c0 c1 c2 c3 : Byte) (rest : Bytes) (m : Nat) :
    (∃ bs, base64Decode (c0 :: c1 :: c2 :: c3 :: rest) = some bs ∧ bs.length = m + 3) ↔
      (∀ ch ∈ [c0, c1, c2, c3], (base64Value ch).isSome = true) ∧
        ∃ bs, base64Decode rest = some bs ∧ bs.length = m := by
  constructor
  · rintro ⟨bs, hdecode, hlen⟩
    rw [base64Decode] at hdecode
    (repeat' split at hdecode) <;> cases hdecode
    · simp at hlen
    · simp at hlen
    next v0 v1 h0 h1 _ _ _ _ v2 v3 bs' h2 h3 hrest =>
      exact ⟨by simp [h0, h1, h2, h3], bs', hrest, by simpa using hlen⟩
  · rintro ⟨hvalues, bs, hrest, rfl⟩
    simp only [List.forall_mem_cons, Option.isSome_iff_exists] at hvalues
    obtain ⟨⟨v0, h0⟩, ⟨v1, h1⟩, ⟨v2, h2⟩, ⟨v3, h3⟩, -⟩ := hvalues
    have hpad : ¬(rest.isEmpty && c3 == base64Pad) = true := by
      rw [Bool.and_eq_true, beq_iff_eq]
      rintro ⟨-, rfl⟩
      cases base64Value_pad.symm.trans h3
    exact ⟨_, by simp only [base64Decode, h0, h1, h2, h3, hrest, if_neg hpad]; rfl, by simp⟩

/-- One byte is a group with two characters of padding. -/
theorem base64Decode_single_iff (k : Bytes) :
    (∃ bs, base64Decode k = some bs ∧ bs.length = 1) ↔
      k.length = 4 ∧ (∀ ch ∈ k.take 2, (base64Value ch).isSome = true) ∧
        k.drop 2 = [base64Pad, base64Pad] := by
  constructor
  · rintro ⟨bs, hdecode, hlen⟩
    match k with
    | [] | [_] | [_, _] | [_, _, _] => cases hdecode <;> cases hlen
    | c0 :: c1 :: c2 :: c3 :: rest =>
    rw [base64Decode] at hdecode
    (repeat' split at hdecode) <;> cases hdecode
    next v0 v1 h0 h1 hlast h2 => simp_all
    · simp at hlen
    · simp at hlen
  · rintro ⟨hlen, hvalues, hpad⟩
    match k with
    | [c0, c1, c2, c3] =>
    obtain ⟨rfl, rfl⟩ : c2 = base64Pad ∧ c3 = base64Pad := by simpa using hpad
    simp only [List.take_succ_cons, List.take_zero, List.forall_mem_cons, Option.isSome_iff_exists] at hvalues
    obtain ⟨⟨v0, h0⟩, ⟨v1, h1⟩, -⟩ := hvalues
    exact ⟨[base64Byte (v0 * 4 + v1 / 16)], by simp [base64Decode, h0, h1], rfl⟩

/-- `3 * n + 1` bytes are `n` groups and one with two characters of padding. -/
theorem base64Decode_length_iff (n : Nat) (k : Bytes) :
    (∃ bs, base64Decode k = some bs ∧ bs.length = 3 * n + 1) ↔
      k.length = 4 * n + 4 ∧ (∀ ch ∈ k.take (4 * n + 2), (base64Value ch).isSome = true) ∧
        k.drop (4 * n + 2) = [base64Pad, base64Pad] := by
  induction n generalizing k with
  | zero => exact base64Decode_single_iff k
  | succ n ih =>
    match k with
    | [] | [_] | [_, _] | [_, _, _] => simp [base64Decode]
    | c0 :: c1 :: c2 :: c3 :: rest =>
      rw [show 3 * (n + 1) + 1 = 3 * n + 1 + 3 by omega, base64Decode_group_iff, ih,
        show 4 * (n + 1) + 2 = 4 * n + 2 + 4 by omega]
      simp only [List.length_cons, List.take_succ_cons, List.drop_succ_cons, List.forall_mem_cons]
      constructor
      · rintro ⟨⟨h0, h1, h2, h3, -⟩, hlen, hvalues, hpad⟩
        exact ⟨by omega, ⟨h0, h1, h2, h3, hvalues⟩, hpad⟩
      · rintro ⟨hlen, ⟨h0, h1, h2, h3, hvalues⟩, hpad⟩
        exact ⟨⟨h0, h1, h2, h3, by simp⟩, by omega, hvalues, hpad⟩

/-- The 24 characters that decode to the 16 bytes of a nonce. -/
theorem base64Decode_nonce_iff (k : Bytes) :
    (∃ nonce, base64Decode k = some nonce ∧ nonce.length = Config.nonceBytes) ↔
      k.length = 24 ∧ (∀ ch ∈ k.take 22, (base64Value ch).isSome = true) ∧ k.drop 22 = [0x3D, 0x3D] :=
  base64Decode_length_iff 5 k

/-! ### The key check -/

/-- A character of base64 is no blank. -/
theorem isBlankByte_of_base64Value {b : Byte} (h : (base64Value b).isSome = true) : isBlankByte b = false := by
  rw [Bool.eq_false_iff, Ne, isBlankByte_iff]
  rintro (rfl | rfl) <;> cases h

/-- A key text is tight. -/
theorem isTight_of_nonceForm {k : Bytes}
    (hvalues : ∀ ch ∈ k.take 22, (base64Value ch).isSome = true) (hpad : k.drop 22 = [0x3D, 0x3D]) :
    isTight k := by
  refine ⟨fun b hb => isBlankByte_of_base64Value (hvalues b ?_), fun b hb => ?_⟩
  · exact List.mem_of_mem_head? (by rwa [List.head?_take])
  · rw [← List.take_append_drop 22 k, hpad] at hb
    obtain rfl : b = 0x3D := by simpa [eq_comm] using hb
    rfl

theorem headerValue_of_offersKey {headers : Headers} {key : Bytes} (h : offersKey headers key) :
    headerValue headers "sec-websocket-key" = some key := by
  obtain ⟨v, hlookup, hpadded, -, hvalues, hpad⟩ := h
  rw [headerValue_eq, hlookup, Option.map_some, trimmed_eq (isTight_of_nonceForm hvalues hpad) hpadded]

/-- The check decodes the header's trimmed value. -/
theorem keyOk_iff_decodes (headers : Headers) :
    keyOk headers = true ↔ ∃ key, headerValue headers "sec-websocket-key" = some key ∧
      ∃ nonce, base64Decode key = some nonce ∧ nonce.length = Config.nonceBytes := by
  unfold keyOk
  cases headerValue headers "sec-websocket-key" with
  | none => simp
  | some key => cases hdecode : base64Decode key <;> simp [hdecode]

theorem keyOk_iff (headers : Headers) : keyOk headers = true ↔ ∃ key, offersKey headers key := by
  rw [keyOk_iff_decodes]
  constructor
  · rintro ⟨key, hkey, hnonce⟩
    rw [headerValue_eq, Option.map_eq_some_iff] at hkey
    obtain ⟨v, hlookup, rfl⟩ := hkey
    exact ⟨_, v, hlookup, trimmed_isPadded v, (base64Decode_nonce_iff _).1 hnonce⟩
  · rintro ⟨key, h⟩
    have hvalue := headerValue_of_offersKey h
    obtain ⟨-, -, -, hform⟩ := h
    exact ⟨key, hvalue, (base64Decode_nonce_iff key).2 hform⟩

end Sys2Proof.Machine
end

section
/-! SUPPORT. HS_REQUEST in CONNECTING (44_connection.md R232): the result of the five checks in the terms of the
rules (45_handshake.md R260 to R267), and what each result does. -/

namespace Sys2Proof.Machine

/-! ### The negotiation -/

section
variable {method : Bytes} {headers : Headers} (cfg : Params) (sha : Sha1Regs)

theorem negotiate_methodNotAllowed (hmethod : method ≠ [0x47, 0x45, 0x54]) :
    negotiate cfg sha method headers = (.reject .methodNotAllowed [], sha) := by
  rw [Ne, ← methodOk_iff] at hmethod
  simp [negotiate, hmethod]

theorem negotiate_badRequest (hmethod : method = [0x47, 0x45, 0x54])
    (hfails : ¬(asksForWebsocket headers ∧ listsUpgrade headers ∧ ∃ key, offersKey headers key)) :
    negotiate cfg sha method headers = (.reject .badRequest [], sha) := by
  rw [← methodOk_iff] at hmethod
  rw [← upgradeOk_iff, ← connectionOk_iff, ← keyOk_iff] at hfails
  unfold negotiate
  rw [hmethod]
  cases hupgrade : upgradeOk headers
  · rfl
  cases hconnection : connectionOk headers
  · rfl
  cases hkey : keyOk headers
  · rfl
  · exact absurd ⟨hupgrade, hconnection, hkey⟩ hfails

/-- A request that passes the first four checks is decided by the fifth. -/
theorem negotiate_version {key : Bytes} (hmethod : method = [0x47, 0x45, 0x54])
    (hupgrade : asksForWebsocket headers) (hconnection : listsUpgrade headers)
    (hkey : offersKey headers key) :
    negotiate cfg sha method headers =
      if versionOk cfg headers then
        (.accept (acceptValue key), sha1Run sha (key ++ Config.guid))
      else (.reject .badRequest [(Config.ascii "Sec-WebSocket-Version", Config.ascii "13")], sha) := by
  have haccept : acceptMessage headers = key ++ Config.guid := by
    rw [acceptMessage, headerValue_of_offersKey hkey, Option.getD_some]
  unfold negotiate
  rw [(methodOk_iff method).2 hmethod, (upgradeOk_iff headers).2 hupgrade,
    (connectionOk_iff headers).2 hconnection, (keyOk_iff headers).2 ⟨key, hkey⟩, haccept, acceptValue, sha1,
    sha1Digest_run .created sha]
  cases versionOk cfg headers <;> rfl

end

/-! ### The two results -/

section
variable {s : State} (hk : s.k.state = .connecting) {method : Bytes} {headers : Headers}
include hk

/-- A rejection is one write, the end of TX and CLOSED (decision D33). -/
theorem hsRequest_rejected {status : RejectStatus} {extra : List (Bytes × Bytes)}
    (hresult : negotiate s.cfg s.sha method headers = (.reject status extra, s.sha)) :
    hsRequest method headers s = .next { s with
      k := { s.k with state := .closed, timerArmed := false }
      out := s.out ++ [.txWrite (responseError status extra), .txEnd] } := by
  simp only [hsRequest, hk, hresult]
  simp [State.output, State.enterClosed, State.setTimer, State.setConn]

theorem hsRequest_accepted {value : Bytes} {sha' : Sha1Regs}
    (hresult : negotiate s.cfg s.sha method headers = (.accept value, sha')) :
    hsRequest method headers s = .next { s with
      sha := sha'
      k := { s.k with state := .opened }
      c := .created
      d := .created
      h := .created
      a := .created
      out := s.out ++ [.txWrite (response101 value), .ev .connectionOpened] } := by
  simp only [hsRequest, hk, hresult]
  simp [State.output, State.createDecoder, State.setConn]

end

/-! ### The response bytes (R281, R282) -/

theorem response101_eq (value : Bytes) :
    response101 value =
      Config.ascii "HTTP/1.1 101 Switching Protocols" ++ [0x0D, 0x0A] ++
      Config.ascii "Upgrade: websocket" ++ [0x0D, 0x0A] ++
      Config.ascii "Connection: Upgrade" ++ [0x0D, 0x0A] ++
      Config.ascii "Sec-WebSocket-Accept: " ++ value ++ [0x0D, 0x0A, 0x0D, 0x0A] := by
  simp only [response101, crlf, List.append_assoc, List.cons_append, List.nil_append]

theorem responseError_methodNotAllowed :
    responseError .methodNotAllowed [] =
      Config.ascii "HTTP/1.1 405 Method Not Allowed" ++ [0x0D, 0x0A, 0x0D, 0x0A] := rfl

theorem responseError_badRequest :
    responseError .badRequest [] =
      Config.ascii "HTTP/1.1 400 Bad Request" ++ [0x0D, 0x0A, 0x0D, 0x0A] := rfl

theorem responseError_badVersion :
    responseError .badRequest [(Config.ascii "Sec-WebSocket-Version", Config.ascii "13")] =
      Config.ascii "HTTP/1.1 400 Bad Request" ++ [0x0D, 0x0A] ++
        Config.ascii "Sec-WebSocket-Version: 13" ++ [0x0D, 0x0A, 0x0D, 0x0A] := rfl

/-- Settles O43: the checks in the terms of the rules decide the negotiation, and its result the next state. -/
theorem handshakeOpensOrRejects : Obligations.HandshakeOpensOrRejects := by
  intro s method headers rest hk hinputs
  rw [step_eq_handleInput hinputs]
  refine ⟨fun hmethod => ?_, fun hmethod hfails => ?_,
    fun hmethod hupgrade hconnection ⟨key, hkey⟩ hversion => ?_,
    fun key hmethod hupgrade hconnection hkey hversion => ⟨sha1Run s.sha (key ++ Config.guid), ?_⟩⟩
  · rw [← responseError_methodNotAllowed]
    exact hsRequest_rejected (s := { s with inputs := rest }) hk
      (negotiate_methodNotAllowed s.cfg s.sha hmethod)
  · rw [← responseError_badRequest]
    exact hsRequest_rejected (s := { s with inputs := rest }) hk
      (negotiate_badRequest s.cfg s.sha hmethod hfails)
  · rw [← versionOk_iff] at hversion
    have hresult := negotiate_version s.cfg s.sha hmethod hupgrade hconnection hkey
    rw [if_neg hversion] at hresult
    rw [← responseError_badVersion]
    exact hsRequest_rejected (s := { s with inputs := rest }) hk hresult
  · have hresult := negotiate_version s.cfg s.sha hmethod hupgrade hconnection hkey
    rw [if_pos ((versionOk_iff ..).2 hversion)] at hresult
    rw [← response101_eq]
    exact hsRequest_accepted (s := { s with inputs := rest }) hk hresult

end Sys2Proof.Machine
end

section
/-! SUPPORT. Base64 (45_handshake.md R269, R270): the alphabet's values, the three forms of a group on both
sides, and the round trip. -/

namespace Sys2Proof.Machine

/-! ### The alphabet -/

theorem base64Value_base64Char : ∀ v < 64, base64Value (base64Char v) = some v := by
  decide

theorem base64Char_ne_pad {v : Nat} (hv : v < 64) : base64Char v ≠ base64Pad := by
  intro hpad
  have hvalue := base64Value_base64Char v hv
  rw [hpad, base64Value_pad] at hvalue
  cases hvalue

/-! ### Decoding one group of encoded characters -/

section

variable {v0 v1 v2 v3 : Nat} (h0 : v0 < 64) (h1 : v1 < 64)
include h0 h1

theorem base64Decode_twoChars :
    base64Decode [base64Char v0, base64Char v1, base64Pad, base64Pad] =
      some [base64Byte (v0 * 4 + v1 / 16)] := by
  simp [base64Decode, base64Value_base64Char v0 h0, base64Value_base64Char v1 h1]

theorem base64Decode_threeChars (h2 : v2 < 64) :
    base64Decode [base64Char v0, base64Char v1, base64Char v2, base64Pad] =
      some [base64Byte (v0 * 4 + v1 / 16), base64Byte (v1 % 16 * 16 + v2 / 4)] := by
  simp [base64Decode, base64Value_base64Char v0 h0, base64Value_base64Char v1 h1,
    base64Value_base64Char v2 h2, base64Char_ne_pad h2]

theorem base64Decode_fourChars (h2 : v2 < 64) (h3 : v3 < 64) {rest bs : Bytes}
    (hrest : base64Decode rest = some bs) :
    base64Decode (base64Char v0 :: base64Char v1 :: base64Char v2 :: base64Char v3 :: rest) =
      some (base64Byte (v0 * 4 + v1 / 16) :: base64Byte (v1 % 16 * 16 + v2 / 4) ::
        base64Byte (v2 % 4 * 64 + v3) :: bs) := by
  simp [base64Decode, base64Value_base64Char v0 h0, base64Value_base64Char v1 h1,
    base64Value_base64Char v2 h2, base64Value_base64Char v3 h3, base64Char_ne_pad h3, hrest]

end

/-! ### The bytes of a group from the values of its characters -/

theorem base64Byte_eq {n : Nat} {x : Byte} (h : n = x.toNat) : base64Byte n = x := by
  rw [h, base64Byte, BitVec.ofNat_toNat, BitVec.setWidth_eq]

/-- Eight bits cut into six and two, the two followed by the high bits `hi` of the next byte. -/
theorem base64Byte_first (x : Byte) {hi : Nat} (h : hi < 16) :
    base64Byte (x.toNat / 4 * 4 + (x.toNat % 4 * 16 + hi) / 16) = x :=
  base64Byte_eq (by omega)

/-- Eight bits cut into four and four, between the low bits `lo` of the last byte and the high bits `hi` of the
next. -/
theorem base64Byte_second (y : Byte) (lo : Nat) {hi : Nat} (h : hi < 4) :
    base64Byte ((lo * 16 + y.toNat / 16) % 16 * 16 + (y.toNat % 16 * 4 + hi) / 4) = y :=
  base64Byte_eq (by have := y.isLt; omega)

/-- Eight bits cut into two and six, after the low bits `lo` of the last byte. -/
theorem base64Byte_third (z : Byte) (lo : Nat) :
    base64Byte ((lo * 4 + z.toNat / 64) % 4 * 64 + z.toNat % 64) = z :=
  base64Byte_eq (by have := z.isLt; omega)

/-! ### The round trip and the length -/

theorem base64Decode_base64 (b : Bytes) : base64Decode (base64 b) = some b := by
  induction b using base64.induct with
  | case1 => rfl
  | case2 x =>
    have hx := x.isLt
    rw [base64, base64Decode_twoChars (by omega) (by omega)]
    exact congrArg (some [·]) (base64Byte_first x (hi := 0) (by omega))
  | case3 x y =>
    have hx := x.isLt
    have hy := y.isLt
    rw [base64, base64Decode_threeChars (by omega) (by omega) (by omega), base64Byte_first x (by omega)]
    exact congrArg (some [x, ·]) (base64Byte_second y _ (hi := 0) (by omega))
  | case4 x y z rest ih =>
    have hx := x.isLt
    have hy := y.isLt
    have hz := z.isLt
    rw [base64, base64Decode_fourChars (by omega) (by omega) (by omega) (by omega) ih,
      base64Byte_first x (by omega), base64Byte_second y _ (by omega), base64Byte_third z]

theorem base64_length (b : Bytes) : (base64 b).length = 4 * ((b.length + 2) / 3) := by
  induction b using base64.induct with
  | case1 | case2 | case3 => simp [base64]
  | case4 x y z rest ih =>
    simp only [base64, List.length_cons, ih]
    omega

/-- An encoding ends in padding when its last group is not full. -/
theorem base64_getLast? {b : Bytes} (h : b.length % 3 ≠ 0) : (base64 b).getLast? = some base64Pad := by
  induction b using base64.induct with
  | case1 => simp at h
  | case2 | case3 => simp [base64]
  | case4 x y z rest ih =>
    have hrest : rest.length % 3 ≠ 0 := by
      simp only [List.length_cons] at h
      omega
    simp [base64, List.getLast?_cons, ih hrest]

/-- Settles O58: each group of at most three bytes decodes to itself, and takes four characters. -/
theorem base64DecodeInvertsEncode : Obligations.Base64DecodeInvertsEncode :=
  fun b => ⟨base64Decode_base64 b, base64_length b⟩

/-- Settles O60: 16 bytes are five full groups and one byte, whose group ends in two characters of padding. -/
theorem keyCheckAcceptsExactlyTheNonceForm : Obligations.KeyCheckAcceptsExactlyTheNonceForm :=
  base64Decode_nonce_iff

end Sys2Proof.Machine
end

section
/-! SUPPORT. The sizes of the SHA-1 digest and padding (45_handshake.md R271, R276) and of the accept value
(R267, R278), and the source's example (R279). -/

namespace Sys2Proof.Machine

theorem sha1_length (m : Bytes) : (sha1 m).length = Config.digestBytes := by
  simp [sha1, sha1Digest, Config.digestBytes]

theorem sha1Pad_length (m : Bytes) :
    (sha1Pad m).length = m.length + (119 - m.length % 64) % 64 + 9 := by
  simp only [sha1Pad, List.length_append, List.length_cons, List.length_replicate, toBe_length]
  omega

theorem prefix_sha1Pad (m : Bytes) : m <+: sha1Pad m :=
  List.prefix_append m _

/-- The 20 bytes of a digest are six full groups and two bytes. -/
theorem acceptValue_length (key : Bytes) : (acceptValue key).length = 28 := by
  rw [acceptValue, base64_length, sha1_length]
  rfl

theorem acceptValue_getLast? (key : Bytes) : (acceptValue key).getLast? = some 0x3D :=
  base64_getLast? (by rw [sha1_length]; decide)

/-- Settles O59: the accept value's sizes follow from the digest's, the padding's from its zero count. -/
theorem digestAndAcceptSizes : Obligations.DigestAndAcceptSizes := by
  intro m
  have hpad := sha1Pad_length m
  exact ⟨sha1_length m, acceptValue_length m, acceptValue_getLast? m, by omega, prefix_sha1Pad m, by omega⟩

/-- The digest of the source's example. -/
theorem sha1_sourceExample :
    sha1 (Config.ascii "dGhlIHNhbXBsZSBub25jZQ==" ++ Config.guid) =
      toBe 20 0xB37A4F2CC0624F1690F64606CF385945B2BEC4EA := by
  decide +kernel

/-- Settles O57: the accept value is the base64 of the example's digest. -/
theorem sourceExampleOfTheAcceptValue : Obligations.SourceExampleOfTheAcceptValue := by
  refine ⟨?_, sha1_sourceExample⟩
  rw [acceptValue, sha1_sourceExample]
  decide +kernel

end Sys2Proof.Machine
end

section
/-! SUPPORT. Frames outside their modes and limits (60_exceptions.md R320, R321) and the failure entry (R310,
R312). -/

namespace Sys2Proof.Machine

/-- In CONNECTING, in CLOSED and with a failed decoder nothing is decoded. -/
theorem State.decoding_false_of_stopped {s : State}
    (h : s.k.state = .connecting ∨ s.k.state = .closed ∨ s.d.state = .failed) : s.decoding = false := by
  rw [← Bool.not_eq_true, State.decoding_iff]
  rintro ⟨hk, hd⟩
  rcases h with h | h | h
  · simp [h] at hk
  · simp [h] at hk
  · exact hd h

/-- A received frame has no effect when the decoder does not run (R320, R321). -/
theorem exec_received_notDecoding {i : Instr} {s : State} (hi : i.received = true)
    (hd : s.decoding = false) : exec i s = .next s := by
  obtain ⟨dispatch, hexec⟩ := exec_eq_receiveFrame hi
  simp [hexec, receiveFrame, hd]

/-- TX_CLOSE with a payload that is no close payload has no effect (43_encoder.md R214). -/
theorem exec_txClose_malformed {p : Bytes} (hparse : parseClose p = none) (s : State) :
    exec (.txClose p) s = .next s := by
  simp [exec, execTxClose, hparse]

/-- Settles O34: the guard of received frames, the two guards of transmitted frames, and the check of the close
payload. -/
theorem framesOutsideTheirModesHaveNoEffect : Obligations.FramesOutsideTheirModesHaveNoEffect := by
  intro i s
  exact ⟨fun hi hstopped => exec_received_notDecoding hi (State.decoding_false_of_stopped hstopped),
    exec_transmitted_notOpened, fun hi hwf => exec_unfit hi hwf s,
    fun _ hparse => exec_txClose_malformed hparse s⟩

/-- Settles O47: the failure entry in one piece, whose outputs and `closeSent` depend on whether a close frame
was sent already. -/
theorem failureEntry : Obligations.FailureEntry := by
  intro code kind s _
  constructor
  · intro hsent
    rw [raiseFail_eq, hsent]
    rfl
  · intro hsent
    simp [raiseFail_eq, failOutputs, hsent]

end Sys2Proof.Machine
end

section
/-! SUPPORT. Creation (70_reset_and_hazards.md R341): the base case of the two invariants. -/

namespace Sys2Proof.Machine

/-- A created connection is in CONNECTING with an empty cursor, an idle accumulator, no flag set, no failure
record and a schedule of 80 words. -/
theorem State.create_busyInv (cfg : Params) : (State.create cfg).BusyInv where
  memory := Cursor.created_wf
  accumulator := rfl
  connection := rfl
  failure := rfl
  header := rfl
  unopened := rfl
  schedule := List.length_replicate

/-- Nothing is decoded before the handshake, so a created connection is quiescent. -/
theorem State.create_inv (cfg : Params) : (State.create cfg).inv = true :=
  (State.inv_iff _).2 ⟨State.create_busyInv cfg, rfl⟩

/-- A created connection has written nothing, and no close frame counts as sent. -/
theorem State.create_traceInv (cfg : Params) : (State.create cfg).traceInv = true :=
  (State.traceInv_iff _).2 ⟨rfl, Nat.zero_le 1, .inl rfl, rfl⟩

/-- Settles O49: both invariants hold at creation with any parameters, and reset is creation with the default
parameters (entry 1). -/
theorem creationMeetsTheInvariants : Obligations.CreationMeetsTheInvariants :=
  ⟨fun cfg => ⟨State.create_inv cfg, State.create_traceInv cfg⟩,
    State.create_inv Config.defaultParams, State.create_traceInv Config.defaultParams⟩

end Sys2Proof.Machine
end
